-- ==== Sys2Proof/Word.lean ====
section
/-! DEFINITION. The word types of wbrc/shamir CORE (00_scope.md section 6). Nothing in the block is signed. -/

namespace Sys2Proof

/-- One byte of `IN` or `OUT`. -/
abbrev Byte := BitVec 8

/-- A field element, a 16-bit word (40_field_and_random.md R80: every 16-bit value is a valid element). -/
abbrev Word := BitVec 16

/-- A 32-bit register (10_state.md R10). -/
abbrev Reg := BitVec 32

/-- A 64-bit descriptor (30_encoding.md R60). -/
abbrev Desc := BitVec 64

end Sys2Proof
end

