-- ==== Sys2Proof/Syntax.lean ====
section
/-! DEFINITION. The six commands of the block (30_encoding.md R62; opcode_table.json): one constructor per row. -/

namespace Sys2Proof

/-- A command with its operands (R60 to R62). A count or a byte length is an unsigned integer; an operand that is a field
element (`s` of WSPLIT, `x` of PEVAL) is the 16-bit element itself (R61). Operands that must be zero are not written. -/
inductive Instr where
  /-- SPLIT: threshold, share count, secret length in bytes (44_split_combine.md R140). -/
  | split (t n len : Nat)
  /-- COMBINE: shares supplied (R150). -/
  | combine (k : Nat)
  /-- GENPT: points wanted (41_genpt.md R102). -/
  | genpt (n : Nat)
  /-- WSPLIT: threshold, x-coordinates given, secret word (42_wsplit_peval.md R114). -/
  | wsplit (t n : Nat) (s : Word)
  /-- WCOMB: (x, y) pairs given (43_wcomb.md R131). -/
  | wcomb (k : Nat)
  /-- PEVAL: coefficient count, evaluation point (42_wsplit_peval.md R112). -/
  | peval (t : Nat) (x : Word)
  deriving DecidableEq, Repr

/-- Why a descriptor names no command (60_exceptions.md R173, class ILLEGAL). -/
inductive Illegal where
  /-- `OP` is not one of the six (30_encoding.md R63). -/
  | opcode
  /-- `FLAGS` or a must-be-zero operand is non-zero (R65). -/
  | reserved
  deriving DecidableEq, Repr

/-- What a descriptor reads as: exactly one command with its operands, or illegal (R66: decode is total). -/
inductive Decoded where
  | legal (i : Instr)
  | illegal (why : Illegal)
  deriving DecidableEq, Repr

end Sys2Proof
end

