-- ==== Sys2Proof/WellFormed.lean ====
section
/-! DEFINITION. Which instructions a descriptor can hold: every operand that is an integer fits its 16-bit field
(30_encoding.md R60, R61). Operands that are field elements are 16-bit by their type. -/

namespace Sys2Proof

/-- An integer operand fits its 16-bit field (R61: `0 .. 65535`). -/
def fitsOperand (v : Nat) : Bool := v < 65536

/-- Every integer operand fits. The range checks of a command (`t = 0`, capacity, ..) are its own validation, not
well-formedness: a descriptor can hold such operands and the command then ends in an error. -/
def Instr.wf : Instr → Bool
  | .split t n len => fitsOperand t && fitsOperand n && fitsOperand len
  | .combine k => fitsOperand k
  | .genpt n => fitsOperand n
  | .wsplit t n _ => fitsOperand t && fitsOperand n
  | .wcomb k => fitsOperand k
  | .peval t _ => fitsOperand t

end Sys2Proof
end

