-- ==== Sys2Proof/Decode.lean ====
section
/-! DEFINITION. Decoding a descriptor, in the order of 30_encoding.md R66, and the encoder written from the same tables
(R60, R62). Decoding is total on the 2^64 descriptors and rejects by name. -/

namespace Sys2Proof

/-! ### Descriptor fields (R60) -/

/-- `OP`, bits 7:0. -/
def Desc.op (d : Desc) : Byte := d.extractLsb' 0 8

/-- `FLAGS`, bits 15:8. -/
def Desc.flags (d : Desc) : Byte := d.extractLsb' 8 8

/-- `A`, bits 31:16. -/
def Desc.a (d : Desc) : Word := d.extractLsb' 16 16

/-- `B`, bits 47:32. -/
def Desc.b (d : Desc) : Word := d.extractLsb' 32 16

/-- `C`, bits 63:48. -/
def Desc.c (d : Desc) : Word := d.extractLsb' 48 16

/-- `{C, B, A, FLAGS, OP}` (R60). -/
def Desc.pack (op flags : Byte) (a b c : Word) : Desc := c ++ b ++ a ++ flags ++ op

/-! ### The opcode map (R62) -/

/-- The six operations. -/
inductive Opcode where
  | split | combine | genpt | wsplit | wcomb | peval
  deriving DecidableEq, Repr

/-- The `OP` value of an operation (R62). -/
def Opcode.code : Opcode → Byte
  | .split => 0x01
  | .combine => 0x02
  | .genpt => 0x10
  | .wsplit => 0x11
  | .wcomb => 0x12
  | .peval => 0x13

/-- The operation an `OP` value names; none for the 250 illegal values (R63). -/
def Opcode.ofCode (v : Byte) : Option Opcode :=
  if v = 0x01 then some .split
  else if v = 0x02 then some .combine
  else if v = 0x10 then some .genpt
  else if v = 0x11 then some .wsplit
  else if v = 0x12 then some .wcomb
  else if v = 0x13 then some .peval
  else none

/-- Some field that R62 marks "must be 0", or FLAGS, is non-zero (R65). -/
def Opcode.reservedSet (o : Opcode) (d : Desc) : Bool :=
  d.flags ≠ 0 ||
  match o with
  | .split => false
  | .combine => d.a ≠ 0 || d.c ≠ 0
  | .genpt => d.a ≠ 0 || d.c ≠ 0
  | .wsplit => false
  | .wcomb => d.a ≠ 0 || d.c ≠ 0
  | .peval => d.b ≠ 0

/-- The command an operation makes of the operand fields (R61, R62). -/
def Opcode.build (o : Opcode) (d : Desc) : Instr :=
  match o with
  | .split => .split d.a.toNat d.b.toNat d.c.toNat
  | .combine => .combine d.b.toNat
  | .genpt => .genpt d.b.toNat
  | .wsplit => .wsplit d.a.toNat d.b.toNat d.c
  | .wcomb => .wcomb d.b.toNat
  | .peval => .peval d.a.toNat d.c

/-- Decode (R66): the opcode check of R63 first, then the reserved-field check of R65. -/
def decode (d : Desc) : Decoded :=
  match Opcode.ofCode d.op with
  | none => .illegal .opcode
  | some o => if o.reservedSet d then .illegal .reserved else .legal (o.build d)

/-! ### The encoder (R60, R62) -/

/-- The operation of a command. -/
def Instr.opcode : Instr → Opcode
  | .split .. => .split
  | .combine _ => .combine
  | .genpt _ => .genpt
  | .wsplit .. => .wsplit
  | .wcomb _ => .wcomb
  | .peval .. => .peval

/-- An integer operand as its 16-bit field. -/
def operandField (v : Nat) : Word := BitVec.ofNat 16 v

/-- The descriptor of a command: FLAGS zero, operands that must be zero left zero. -/
def encode (i : Instr) : Desc :=
  match i with
  | .split t n len => Desc.pack i.opcode.code 0 (operandField t) (operandField n) (operandField len)
  | .combine k => Desc.pack i.opcode.code 0 0 (operandField k) 0
  | .genpt n => Desc.pack i.opcode.code 0 0 (operandField n) 0
  | .wsplit t n s => Desc.pack i.opcode.code 0 (operandField t) (operandField n) s
  | .wcomb k => Desc.pack i.opcode.code 0 0 (operandField k) 0
  | .peval t x => Desc.pack i.opcode.code 0 (operandField t) 0 x

/-! ### The opcode table's rows (opcode_table.json; R66) -/

/-- One row of opcode_table.json: mnemonic, `match` and `mask`. -/
structure TableRow where
  mnemonic : String
  op : Opcode
  bits : Desc
  mask : Desc
  deriving DecidableEq, Repr

/-- opcode_table.json, row by row. -/
def opcodeTable : List TableRow :=
  [ ⟨"SPLIT", .split, 0x0000000000000001, 0x000000000000FFFF⟩,
    ⟨"COMBINE", .combine, 0x0000000000000002, 0xFFFF0000FFFFFFFF⟩,
    ⟨"GENPT", .genpt, 0x0000000000000010, 0xFFFF0000FFFFFFFF⟩,
    ⟨"WSPLIT", .wsplit, 0x0000000000000011, 0x000000000000FFFF⟩,
    ⟨"WCOMB", .wcomb, 0x0000000000000012, 0xFFFF0000FFFFFFFF⟩,
    ⟨"PEVAL", .peval, 0x0000000000000013, 0x0000FFFF0000FFFF⟩ ]

/-- The instruction the decoder reads from a word numbered as opcode_table.json numbers it: a descriptor is one 64-bit
number whose bit 0 is bit 0 of DESC_LO; bits at and above `nbits` are zero. None where the descriptor is illegal. -/
def decodeTableWord (nbits w : Nat) : Option Instr :=
  match decode (BitVec.ofNat 64 (w % 2 ^ nbits)) with
  | .legal i => some i
  | .illegal _ => none

end Sys2Proof
end

