-- ==== Sys2Proof/Config.lean ====
section
/-! DEFINITION. What one instance of the block fixes (00_scope.md R6, R7) and the free values the spec leaves open
(93_implementation_defined.md U1, U2, U20). The free values are constants without a body: no proof sees what they are. -/

namespace Sys2Proof

/-- The Field capability `F = (add, mul, inv, one)` (40_field_and_random.md R81): total functions on 16-bit values.
Which of them are lawful is `FieldOps.Lawful`. -/
structure FieldOps where
  add : Word → Word → Word
  mul : Word → Word → Word
  inv : Word → Word
  one : Word
  deriving Inhabited

/-- The laws of R82 (addition), R83 (multiplication), R84 (inverse) and R85 (`one`). Nothing is said of `inv 0`
(93_implementation_defined.md U1). A Field that breaks a law is outside the spec (R87). -/
structure FieldOps.Lawful (F : FieldOps) : Prop where
  add_comm : ∀ a b, F.add a b = F.add b a
  add_assoc : ∀ a b c, F.add (F.add a b) c = F.add a (F.add b c)
  add_zero : ∀ a, F.add a 0 = a
  add_self : ∀ a, F.add a a = 0
  mul_comm : ∀ a b, F.mul a b = F.mul b a
  mul_assoc : ∀ a b c, F.mul (F.mul a b) c = F.mul a (F.mul b c)
  mul_one : ∀ a, F.mul a F.one = a
  mul_zero : ∀ a, F.mul a 0 = 0
  mul_add : ∀ a b c, F.mul a (F.add b c) = F.add (F.mul a b) (F.mul a c)
  no_zero_divisors : ∀ a b, F.mul a b = 0 → a = 0 ∨ b = 0
  mul_inv : ∀ a, a ≠ 0 → F.mul a (F.inv a) = F.one

/-- Which Field the instance was built with (R7, R8): the default instance of R86, polynomial basis, with its modulus
`POLY` written as a 17-bit value (open, 92_eei_decisions.md D5), or another capability. -/
inductive FieldBinding where
  | polyBasis (poly : BitVec 17)
  | injected
  deriving DecidableEq, Repr

/-- The parameters of one instance: `NMAX`, `MMAX` (R6) and the Field (R7). -/
structure Params where
  nmax : Nat
  mmax : Nat
  field : FieldBinding
  deriving DecidableEq, Repr

/-- The Field of an instance that was not built with the default one (R7): any functions (log 4). -/
opaque Config.injectedField : FieldOps

/-- The value of `F.inv(0x0000)` in the default instance, for each `POLY` (U1: any value) (log 6). -/
opaque Config.invAtZero : BitVec 17 → Word

/-- What the byte `IN[i]` holds while nothing has written it since the reset numbered `epoch` (R29, U20: any value)
(log 7). First argument `epoch`, second `i`. -/
opaque Config.unwrittenIn : Nat → Nat → Byte

/-- What the entry `SLEN[i]` holds while nothing has written it since the reset numbered `epoch` (R29, U20: any value)
(log 8). First argument `epoch`, second `i`. -/
opaque Config.unwrittenSlen : Nat → Nat → Word

/-- The bounds of R6 on the capacity parameters. -/
abbrev Params.CapacityOk (p : Params) : Prop :=
  1 ≤ p.nmax ∧ p.nmax ≤ 65535 ∧ 1 ≤ p.mmax ∧ p.mmax ≤ 32766 ∧ p.nmax * (2 * p.mmax + 2) ≤ 2 ^ 28

/-- `IN_CAP = OUT_CAP = NMAX * (2*MMAX + 2)` bytes (10_state.md R10). -/
def Params.bufCap (p : Params) : Nat := p.nmax * (2 * p.mmax + 2)

/-- The reference instance of R6, `NMAX = 255`, `MMAX = 128` (DESIGN CHOICE, log 2), with the default Field under the
example modulus `POLY = 0x1100B` of R86 (DESIGN CHOICE, log 3). -/
def Config.reference : Params :=
  ⟨255, 128, .polyBasis 0x1100B⟩

end Sys2Proof
end

