-- ==== Sys2Proof/Machine/Field.lean ====
section
/-! DEFINITION. The default Field instance (40_field_and_random.md R86) and the Field an instance runs with (R7). -/

namespace Sys2Proof.Machine

/-- One iteration of R86's bit-serial multiplier: the accumulator and the 17-bit shifted operand, at bit `i` of `b`. -/
def gfMulStep (poly : BitVec 17) (b : Word) (st : Word × BitVec 17) (i : Nat) : Word × BitVec 17 :=
  let acc := if b.getLsbD i then st.1 ^^^ st.2.setWidth 16 else st.1
  let shifted := st.2 <<< 1
  (acc, if shifted.getLsbD 16 then shifted ^^^ poly else shifted)

/-- `mul(a, b)` of R86: the carry-less product reduced modulo `POLY`. -/
def gfMul (poly : BitVec 17) (a b : Word) : Word :=
  ((List.range 16).foldl (gfMulStep poly b) (0, a.setWidth 17)).1

/-- `a ^ 65534`, as the product of the squarings `a^2, a^4, .., a^32768`. -/
def gfPow65534 (poly : BitVec 17) (a : Word) : Word :=
  ((List.range 15).foldl
    (fun st _ => (gfMul poly st.1 (gfMul poly st.2 st.2), gfMul poly st.2 st.2)) ((1 : Word), a)).1

/-- `inv(a)` of R86, for `a ≠ 0` the `b` with `mul(a, b) = 1`: for an irreducible `POLY` that is `a ^ 65534` (log 5).
`inv(0)` is a free value (U1, log 6). -/
def gfInv (poly : BitVec 17) (a : Word) : Word :=
  if a = 0 then Config.invAtZero poly else gfPow65534 poly a

/-- The default instance of R86 for one modulus. -/
def gfField (poly : BitVec 17) : FieldOps where
  add a b := a ^^^ b
  mul := gfMul poly
  inv := gfInv poly
  one := 0x0001

/-- The Field an instance runs with (R7, R8). -/
def fieldOf (b : FieldBinding) : FieldOps :=
  match b with
  | .polyBasis poly => gfField poly
  | .injected => Config.injectedField

end Sys2Proof.Machine
end

