-- ==== Sys2Proof/Machine/State.lean ====
section
/-! DEFINITION. The state of the block (10_state.md R10, R25, R20), the inputs that stand outside it (its environment), and
the state after reset (R29, 70_reset_and_hazards.md R200). Plain data. -/

namespace Sys2Proof.Machine

/-- `STATUS.STATE` (R17). -/
inductive RunState where
  | idle | busy | done | error
  deriving DecidableEq, Repr

/-- `STATUS.ERR` (R17; 60_exceptions.md R172). Values 6 to 15 are never produced. -/
inductive ErrClass where
  | none | param | rng | format | singular | illegal
  deriving DecidableEq, Repr

/-- The position inside the running command (R20). Only the draws are places where a command can wait, so the position is
the beginning or a draw; the loop indices there are the lengths of XV, COEF and YV. -/
inductive SeqPos where
  /-- No command is running. -/
  | idle
  /-- A command was accepted and has done nothing yet. -/
  | start
  /-- At a draw of the point generator (41_genpt.md R101). -/
  | points
  /-- At a draw of a coefficient (42_wsplit_peval.md R113). -/
  | coeffs
  deriving DecidableEq, Repr

/-- One answer of the random source (40_field_and_random.md R90). -/
inductive Answer where
  | value (v : Word)
  | error
  deriving DecidableEq, Repr

/-- One host access: offset, width in bits, data (20_memory.md R42; log 21). -/
inductive Access where
  | read (offset width : Nat)
  | write (offset width : Nat) (data : Reg)
  deriving DecidableEq, Repr

/-- What happens next (log 9): an input from outside the block, or the sequencer's turn. -/
inductive Turn where
  /-- A host access on the bus (R42). -/
  | access (a : Access)
  /-- The reset input is asserted and released (70_reset_and_hazards.md R200). -/
  | reset
  /-- The random source gets one more answer ready (R90). -/
  | answer (a : Answer)
  /-- The sequencer acts (R5). -/
  | core
  deriving DecidableEq, Repr

/-- The bus's response to a host access (R42). -/
inductive Reply where
  | byte (v : Byte)
  | word (v : Reg)
  | accepted
  | busError
  deriving DecidableEq, Repr

/-- The machine stops with no fault: every descriptor, every access and every answer sequence has one defined outcome
(93_implementation_defined.md section 2). The block's own exceptions are next states (60_exceptions.md R176), a bus error
is a reply (R42), and a hang is a BUSY state that a core turn leaves unchanged (R91). So nothing raises a fault: no member (log 20). -/
inductive Fault
  deriving DecidableEq, Repr

/-- Why the model gives an instruction no meaning. -/
inductive Refusal where
  /-- Raised only by an arm of `exec` for an instruction without a meaning; safe. No arm raises it. -/
  | notModelled (mnemonic : String)
  deriving DecidableEq, Repr

/-- The whole state. -/
structure State where
  /-- The parameters of the instance (00_scope.md R6, R7); no step changes them (log 1). CAP is a view of them (R14). -/
  params : Params
  /-- CFG (R15). -/
  cfg : Reg
  /-- DESC_LO (R12). -/
  descLo : Reg
  /-- DESC_HI (R13). -/
  descHi : Reg
  /-- STATUS.STATE (R17). -/
  state : RunState
  /-- STATUS.ERR (R17). -/
  err : ErrClass
  /-- STATUS.ERRINFO (R17). -/
  errInfo : Byte
  /-- OUT_LEN (R18). -/
  outLen : Reg
  /-- SLEN (R22): the entries written since reset, by index. -/
  slen : List (Nat × Word)
  /-- IN (R23): the bytes written since reset, by index. -/
  inBuf : List Host.Cell
  /-- OUT (R24): the bytes `OUT[0 .. OUT_LEN-1]`. -/
  out : List Byte
  /-- Scratch XV (R25). -/
  xv : List Word
  /-- Scratch SEEN (R25): the candidates accepted, no repeats. -/
  seen : List Word
  /-- Scratch COEF (R25). -/
  coef : List Word
  /-- Scratch SW (R25). -/
  sw : List Word
  /-- Scratch YV (R25): row `j` holds the y-values of word `j`. -/
  yv : List (List Word)
  /-- Scratch MAT (R25), by rows. -/
  mat : List (List Word)
  /-- The command decoded at START (60_exceptions.md R170; log 16). -/
  cmd : Option Decoded
  /-- The sequencer's position (R20). -/
  pos : SeqPos
  /-- The model's own: which reset unwritten IN bytes and SLEN entries date from (log 7). -/
  epoch : Nat
  /-- The model's own: the turns to come (log 9). -/
  agenda : List Turn
  /-- Outside the block (R27): the answers the random source has ready (log 9). -/
  answers : List Answer
  /-- The model's own: the bus's response to the last host access (log 14). -/
  reply : Option Reply
  deriving DecidableEq, Repr

/-- The state after reset of an instance with parameters `p` (R29, R200), the unwritten bytes dating from reset `e`. -/
def State.resetOf (p : Params) (e : Nat) : State where
  params := p
  cfg := 0
  descLo := 0
  descHi := 0
  state := .idle
  err := .none
  errInfo := 0
  outLen := 0
  slen := []
  inBuf := []
  out := []
  xv := []
  seen := []
  coef := []
  sw := []
  yv := []
  mat := []
  cmd := Option.none
  pos := .idle
  epoch := e
  agenda := []
  answers := []
  reply := Option.none

/-- The machine right after reset: the reference instance (log 2, log 3), nothing placed by the environment (log 9, log 15). -/
def State.reset : State := State.resetOf Config.reference 0

end Sys2Proof.Machine
end

