-- ==== Sys2Proof/Machine/Flags.lean ====
section
/-! DEFINITION. The status flags, the only flags of the block (10_state.md R17, R21): their codes, the STATUS word, the error
table (60_exceptions.md R172, R173), the CFG fields (R15), CAP (R14) and the `irq` output (R19). -/

namespace Sys2Proof.Machine

/-- The value of `STATUS.STATE` (R17). -/
def RunState.code : RunState → BitVec 2
  | .idle => 0
  | .busy => 1
  | .done => 2
  | .error => 3

/-- The value of `STATUS.ERR` (R17, R172). -/
def ErrClass.code : ErrClass → BitVec 4
  | .none => 0
  | .param => 1
  | .rng => 2
  | .format => 3
  | .singular => 4
  | .illegal => 5

/-- The errors a command can end with: one constructor per row of R173's table, no other pair is ever produced. -/
inductive Err where
  | tZero | nZero | tGtN | lenZero | lenOdd | capacity
  | rng
  | lenMismatch | lenBad
  | singular
  | opcode | reserved
  deriving DecidableEq, Repr

/-- The class of an error (R173). -/
def Err.cls : Err → ErrClass
  | .tZero => .param
  | .nZero => .param
  | .tGtN => .param
  | .lenZero => .param
  | .lenOdd => .param
  | .capacity => .param
  | .rng => .rng
  | .lenMismatch => .format
  | .lenBad => .format
  | .singular => .singular
  | .opcode => .illegal
  | .reserved => .illegal

/-- The sub-cause of an error (R173). -/
def Err.info : Err → Byte
  | .tZero => 1
  | .nZero => 2
  | .tGtN => 3
  | .lenZero => 4
  | .lenOdd => 5
  | .capacity => 6
  | .rng => 0
  | .lenMismatch => 1
  | .lenBad => 2
  | .singular => 0
  | .opcode => 1
  | .reserved => 2

/-- The error an illegal descriptor raises (R63, R65). -/
def Err.ofIllegal : Illegal → Err
  | .opcode => .opcode
  | .reserved => .reserved

/-- STATUS (R17): STATE in 1:0, ERR in 7:4, ERRINFO in 15:8, reserved bits 0. -/
def State.statusWord (s : State) : Reg :=
  (0 : BitVec 16) ++ s.errInfo ++ s.err.code ++ (0 : BitVec 2) ++ s.state.code

/-- `CFG.BO` (R15): false big-endian, true little-endian. -/
def State.bo (s : State) : Bool := s.cfg.getLsbD 0

/-- `CFG.IE` (R15). -/
def State.ie (s : State) : Bool := s.cfg.getLsbD 1

/-- What a write of `v` leaves in CFG: bits 31:2 are reserved, read 0, writes ignored (R15). -/
def cfgWritten (v : Reg) : Reg := v &&& 0x00000003

/-- CAP (R14): `{MMAX, NMAX}`. -/
def State.capWord (s : State) : Reg := BitVec.ofNat 16 s.params.mmax ++ BitVec.ofNat 16 s.params.nmax

/-- The `irq` output (R19): `CFG.IE and (STATE = DONE or STATE = ERROR)`. -/
def State.irq (s : State) : Bool := s.ie && (s.state = .done || s.state = .error)

end Sys2Proof.Machine
end

