-- ==== Sys2Proof/Machine/Ops.lean ====
section
/-! DEFINITION. The named operations over memory and registers, the draws, and the life cycle of a command: START, successful
completion, error entry and the return from it, reset. -/

namespace Sys2Proof.Machine

/-! ### Sparse memory in canonical form

A list of (index, value) pairs, indices strictly rising. What an unlisted index reads as is no value (`none`): the buffer's
own read turns that into the free value of a byte or entry nothing has written (log 7, log 8). -/

/-- The canonical form: indices strictly rising. (No entry can equal what an unlisted index reads as.) -/
def Memory.wf {α : Type} : List (Nat × α) → Bool
  | [] => true
  | [_] => true
  | (i, _) :: (j, v) :: rest => decide (i < j) && Memory.wf ((j, v) :: rest)

/-- The value listed at index `i`. -/
def Memory.get {α : Type} (i : Nat) : List (Nat × α) → Option α
  | [] => none
  | (j, v) :: rest => if i = j then some v else Memory.get i rest

/-- Write `v` at index `i`, keeping the canonical form. -/
def Memory.put {α : Type} (i : Nat) (v : α) : List (Nat × α) → List (Nat × α)
  | [] => [(i, v)]
  | (j, w) :: rest =>
    if i < j then (i, v) :: (j, w) :: rest
    else if i = j then (i, v) :: rest
    else (j, w) :: Memory.put i v rest

/-- Every listed index is below `bound`. -/
def Memory.within {α : Type} (bound : Nat) (m : List (Nat × α)) : Bool := m.all fun c => decide (c.1 < bound)

/-! ### Reading and writing registers, tables and buffers -/

/-- `NMAX` of this instance (00_scope.md R6). -/
def State.nmax (s : State) : Nat := s.params.nmax

/-- `MMAX` of this instance (R6). -/
def State.mmax (s : State) : Nat := s.params.mmax

/-- The Field of this instance (R7). -/
def State.field (s : State) : FieldOps := fieldOf s.params.field

/-- `DESC = {DESC_HI, DESC_LO}` (10_state.md R13). -/
def State.desc (s : State) : Desc := s.descHi ++ s.descLo

/-- `IN[i]` as a command sees it (R23): the byte written, or the free value of a byte nothing has written (R29, R204). -/
def State.readIn (s : State) (i : Nat) : Byte := (Memory.get i s.inBuf).getD (Config.unwrittenIn s.epoch i)

/-- `IN[i] <- v`. -/
def State.writeIn (s : State) (i : Nat) (v : Byte) : State := { s with inBuf := Memory.put i v s.inBuf }

/-- `SLEN[i]` as a command sees it (R22): the entry written, or the free value of an entry nothing has written (R29). -/
def State.readSlen (s : State) (i : Nat) : Word := (Memory.get i s.slen).getD (Config.unwrittenSlen s.epoch i)

/-- `SLEN[i] <- v`. -/
def State.writeSlen (s : State) (i : Nat) (v : Word) : State := { s with slen := Memory.put i v s.slen }

/-- `OUT[i]` outside BUSY (R24): the byte of the list, or `0x00` at and beyond OUT_LEN. -/
def State.readOut (s : State) (i : Nat) : Byte := if i < s.outLen.toNat then s.out.getD i 0 else 0

/-! ### The life cycle of a command (60_exceptions.md) -/

/-- START, accepted (R170): the previous result and error are discarded, the descriptor is decoded, the sequencer begins. -/
def State.start (s : State) : State :=
  { s with
    state := .busy
    err := .none
    errInfo := 0
    outLen := 0
    out := []
    cmd := some (decode s.desc)
    pos := .start }

/-- Successful completion with output `bytes` (R171): OUT, OUT_LEN and STATE in one update; ERR and ERRINFO are 0 since START. -/
def State.complete (s : State) (bytes : List Byte) : State :=
  { s with
    out := bytes
    outLen := BitVec.ofNat 32 bytes.length
    state := .done
    cmd := Option.none
    pos := .idle }

/-- TAKING AN EXCEPTION: `raise Err(class, info)` (R176). STATUS records the error, OUT is empty; control goes nowhere, the
sequencer idles until the next START. Nothing else changes. -/
def State.raise (s : State) (e : Err) : State :=
  { s with
    state := .error
    err := e.cls
    errInfo := e.info
    outLen := 0
    out := []
    cmd := Option.none
    pos := .idle }

/-- CLEAR, accepted (R178), the return from an exception: in DONE or ERROR back to IDLE with OUT empty; in IDLE nothing. -/
def State.clear (s : State) : State :=
  if s.state = .done ∨ s.state = .error then
    { s with
      state := .idle
      err := .none
      errInfo := 0
      outLen := 0
      out := [] }
  else s

/-- A CTRL write of `v` (10_state.md R16): ignored while BUSY; else bit 0 is START, bit 1 CLEAR, START first. -/
def State.writeCtrl (s : State) (v : Reg) : State :=
  if s.state = .busy then s
  else if v.getLsbD 0 then s.start
  else if v.getLsbD 1 then s.clear
  else s

/-- The reset input (R29; 70_reset_and_hazards.md R200 to R202): every register at its reset value, IN and SLEN arbitrary
again (a new `epoch`), a running command abandoned. The instance's parameters and what stands outside the block, the turns
to come and the random source's answers, stay (log 13). -/
def State.applyReset (s : State) : State :=
  { State.resetOf s.params (s.epoch + 1) with agenda := s.agenda, answers := s.answers }

/-! ### Validation (R175) -/

/-- The first test, in the order written, whose condition holds. -/
def firstError : List (Bool × Err) → Option Err
  | [] => none
  | (bad, e) :: rest => if bad then some e else firstError rest

/-! ### Draws (40_field_and_random.md R90 to R94) -/

/-- How a run of draws ended: what was collected, and the answers the random source still has ready. -/
inductive Drawn (α : Type) where
  /-- Everything wanted was collected. -/
  | ready (got : α) (rest : List Answer)
  /-- A draw was answered with an error, which is consumed (R92). -/
  | failed (got : α) (rest : List Answer)
  /-- The next draw is unanswered (R91). -/
  | waiting (got : α)

/-- Draw until `enough`: one answer at a time, each consumed before the next is requested (R94), `take` saying what a value
adds to what was collected so far. -/
def drawUntil {α : Type} (enough : α → Bool) (take : α → Word → α) : List Answer → α → Drawn α
  | [], got => if enough got then .ready got [] else .waiting got
  | ans :: rest, got =>
    if enough got then .ready got (ans :: rest)
    else
      match ans with
      | .error => .failed got rest
      | .value v => drawUntil enough take rest (take got v)

/-- A phase of a command that draws: done, ended by an error answer, or waiting for an answer. -/
inductive Phase where
  | ready (s : State)
  | failed (s : State)
  | waiting (s : State)

/-- Go on with `next` when the phase is done; `Err(RNG, 0)` at an error answer (R92); stay BUSY while an answer is
outstanding (R91). -/
def Phase.andThen (p : Phase) (next : State → State) : State :=
  match p with
  | .ready s => next s
  | .failed s => s.raise .rng
  | .waiting s => s

end Sys2Proof.Machine
end

