-- ==== Sys2Proof/Machine/Operands.lean ====
section
/-! DEFINITION. Operand forms: words in byte buffers under `CFG.BO` (20_memory.md R44, R45) and the buffer layouts of the six
commands (R47 to R52). -/

namespace Sys2Proof.Machine

/-- `B2W(b0, b1, bo)` (R44): `{b0, b1}` big-endian, `{b1, b0}` little-endian. -/
def b2w (b0 b1 : Byte) (bo : Bool) : Word := if bo then b1 ++ b0 else b0 ++ b1

/-- `W2B(w, bo)` (R45). -/
def w2b (w : Word) (bo : Bool) : List Byte :=
  if bo then [w.extractLsb' 0 8, w.extractLsb' 8 8] else [w.extractLsb' 8 8, w.extractLsb' 0 8]

/-- The bytes of a list of words, each by `W2B` (R45). -/
def wordsToBytes (bo : Bool) (ws : List Word) : List Byte := ws.flatMap fun w => w2b w bo

/-- `ReadWord(IN, addr)` (00_scope.md section 6). -/
def State.readWord (s : State) (addr : Nat) : Word := b2w (s.readIn addr) (s.readIn (addr + 1)) s.bo

/-- `count` words of IN, the `i`-th at `base + stride * i`. -/
def State.readWords (s : State) (base stride count : Nat) : List Word :=
  (List.range count).map fun i => s.readWord (base + stride * i)

/-- Secret words of SPLIT (R47): word `j` at `2*j`. -/
def State.secretWords (s : State) (m : Nat) : List Word := s.readWords 0 2 m

/-- x-coordinates of the `k` shares of COMBINE (R48, R50): share `i` at `i*S`. -/
def State.shareXs (s : State) (k S : Nat) : List Word := s.readWords 0 S k

/-- y-values of word `j` of the `k` shares of COMBINE (R48): at `i*S + 2 + 2*j`. -/
def State.shareYs (s : State) (k S j : Nat) : List Word := s.readWords (2 + 2 * j) S k

/-- x-coordinates of WSPLIT (R52): at `2*i`. -/
def State.pointXs (s : State) (n : Nat) : List Word := s.readWords 0 2 n

/-- x-coordinates of WCOMB (R52): at `4*i`. -/
def State.pairXs (s : State) (k : Nat) : List Word := s.readWords 0 4 k

/-- y-values of WCOMB (R52): at `4*i + 2`. -/
def State.pairYs (s : State) (k : Nat) : List Word := s.readWords 2 4 k

/-- Coefficients of PEVAL (R52): `c_i` at `2*i`. -/
def State.coefWords (s : State) (t : Nat) : List Word := s.readWords 0 2 t

/-- One share record (R48): the x-coordinate, then one y-value per word. -/
def shareBytes (bo : Bool) (x : Word) (ys : List Word) : List Byte := wordsToBytes bo (x :: ys)

/-- Transposition and serialisation of SPLIT (44_split_combine.md R145; R49): share `i` is the record of `xs[i]` and
`yv[j][i]` for `j` ascending; shares back to back. -/
def sharesBytes (bo : Bool) (xs : List Word) (yv : List (List Word)) : List Byte :=
  (List.range xs.length).flatMap fun i => shareBytes bo (xs.getD i 0) (yv.map fun row => row.getD i 0)

end Sys2Proof.Machine
end

