-- ==== Sys2Proof/Machine/Bus.lean ====
section
/-! DEFINITION. Host accesses (20_memory.md R40 to R43, R53, R57). -/

namespace Sys2Proof.Machine

/-- A place of the address map (R41). -/
inductive Place where
  | cap | cfg | descLo | descHi | ctrl | status | outLen
  | slen (i : Nat)
  | inByte (i : Nat)
  | outByte (i : Nat)
  deriving DecidableEq, Repr

/-- The registers of the map (R41), by offset. -/
def regAt (offset : Nat) : Option Place :=
  match offset with
  | 0x00 => some .cap
  | 0x04 => some .cfg
  | 0x08 => some .descLo
  | 0x0C => some .descHi
  | 0x10 => some .ctrl
  | 0x14 => some .status
  | 0x18 => some .outLen
  | _ => none

/-- The length-table slot at an offset (R41): `0x0004_0000 + 4*i`, `i < NMAX`. -/
def slenAt (p : Params) (offset : Nat) : Option Place :=
  if 0x00040000 ≤ offset ∧ (offset - 0x00040000) % 4 = 0 ∧ (offset - 0x00040000) / 4 < p.nmax then
    some (.slen ((offset - 0x00040000) / 4))
  else none

/-- The buffer byte at an offset (R41): `0x1000_0000 + i` for IN, `0x2000_0000 + i` for OUT, `i` below the capacity. -/
def bufferAt (p : Params) (offset : Nat) : Option Place :=
  if 0x10000000 ≤ offset ∧ offset - 0x10000000 < p.bufCap then some (.inByte (offset - 0x10000000))
  else if 0x20000000 ≤ offset ∧ offset - 0x20000000 < p.bufCap then some (.outByte (offset - 0x20000000))
  else none

/-- The place an access reaches (R42): REG and SLEN by 32-bit accesses at their offsets, IN and OUT by 8-bit accesses; any
other width, alignment or offset is refused (none). -/
def placeOf (p : Params) (offset width : Nat) : Option Place :=
  if width = 32 then
    match regAt offset with
    | some r => some r
    | none => slenAt p offset
  else if width = 8 then bufferAt p offset
  else none

/-- What a read of a place returns. While BUSY, IN, OUT and SLEN read as zero (R53); CTRL always does (R16); OUT reads as
zero at and beyond OUT_LEN (R24); an SLEN slot is zero-extended (R43). -/
def State.readPlace (s : State) (p : Place) : Reply :=
  match p with
  | .cap => .word s.capWord
  | .cfg => .word s.cfg
  | .descLo => .word s.descLo
  | .descHi => .word s.descHi
  | .ctrl => .word 0
  | .status => .word s.statusWord
  | .outLen => .word s.outLen
  | .slen i => .word (if s.state = .busy then 0 else (s.readSlen i).setWidth 32)
  | .inByte i => .byte (if s.state = .busy then 0 else s.readIn i)
  | .outByte i => .byte (if s.state = .busy then 0 else s.readOut i)

/-- What a write of `v` to a place does. Writes to read-only places are ignored (R57); while BUSY every write is (R53). An
SLEN slot takes `v[15:0]` (R43); a byte of IN takes the 8-bit datum. -/
def State.writePlace (s : State) (p : Place) (v : Reg) : State :=
  if s.state = .busy then s
  else
    match p with
    | .cap => s
    | .cfg => { s with cfg := cfgWritten v }
    | .descLo => { s with descLo := v }
    | .descHi => { s with descHi := v }
    | .ctrl => s.writeCtrl v
    | .status => s
    | .outLen => s
    | .slen i => s.writeSlen i (v.setWidth 16)
    | .inByte i => s.writeIn i (v.setWidth 8)
    | .outByte _ => s

/-- One host access (R42): accepted with its effect, or refused with a bus error and none. A read has no effect but the
response (R57). -/
def State.hostAccess (s : State) (a : Access) : State :=
  match a with
  | .read offset width =>
    match placeOf s.params offset width with
    | some p => { s with reply := some (s.readPlace p) }
    | none => { s with reply := some .busError }
  | .write offset width v =>
    match placeOf s.params offset width with
    | some p => { s.writePlace p v with reply := some .accepted }
    | none => { s with reply := some .busError }

/-- An input from outside the block: a host access, reset, or one more answer of the random source. -/
def State.envTurn (s : State) (t : Turn) : State :=
  match t with
  | .access a => s.hostAccess a
  | .reset => s.applyReset
  | .answer a => { s with answers := s.answers ++ [a] }
  | .core => s

end Sys2Proof.Machine
end

