-- ==== Sys2Proof/Machine/Points.lean ====
section
/-! DEFINITION. The Distinct-Point Generator and the command GENPT (41_genpt.md). -/

namespace Sys2Proof.Machine

/-- What one candidate adds to the points and the set SEEN (R101): nothing when it is zero or already in SEEN. -/
def takeCandidate (got : List Word × List Word) (v : Word) : List Word × List Word :=
  if v = 0 then got
  else if v ∈ got.2 then got
  else (got.1 ++ [v], v :: got.2)

/-- `GenPoints(n)` (R101) from the points collected so far on: draw until XV holds `n`. `XV[i]` is the `i`-th accepted
candidate. -/
def State.collectPoints (s : State) (n : Nat) : Phase :=
  match drawUntil (fun g => decide (n ≤ g.1.length)) takeCandidate s.answers (s.xv, s.seen) with
  | .ready g rest => .ready { s with xv := g.1, seen := g.2, answers := rest }
  | .failed g rest => .failed { s with xv := g.1, seen := g.2, answers := rest }
  | .waiting g => .waiting { s with xv := g.1, seen := g.2, answers := [], pos := .points }

/-- The beginning of `GenPoints` (R101): SEEN and the points empty. -/
def State.beginPoints (s : State) : State := { s with xv := [], seen := [] }

/-- GENPT's validation (R102). -/
def genptError (p : Params) (n : Nat) : Option Err :=
  firstError [(n = 0, .nZero), (p.nmax < n, .capacity)]

/-- GENPT from its draws on (R102): the points, each by W2B. -/
def State.genptRun (s : State) (n : Nat) : State :=
  (s.collectPoints n).andThen fun s' => s'.complete (wordsToBytes s'.bo s'.xv)

/-- **GENPT** `n` (R102). -/
def execGenpt (n : Nat) (s : State) : Host.Outcome State Fault Refusal :=
  .next <|
    if s.pos = .points then s.genptRun n
    else
      match genptError s.params n with
      | some e => s.raise e
      | none => s.beginPoints.genptRun n

end Sys2Proof.Machine
end

