-- ==== Sys2Proof/Machine/Poly.lean ====
section
/-! DEFINITION. The polynomial evaluator, the Word-Split Engine, and the commands PEVAL and WSPLIT (42_wsplit_peval.md). -/

namespace Sys2Proof.Machine

/-- The loop of R111 over the coefficients left: accumulated result and running power. -/
def polyEvalFrom (F : FieldOps) (x : Word) : List Word → Word → Word → Word
  | [], result, _ => result
  | c :: cs, result, p => polyEvalFrom F x cs (F.add result (F.mul c p)) (F.mul p x)

/-- `PolyEval(c, x)` (R111): running-power accumulation from `0` and `x^0 = F.one`. -/
def polyEval (F : FieldOps) (c : List Word) (x : Word) : Word := polyEvalFrom F x c 0 F.one

/-- PEVAL's validation (R112). -/
def pevalError (p : Params) (t : Nat) : Option Err :=
  firstError [(t = 0, .tZero), (p.nmax < t, .capacity)]

/-- PEVAL after its validation (R112). -/
def State.pevalRun (s : State) (t : Nat) (x : Word) : State :=
  State.complete { s with coef := s.coefWords t } (w2b (polyEval s.field (s.coefWords t) x) s.bo)

/-- **PEVAL** `t, x` (R112). It makes no draw. -/
def execPeval (t : Nat) (x : Word) (s : State) : Host.Outcome State Fault Refusal :=
  .next <|
    match pevalError s.params t with
    | some e => s.raise e
    | none => s.pevalRun t x

/-- `COEF[0] <- s` (R113): the coefficients of a new word. -/
def State.beginWord (s : State) (word : Word) : State := { s with coef := [word] }

/-- The draws of R113: `c_1` first, until COEF holds `t` coefficients; every value is kept. -/
def State.collectCoefs (s : State) (t : Nat) : Phase :=
  match drawUntil (fun c => decide (t ≤ c.length)) (fun c v => c ++ [v]) s.answers s.coef with
  | .ready c rest => .ready { s with coef := c, answers := rest }
  | .failed c rest => .failed { s with coef := c, answers := rest }
  | .waiting c => .waiting { s with coef := c, answers := [], pos := .coeffs }

/-- The y-values of the word in COEF at every point of XV (R113). -/
def State.yValues (s : State) : List Word := s.xv.map (polyEval s.field s.coef)

/-- WSPLIT's validation (R114). -/
def wsplitError (p : Params) (t n : Nat) : Option Err :=
  firstError [(t = 0, .tZero), (n = 0, .nZero), (p.nmax < t ∨ p.nmax < n, .capacity)]

/-- WSPLIT from its draws on (R114). -/
def State.wsplitRun (s : State) (t : Nat) : State :=
  (s.collectCoefs t).andThen fun s' => s'.complete (wordsToBytes s'.bo s'.yValues)

/-- **WSPLIT** `t, n, s` (R114). -/
def execWsplit (t n : Nat) (word : Word) (s : State) : Host.Outcome State Fault Refusal :=
  .next <|
    if s.pos = .coeffs then s.wsplitRun t
    else
      match wsplitError s.params t n with
      | some e => s.raise e
      | none => State.wsplitRun (State.beginWord { s with xv := s.pointXs n } word) t

end Sys2Proof.Machine
end

