-- ==== Sys2Proof/Machine/Solver.lean ====
section
/-! DEFINITION. The Word-Combine Engine, Gaussian elimination, and the command WCOMB (43_wcomb.md). `MAT` is held by rows. -/

namespace Sys2Proof.Machine

/-- A matrix, by rows. -/
abbrev Matrix := List (List Word)

/-- `M[i][c]`. -/
def Matrix.entry (m : Matrix) (i c : Nat) : Word := (m.getD i []).getD c 0

/-- `count` successive powers of `x`, the first being `p` (R126). -/
def powersFrom (F : FieldOps) (x : Word) : Nat → Word → List Word
  | 0, _ => []
  | count + 1, p => p :: powersFrom F x count (F.mul p x)

/-- Build (R126): row `i` is `[x_i^0, .., x_i^(k-1), y_i]`; `x^0` is `F.one` for every `x`. -/
def buildMatrix (F : FieldOps) (xs ys : List Word) : Matrix :=
  List.zipWith (fun x y => powersFrom F x xs.length F.one ++ [y]) xs ys

/-- Rows `r` and `q` exchanged (R127). -/
def Matrix.swapRows (m : Matrix) (r q : Nat) : Matrix := (m.set r (m.getD q [])).set q (m.getD r [])

/-- The pivot choice of R127 for column `r` of `k`: nothing to do when `M[r][r]` is non-zero; else the first row below with a
non-zero entry in that column is swapped in; none if there is no such row. -/
def choosePivot (k r : Nat) (m : Matrix) : Option Matrix :=
  if m.entry r r ≠ 0 then some m
  else ((List.range' (r + 1) (k - (r + 1))).find? fun q => m.entry q r ≠ 0).map fun q => m.swapRows r q

/-- Every entry of a row multiplied by `v` on the right (R128, R130). -/
def scaleRow (F : FieldOps) (v : Word) (row : List Word) : List Word := row.map fun e => F.mul e v

/-- Scaling (R128): the whole pivot row by the inverse of its pivot element. The only call of `F.inv`. -/
def scalePivot (F : FieldOps) (r : Nat) (m : Matrix) : Matrix :=
  m.set r (scaleRow F (F.inv (m.entry r r)) (m.getD r []))

/-- One row `q` below the pivot row (R129): `M[q][c] + f * M[r][c]` with `f = M[q][r]` taken before the row changes. -/
def eliminateRow (F : FieldOps) (r : Nat) (pivotRow row : List Word) : List Word :=
  List.zipWith (fun e p => F.add e (F.mul (row.getD r 0) p)) row pivotRow

/-- Elimination below row `r` (R129), whole rows. Each row depends on itself and the pivot row only. -/
def eliminateBelow (F : FieldOps) (r : Nat) (m : Matrix) : Matrix :=
  m.mapIdx fun q row => if r < q then eliminateRow F r (m.getD r []) row else row

/-- How forward elimination ended. -/
inductive Forward where
  | regular (m : Matrix)
  /-- A pivot column had no non-zero entry at or below the diagonal (R127). -/
  | singular (m : Matrix)

/-- Forward elimination (R127 to R129) over the pivot columns left. -/
def forward (F : FieldOps) (k : Nat) : List Nat → Matrix → Forward
  | [], m => .regular m
  | r :: rs, m =>
    match choosePivot k r m with
    | none => .singular m
    | some m' => forward F k rs (eliminateBelow F r (scalePivot F r m'))

/-- One step of back-substitution into row 0 (R130): row `r` times `M[0][r]`, in place, then added into row 0. -/
def backStep (F : FieldOps) (m : Matrix) (r : Nat) : Matrix :=
  let m' := m.set r (scaleRow F (m.entry 0 r) (m.getD r []))
  m'.set 0 (List.zipWith F.add (m'.getD 0 []) (m'.getD r []))

/-- Back-substitution restricted to row 0 (R130): `r` from 1 to `k-1`. -/
def backSubstitute (F : FieldOps) (k : Nat) (m : Matrix) : Matrix :=
  (List.range' 1 (k - 1)).foldl (backStep F) m

/-- The result of one word-combine: the solved word, or a singular system; with the matrix it leaves. -/
inductive Combined where
  | solved (word : Word) (m : Matrix)
  | singular (m : Matrix)

/-- `WordCombine(k, X, Y)` with `k` the number of x-coordinates (R125 to R130). -/
def wordCombine (F : FieldOps) (xs ys : List Word) : Combined :=
  match forward F xs.length (List.range xs.length) (buildMatrix F xs ys) with
  | .singular m => .singular m
  | .regular m => .solved ((backSubstitute F xs.length m).entry 0 xs.length) (backSubstitute F xs.length m)

/-- WCOMB's validation (R131). -/
def wcombError (p : Params) (k : Nat) : Option Err :=
  firstError [(k = 0, .nZero), (p.nmax < k, .capacity)]

/-- WCOMB after its validation (R131). -/
def State.wcombRun (s : State) (k : Nat) : State :=
  match wordCombine s.field (s.pairXs k) (s.pairYs k) with
  | .solved w m => State.complete { s with xv := s.pairXs k, mat := m } (w2b w s.bo)
  | .singular m => State.raise { s with xv := s.pairXs k, mat := m } .singular

/-- **WCOMB** `k` (R131). It makes no draw. -/
def execWcomb (k : Nat) (s : State) : Host.Outcome State Fault Refusal :=
  .next <|
    match wcombError s.params k with
    | some e => s.raise e
    | none => s.wcombRun k

end Sys2Proof.Machine
end

