-- ==== Sys2Proof/Machine/Dealer.lean ====
section
/-! DEFINITION. The Dealer: the commands SPLIT and COMBINE (44_split_combine.md). -/

namespace Sys2Proof.Machine

/-! ### SPLIT -/

/-- SPLIT's validation, in the order of R141. -/
def splitError (p : Params) (t n len : Nat) : Option Err :=
  firstError
    [ (t = 0, .tZero), (n = 0, .nZero), (n < t, .tGtN), (len = 0, .lenZero), (len % 2 = 1, .lenOdd),
      (p.nmax < n ∨ p.mmax < len / 2, .capacity) ]

/-- The phase `p`, then the phase `next`. -/
def Phase.bind (p : Phase) (next : State → Phase) : Phase :=
  match p with
  | .ready s => next s
  | .failed s => .failed s
  | .waiting s => .waiting s

/-- The word whose coefficients are being drawn (R144): its draws, then its y-values as the next row of YV. -/
def State.splitWord (s : State) (t : Nat) : Phase :=
  (s.collectCoefs t).bind fun s' => .ready { s' with yv := s'.yv ++ [s'.yValues] }

/-- The words left (R144), in ascending order, each with coefficients of its own. -/
def State.splitWords (t : Nat) : List Word → State → Phase
  | [], s => .ready s
  | w :: rest, s => ((s.beginWord w).splitWord t).bind (State.splitWords t rest)

/-- Serialisation and completion (R145, R146). -/
def State.splitFinish (s : State) : State := s.complete (sharesBytes s.bo s.xv s.yv)

/-- SPLIT from the points on (R144 to R146). -/
def State.splitFromPoints (s : State) (t n : Nat) : State :=
  ((s.collectPoints n).bind fun s' => State.splitWords t s'.sw { s' with yv := [] }).andThen State.splitFinish

/-- SPLIT from a coefficient draw of the word being split on: that word, then the words YV has no row for. -/
def State.splitFromCoefs (s : State) (t : Nat) : State :=
  ((s.splitWord t).bind fun s' => State.splitWords t (s'.sw.drop s'.yv.length) s').andThen State.splitFinish

/-- **SPLIT** `t, n, L` (R140): R141 to R146 in order. -/
def execSplit (t n len : Nat) (s : State) : Host.Outcome State Fault Refusal :=
  .next <|
    if s.pos = .points then s.splitFromPoints t n
    else if s.pos = .coeffs then s.splitFromCoefs t
    else
      match splitError s.params t n len with
      | some e => s.raise e
      | none => State.splitFromPoints (State.beginPoints { s with sw := s.secretWords (len / 2) }) t n

/-! ### COMBINE -/

/-- The common share length `S = SLEN[0]` (R151). -/
def State.shareLen (s : State) : Nat := (s.readSlen 0).toNat

/-- The word count `m = (S - 2) / 2` (R151). -/
def State.shareWords (s : State) : Nat := (s.shareLen - 2) / 2

/-- COMBINE's validation, in the order of R151. -/
def State.combineError (s : State) (k : Nat) : Option Err :=
  firstError
    [ (k = 0, .nZero), (s.nmax < k, .capacity),
      ((List.range' 1 (k - 1)).any fun i => s.readSlen i ≠ s.readSlen 0, .lenMismatch),
      (s.shareLen % 2 = 1 ∨ s.shareLen < 4, .lenBad), (s.mmax < s.shareWords, .capacity) ]

/-- Parse (R152): the x-coordinates, and per word the y-values of all shares. No value is checked. -/
def State.parseShares (s : State) (k : Nat) : State :=
  { s with
    xv := s.shareXs k s.shareLen
    yv := (List.range s.shareWords).map fun j => s.shareYs k s.shareLen j
    sw := [] }

/-- Per word-column combine (R153) over the columns left, ascending; then concatenation and completion (R154). -/
def State.combineColumns : List (List Word) → State → State
  | [], s => s.complete (wordsToBytes s.bo s.sw)
  | ys :: rest, s =>
    match wordCombine s.field s.xv ys with
    | .solved w m => State.combineColumns rest { s with sw := s.sw ++ [w], mat := m }
    | .singular m => State.raise { s with mat := m } .singular

/-- COMBINE after its validation (R152 to R154). -/
def State.combineRun (s : State) (k : Nat) : State :=
  State.combineColumns (s.parseShares k).yv (s.parseShares k)

/-- **COMBINE** `k` (R150): R151 to R154 in order. It makes no draw. -/
def execCombine (k : Nat) (s : State) : Host.Outcome State Fault Refusal :=
  .next <|
    match s.combineError k with
    | some e => s.raise e
    | none => s.combineRun k

end Sys2Proof.Machine
end

