-- ==== Sys2Proof/Machine/Dispatch.lean ====
section
/-! DEFINITION. One arm per command. -/

namespace Sys2Proof.Machine

def exec (i : Instr) (s : State) : Host.Outcome State Fault Refusal :=
  match i with
  | .split t n len => Sys2Proof.Machine.execSplit t n len s
  | .combine k => Sys2Proof.Machine.execCombine k s
  | .genpt n => Sys2Proof.Machine.execGenpt n s
  | .wsplit t n word => Sys2Proof.Machine.execWsplit t n word s
  | .wcomb k => Sys2Proof.Machine.execWcomb k s
  | .peval t x => Sys2Proof.Machine.execPeval t x s

end Sys2Proof.Machine
end

