-- ==== Sys2Proof/Machine/Sequencer.lean ====
section
/-! DEFINITION. The sequencer's turn (10_state.md R20; 60_exceptions.md R170, R171; 30_encoding.md R63, R65). -/

namespace Sys2Proof.Machine

/-- Place the descriptor `d` as a host does and START it (R69, R170). -/
def State.launch (s : State) (d : Desc) : State :=
  State.start { s with descLo := d.extractLsb' 0 32, descHi := d.extractLsb' 32 32 }

/-- The sequencer acts. While BUSY it runs the command decoded at START from its position on, to completion or to the next
unanswered draw; an illegal descriptor ends in its error (R63, R65), no operand examined (log 17).
Otherwise it waits for START. -/
def coreTurn (s : State) : Host.Outcome State Fault Refusal :=
  if s.state = .busy then
    match s.cmd with
    | some (.legal i) => exec i s
    | some (.illegal why) => .next (s.raise (Err.ofIllegal why))
    | none => .next s
  else .next s

end Sys2Proof.Machine
end

