-- ==== Sys2Proof/Machine/Step.lean ====
section
/-! DEFINITION. One step: the next turn of the agenda, or the sequencer's own when nothing is on it (log 9, log 11). -/

namespace Sys2Proof.Machine

/-- One step of the machine. -/
def step (s : State) : Host.Outcome State Fault Refusal :=
  match s.agenda with
  | [] => coreTurn s
  | .core :: rest => coreTurn { s with agenda := rest }
  | t :: rest => .next (State.envTurn { s with agenda := rest } t)

/-- `s` with the command of an opcode-table word placed and started, so that the very next step runs it (log 15): the word
in the descriptor registers, START accepted, no other turn before the sequencer's. -/
def State.withFetchWord (s : State) (nbits w : Nat) : State :=
  State.launch { s with agenda := [] } (BitVec.ofNat 64 (w % 2 ^ nbits))

end Sys2Proof.Machine
end

