-- ==== Sys2Proof/Machine/HostSequences.lean ====
section
/-! DEFINITION. The host sequences of 30_encoding.md R68, R69, the pseudo-instructions of the block, as turns for the agenda
(log 19). -/

namespace Sys2Proof.Machine

/-- `wr` of a 32-bit register or SLEN slot at an offset. -/
def wrReg (offset : Nat) (v : Reg) : Turn := .access (.write offset 32 v)

/-- `rd` of a 32-bit register or SLEN slot at an offset. -/
def rdReg (offset : Nat) : Turn := .access (.read offset 32)

/-- The part of `run(desc)` up to START (R69): DESC_LO, DESC_HI, then CTRL with bit 0. -/
def startTurns (d : Desc) : List Turn :=
  [wrReg 0x08 (d.extractLsb' 0 32), wrReg 0x0C (d.extractLsb' 32 32), wrReg 0x10 1]

/-- `polls` rounds of the polling loop of `run(desc)` (R69), the sequencer getting a turn before each read of STATUS. -/
def pollTurns (polls : Nat) : List Turn := (List.replicate polls [Turn.core, rdReg 0x14]).flatten

/-- `read OUT[0 .. len-1]` (R69), OUT_LEN first. -/
def readOutTurns (len : Nat) : List Turn :=
  rdReg 0x18 :: (List.range len).map fun i => .access (.read (0x20000000 + i) 8)

/-- `wr CTRL, 0x2` (R69): CLEAR. -/
def clearTurns : List Turn := [wrReg 0x10 2]

/-- Bytes written to `IN` from index `start` on (R69). -/
def loadInTurns (start : Nat) : List Byte → List Turn
  | [] => []
  | v :: rest => .access (.write (0x10000000 + start) 8 (v.setWidth 32)) :: loadInTurns (start + 1) rest

/-- Share lengths written to SLEN from index `start` on (R69). -/
def loadSlenTurns (start : Nat) : List Nat → List Turn
  | [] => []
  | v :: rest => wrReg (0x00040000 + 4 * start) (BitVec.ofNat 32 v) :: loadSlenTurns (start + 1) rest

/-- `split(t, n, secret)` up to START (R69). -/
def splitTurns (t n : Nat) (secret : List Byte) : List Turn :=
  loadInTurns 0 secret ++ startTurns (encode (.split t n secret.length))

/-- `combine(shares)` up to START (R69): the lengths, the shares back to back, then COMBINE. (Where the lengths differ the
IN writes have no effect on the outcome: the command fails on the lengths alone.) -/
def combineTurns (shares : List (List Byte)) : List Turn :=
  loadSlenTurns 0 (shares.map List.length) ++ loadInTurns 0 shares.flatten ++ startTurns (encode (.combine shares.length))

end Sys2Proof.Machine
end

