-- ==== Sys2Proof/Safety.lean ====
section
/-! DEFINITION. What counts as a safe run, and the vocabulary the statements use: how a command can leave the state, the
invariant of the block, and the mathematics of the spec said without the model's loops. -/

namespace Sys2Proof.Machine

/-! ### How a command leaves the state -/

/-- What no command changes: the instance, the host-written registers and buffers, the environment but for the answers drawn
(10_state.md R22, R23; 60_exceptions.md R171, R176). -/
structure Keeps (s t : State) : Prop where
  params : t.params = s.params
  cfg : t.cfg = s.cfg
  descLo : t.descLo = s.descLo
  descHi : t.descHi = s.descHi
  slen : t.slen = s.slen
  inBuf : t.inBuf = s.inBuf
  epoch : t.epoch = s.epoch
  agenda : t.agenda = s.agenda
  reply : t.reply = s.reply

/-- The command completed with output `bytes` (R171): OUT, OUT_LEN and STATE; ERR and ERRINFO stay as START left them. -/
structure Completed (s t : State) (bytes : List Byte) : Prop where
  state : t.state = .done
  out : t.out = bytes
  outLen : t.outLen = BitVec.ofNat 32 bytes.length
  err : t.err = s.err
  errInfo : t.errInfo = s.errInfo
  cmd : t.cmd = none
  pos : t.pos = .idle
  keeps : Keeps s t

/-- The command ended with an error (R176). -/
structure Raised (s t : State) (e : Err) : Prop where
  state : t.state = .error
  err : t.err = e.cls
  errInfo : t.errInfo = e.info
  outLen : t.outLen = 0
  out : t.out = []
  cmd : t.cmd = none
  pos : t.pos = .idle
  keeps : Keeps s t

/-- The command waits for an answer (40_field_and_random.md R91): nothing the host can see has changed. -/
structure Waits (s t : State) : Prop where
  state : t.state = s.state
  err : t.err = s.err
  errInfo : t.errInfo = s.errInfo
  outLen : t.outLen = s.outLen
  out : t.out = s.out
  cmd : t.cmd = s.cmd
  pos : t.pos = .points ∨ t.pos = .coeffs
  answers : t.answers = []
  keeps : Keeps s t

/-! ### The invariant of the block -/

/-- STATUS (R17, R173): ERR is non-zero exactly in ERROR, ERRINFO is 0 when ERR is, and in ERROR the pair is one of R173's. -/
structure State.StatusOk (s : State) : Prop where
  err_iff : s.err ≠ .none ↔ s.state = .error
  info_zero : s.err = .none → s.errInfo = 0
  pair : s.state = .error → ∃ e : Err, s.err = e.cls ∧ s.errInfo = e.info

/-- OUT and OUT_LEN (R18, R24): OUT_LEN counts the bytes of OUT, at most OUT_CAP, and only DONE shows any. -/
structure State.OutputOk (s : State) : Prop where
  len : s.outLen.toNat = s.out.length
  cap : s.out.length ≤ s.params.bufCap
  empty : s.state ≠ .done → s.out = []

/-- IN and SLEN are in canonical form and inside their sizes (R22, R23). -/
structure State.BuffersOk (s : State) : Prop where
  in_wf : Memory.wf s.inBuf = true
  in_within : Memory.within s.params.bufCap s.inBuf = true
  slen_wf : Memory.wf s.slen = true
  slen_within : Memory.within s.params.nmax s.slen = true

/-- The points collected so far (41_genpt.md R101): distinct, non-zero, SEEN the same set. -/
structure State.PointsOk (s : State) : Prop where
  nodup : s.xv.Nodup
  nonzero : (0 : Word) ∉ s.xv
  seen : ∀ v, v ∈ s.seen ↔ v ∈ s.xv

/-- At a draw of the generator (R101): a GENPT or a SPLIT that passed its validation, with points still missing. -/
def State.AtPoints (s : State) : Prop :=
  s.pos = .points ∧ s.PointsOk ∧
    ((∃ n, s.cmd = some (.legal (.genpt n)) ∧ genptError s.params n = none ∧ s.xv.length < n) ∨
     (∃ t n len, s.cmd = some (.legal (.split t n len)) ∧ splitError s.params t n len = none ∧ s.xv.length < n ∧
        s.sw.length = len / 2))

/-- At a draw of a coefficient (42_wsplit_peval.md R113): a WSPLIT or a SPLIT that passed its validation, with coefficients
still missing; in a SPLIT the points are complete and YV has a row for each word already split. -/
def State.AtCoefs (s : State) : Prop :=
  s.pos = .coeffs ∧
    ((∃ t n w, s.cmd = some (.legal (.wsplit t n w)) ∧ wsplitError s.params t n = none ∧ s.xv.length = n ∧
        s.coef.length < t) ∨
     (∃ t n len, s.cmd = some (.legal (.split t n len)) ∧ splitError s.params t n len = none ∧ s.PointsOk ∧
        s.xv.length = n ∧ s.sw.length = len / 2 ∧ s.yv.length < len / 2 ∧ (∀ row ∈ s.yv, row.length = n) ∧
        s.coef.length < t))

/-- The sequencer (R20, R56; 60_exceptions.md R170): outside BUSY it holds no command; while BUSY the command is the decoding
of the descriptor, at its beginning or at a draw. -/
structure State.SequencerOk (s : State) : Prop where
  rest : s.state ≠ .busy → s.pos = .idle ∧ s.cmd = none
  latched : s.state = .busy → s.cmd = some (decode s.desc)
  place : s.state = .busy → s.pos = .start ∨ s.AtPoints ∨ s.AtCoefs

/-- The invariant of the block. -/
structure State.Inv (s : State) : Prop where
  capacity : s.params.CapacityOk
  cfg_reserved : s.cfg &&& 0xFFFFFFFC = 0
  status : s.StatusOk
  output : s.OutputOk
  buffers : s.BuffersOk
  sequencer : s.SequencerOk

/-! ### The spec's mathematics, without the model's loops -/

/-- The value of the polynomial with coefficients `c_0, c_1, ..` in nested form, `c_0 + x (c_1 + x (..))` (90_conflicts.md C1). -/
def nested (F : FieldOps) (c : List Word) (x : Word) : Word := c.foldr (fun ci acc => F.add ci (F.mul x acc)) 0

/-- What one share too few combines to (44_split_combine.md R158): `c_0 + c_k x_0 x_1 .. x_(k-1)`, with `k` the number of
points `xs`. -/
def shortValue (F : FieldOps) (c xs : List Word) : Word :=
  F.add (c.getD 0 0) (F.mul (c.getD xs.length 0) (xs.foldr F.mul F.one))

/-- The candidates the generator keeps of the values answered (41_genpt.md R101): the non-zero ones, repeats removed. -/
def kept (vs : List Word) : List Word := (vs.filter fun v => decide (v ≠ 0)).eraseDups

/-- The word at an address of a byte list, under a byte order (20_memory.md R44). -/
def wordAt (bs : List Byte) (addr : Nat) (bo : Bool) : Word := b2w (bs.getD addr 0) (bs.getD (addr + 1) 0) bo

/-- The table of 60_exceptions.md R174: the error classes a command can end in. -/
def mayEndIn : Opcode → ErrClass → Bool
  | .split, c => c = .param || c = .rng
  | .combine, c => c = .param || c = .format || c = .singular
  | .genpt, c => c = .param || c = .rng
  | .wsplit, c => c = .param || c = .rng
  | .wcomb, c => c = .param || c = .singular
  | .peval, c => c = .param

/-- The commands that draw (40_field_and_random.md R94). -/
def instrDraws : Instr → Bool
  | .split .. => true
  | .combine _ => false
  | .genpt _ => true
  | .wsplit .. => true
  | .wcomb _ => false
  | .peval .. => false

/-! ### Two runs on the same inputs -/

/-- The scratch a command goes on with at its position (10_state.md R26): nothing at its beginning. -/
def SameScratch (s u : State) : Prop :=
  match s.pos, s.cmd with
  | .points, some (.legal (.genpt _)) => s.xv = u.xv ∧ s.seen = u.seen
  | .points, some (.legal (.split ..)) => s.xv = u.xv ∧ s.seen = u.seen ∧ s.sw = u.sw
  | .coeffs, some (.legal (.wsplit ..)) => s.xv = u.xv ∧ s.coef = u.coef
  | .coeffs, some (.legal (.split ..)) => s.xv = u.xv ∧ s.coef = u.coef ∧ s.sw = u.sw ∧ s.yv = u.yv
  | _, _ => True

/-- How many bytes of IN, from its beginning, the command's rules read (20_memory.md R47, R50, R52). -/
def State.inBytesRead (s : State) : Nat :=
  match s.cmd with
  | some (.legal (.split _ _ len)) => len
  | some (.legal (.combine k)) => k * (s.readSlen 0).toNat
  | some (.legal (.genpt _)) => 0
  | some (.legal (.wsplit _ n _)) => 2 * n
  | some (.legal (.wcomb k)) => 4 * k
  | some (.legal (.peval t _)) => 2 * t
  | _ => 0

/-- How many entries of SLEN, from its beginning, the command's rules read (10_state.md R22). -/
def State.slenRead (s : State) : Nat :=
  match s.cmd with
  | some (.legal (.combine k)) => k
  | _ => 0

/-- Two states alike in the inputs of the running command (00_scope.md R9): the command, `CFG.BO`, the bytes of IN and the
entries of SLEN its rules read, the parameters, the answers; and in what the host can read of the command. -/
structure SameInputs (s u : State) : Prop where
  params : s.params = u.params
  bo : s.bo = u.bo
  readIn : ∀ i < s.inBytesRead, s.readIn i = u.readIn i
  readSlen : ∀ i < s.slenRead, s.readSlen i = u.readSlen i
  answers : s.answers = u.answers
  cmd : s.cmd = u.cmd
  pos : s.pos = u.pos
  state : s.state = u.state
  err : s.err = u.err
  errInfo : s.errInfo = u.errInfo
  outLen : s.outLen = u.outLen
  out : s.out = u.out
  scratch : SameScratch s u

end Sys2Proof.Machine
end

