-- ==== Sys2Proof/Certificates/Slice0/Obligations.lean ====
section
/-! DEFINITION. The statements about the block, for the provers. Rules R<n> are those of spec/. Statements about a command hold
for every instance (every NMAX, MMAX and Field), every content of scratch and every value of the free values. -/

open Sys2Proof Sys2Proof.Machine

/-! ### Encoding -/

/-- R60 to R62, R66: the decoder reads back every instruction a descriptor can hold, with every operand at every value. -/
def Obligations.DecodeOfEncode : Prop :=
  ∀ i : Instr, i.wf = true → decode (encode i) = .legal i

/-- R66 ("names exactly one command with three operands"): a descriptor that names a command is that command's encoding, so no
bit of it is dropped, and its operands fit their fields. -/
def Obligations.EncodeOfDecode : Prop :=
  ∀ (d : Desc) (i : Instr), decode d = .legal i → i.wf = true ∧ encode i = d

/-- R66, R63, R65: a descriptor `d` names a row's command exactly when `d & mask = match`; one whose OP is of the six but which
matches no row is reserved; any other is an illegal opcode. -/
def Obligations.DescriptorMatchesTableRow : Prop :=
  ∀ d : Desc,
    (∀ row ∈ opcodeTable, d &&& row.mask = row.bits ↔ ∃ i, decode d = .legal i ∧ i.opcode = row.op) ∧
    (decode d = .illegal .reserved ↔
      d.op ∈ opcodeTable.map (fun row => row.op.code) ∧ ∀ row ∈ opcodeTable, d &&& row.mask ≠ row.bits) ∧
    (decode d = .illegal .opcode ↔ d.op ∉ opcodeTable.map (fun row => row.op.code))

/-- 95_test_vectors.md V-ENC-1, 5, 8, 9, 11, 13, V-DEC-10, 12, 14: words written out from the encoding. -/
def Obligations.SampleDescriptorsDecode : Prop :=
  decode 0x0004000300030001 = .legal (.split 3 3 4) ∧
  decode 0x0000000300000002 = .legal (.combine 3) ∧
  decode 0x0000000300000010 = .legal (.genpt 3) ∧
  decode 0xb16b000300030011 = .legal (.wsplit 3 3 0xb16b) ∧
  decode 0x0000000300000012 = .legal (.wcomb 3) ∧
  decode 0x0002000000030013 = .legal (.peval 3 0x0002) ∧
  decode 0x0000000000000000 = .illegal .opcode ∧
  decode 0x0004000300020101 = .illegal .reserved ∧
  decode 0x0005000700010013 = .illegal .reserved

/-- R63: 250 values of OP are illegal, `0x00` among them; a START with one ends at once with `Err(ILLEGAL, OPCODE)`, whatever the
operands and buffers hold, and no draw is made. -/
def Obligations.IllegalOpcodeEndsAtOnce : Prop :=
  ((List.range 256).filter fun v =>
    decide (BitVec.ofNat 8 v ∉ ([0x01, 0x02, 0x10, 0x11, 0x12, 0x13] : List Byte))).length = 250 ∧
  ∀ s : State, s.state ≠ .busy → s.desc.op ∉ ([0x01, 0x02, 0x10, 0x11, 0x12, 0x13] : List Byte) →
    ∃ t, coreTurn s.start = .next t ∧ Raised s.start t .opcode ∧ t.statusWord = 0x00000153 ∧ t.answers = s.answers

/-- R65: FLAGS must be zero in every command, and the operands R62 marks must be zero; a START with a legal opcode and any of
them non-zero ends at once with `Err(ILLEGAL, RESERVED)`, whatever the other operands and the buffers hold, and no draw is
made. -/
def Obligations.ReservedFieldEndsAtOnce : Prop :=
  ∀ (s : State) (o : Opcode), s.state ≠ .busy → s.desc.op = o.code →
    (s.desc.flags ≠ 0 ∨ ((o = .combine ∨ o = .genpt ∨ o = .wcomb) ∧ (s.desc.a ≠ 0 ∨ s.desc.c ≠ 0)) ∨
      (o = .peval ∧ s.desc.b ≠ 0)) →
    ∃ t, coreTurn s.start = .next t ∧ Raised s.start t .reserved ∧ t.statusWord = 0x00000253 ∧ t.answers = s.answers

/-! ### The step -/

/-- The model's own (log 9, log 11): a step takes the next turn of the agenda, or the sequencer's when nothing is on it. -/
def Obligations.StepTakesTheNextTurn : Prop :=
  ∀ (s : State) (rest : List Turn),
    (s.agenda = [] → step s = coreTurn s) ∧
    (s.agenda = .core :: rest → step s = coreTurn { s with agenda := rest }) ∧
    (∀ a, s.agenda = .access a :: rest → step s = .next (State.hostAccess { s with agenda := rest } a)) ∧
    (s.agenda = .reset :: rest → step s = .next (State.applyReset { s with agenda := rest })) ∧
    (∀ a, s.agenda = .answer a :: rest → step s = .next { s with agenda := rest, answers := s.answers ++ [a] })

/-- R56, R170, R171: the descriptor is decoded at START, and while BUSY a step of the sequencer runs exactly that instruction,
with nothing around it; so does the step after an opcode-table word is placed (log 15). -/
def Obligations.StepRunsDecodedInstruction : Prop :=
  (∀ (s : State) (i : Instr), decode s.desc = .legal i →
    s.start.cmd = some (.legal i) ∧ coreTurn s.start = exec i s.start) ∧
  (∀ (s : State) (i : Instr), s.state = .busy → s.cmd = some (.legal i) → s.agenda = [] → step s = exec i s) ∧
  (∀ (s : State) (i : Instr) (nbits w : Nat), decodeTableWord nbits w = some i →
    step (s.withFetchWord nbits w) = exec i (s.withFetchWord nbits w))

/-! ### Registers and host accesses -/

/-- R12, R13: DESC_LO and DESC_HI hold the descriptor's fields, are stored as written and read back as written, ignore writes
while BUSY, and reset to zero, an illegal opcode, so that a START before any descriptor write ends in `Err(ILLEGAL, OPCODE)`. -/
def Obligations.DescriptorRegisters : Prop :=
  (∀ s : State,
    s.desc = s.descHi ++ s.descLo ∧
    s.desc.op = s.descLo.extractLsb' 0 8 ∧ s.desc.flags = s.descLo.extractLsb' 8 8 ∧ s.desc.a = s.descLo.extractLsb' 16 16 ∧
    s.desc.b = s.descHi.extractLsb' 0 16 ∧ s.desc.c = s.descHi.extractLsb' 16 16) ∧
  (∀ (s : State) (v : Reg), s.state ≠ .busy →
    s.hostAccess (.write 0x08 32 v) = { s with descLo := v, reply := some .accepted } ∧
    s.hostAccess (.write 0x0C 32 v) = { s with descHi := v, reply := some .accepted } ∧
    ((s.hostAccess (.write 0x08 32 v)).hostAccess (.read 0x08 32)).reply = some (.word v) ∧
    ((s.hostAccess (.write 0x0C 32 v)).hostAccess (.read 0x0C 32)).reply = some (.word v)) ∧
  (∀ (s : State) (v : Reg), s.state = .busy →
    s.hostAccess (.write 0x08 32 v) = { s with reply := some .accepted } ∧
    s.hostAccess (.write 0x0C 32 v) = { s with reply := some .accepted }) ∧
  State.reset.descLo = 0 ∧ State.reset.descHi = 0 ∧
  (∀ s : State, s.applyReset.descLo = 0 ∧ s.applyReset.descHi = 0 ∧ s.applyReset.desc.op = 0x00 ∧
    ∃ t, coreTurn s.applyReset.start = .next t ∧ Raised s.applyReset.start t .opcode)

/-- R14: CAP reads the instance's `NMAX` in bits 15:0 and `MMAX` in bits 31:16, writes to it are ignored, and no step, reset
included, changes it. -/
def Obligations.CapIsAConstantOfTheInstance : Prop :=
  (∀ s : State, s.params.CapacityOk →
    (s.capWord.extractLsb' 0 16).toNat = s.params.nmax ∧ (s.capWord.extractLsb' 16 16).toNat = s.params.mmax) ∧
  (∀ (s : State) (v : Reg), s.hostAccess (.read 0x00 32) = { s with reply := some (.word s.capWord) } ∧
    s.hostAccess (.write 0x00 32 v) = { s with reply := some .accepted }) ∧
  (∀ s t : State, step s = .next t → t.params = s.params ∧ t.capWord = s.capWord)

/-- R15 (the table): CFG keeps BO (bit 0) and IE (bit 1) of what is written and reads 0 in bits 31:2; a write while BUSY is
ignored; reset 0. -/
def Obligations.CfgKeepsByteOrderAndInterruptEnable : Prop :=
  (∀ (s : State) (v : Reg), s.state ≠ .busy →
    let t := s.hostAccess (.write 0x04 32 v)
    t = { s with cfg := t.cfg, reply := some .accepted } ∧ t.bo = v.getLsbD 0 ∧ t.ie = v.getLsbD 1 ∧
    (∀ j, 2 ≤ j → t.cfg.getLsbD j = false) ∧ (t.hostAccess (.read 0x04 32)).reply = some (.word (v &&& 0x00000003))) ∧
  (∀ (s : State) (v : Reg), s.state = .busy → s.hostAccess (.write 0x04 32 v) = { s with reply := some .accepted }) ∧
  (∀ s : State, s.applyReset.cfg = 0 ∧ s.applyReset.bo = false ∧ s.applyReset.ie = false)

/-- R16: CTRL reads 0; a write of `v` does nothing while BUSY, else START if `v[0] = 1`, else CLEAR if `v[1] = 1`, else nothing;
bits 31:2 are ignored and CTRL holds no state. -/
def Obligations.CtrlWriteStartsOrClears : Prop :=
  ∀ (s : State) (v : Reg),
    s.hostAccess (.read 0x10 32) = { s with reply := some (.word 0) } ∧
    (s.state = .busy → s.hostAccess (.write 0x10 32 v) = { s with reply := some .accepted }) ∧
    (s.state ≠ .busy → v.getLsbD 0 = true →
      s.hostAccess (.write 0x10 32 v) = { s.start with reply := some .accepted }) ∧
    (s.state ≠ .busy → v.getLsbD 0 = false → v.getLsbD 1 = true →
      s.hostAccess (.write 0x10 32 v) = { s.clear with reply := some .accepted }) ∧
    (s.state ≠ .busy → v.getLsbD 0 = false → v.getLsbD 1 = false →
      s.hostAccess (.write 0x10 32 v) = { s with reply := some .accepted })

/-- R170: START, accepted in IDLE, DONE or ERROR, sets BUSY with ERR, ERRINFO and OUT_LEN zero and OUT empty, and decodes the
descriptor; `irq` falls; nothing else the host can see changes; a START while BUSY is ignored. -/
def Obligations.StartEffect : Prop :=
  ∀ (s : State) (v : Reg), v.getLsbD 0 = true →
    (s.state = .idle ∨ s.state = .done ∨ s.state = .error →
      let t := s.hostAccess (.write 0x10 32 v)
      t.state = .busy ∧ t.err = .none ∧ t.errInfo = 0 ∧ t.statusWord = 0x00000001 ∧ t.outLen = 0 ∧ t.out = [] ∧
      t.cmd = some (decode (s.descHi ++ s.descLo)) ∧ t.pos = .start ∧ t.irq = false ∧
      t.params = s.params ∧ t.cfg = s.cfg ∧ t.descLo = s.descLo ∧ t.descHi = s.descHi ∧
      (∀ i, t.readIn i = s.readIn i) ∧ (∀ i, t.readSlen i = s.readSlen i) ∧ t.answers = s.answers) ∧
    (s.state = .busy → s.hostAccess (.write 0x10 32 v) = { s with reply := some .accepted })

/-- R178: CLEAR, accepted in DONE or ERROR, returns to IDLE with ERR, ERRINFO and OUT_LEN zero, so that OUT reads as zeros; `irq`
falls; IN, SLEN, DESC and CFG are not changed; in IDLE it changes nothing; while BUSY it is ignored. -/
def Obligations.ClearEffect : Prop :=
  ∀ (s : State) (v : Reg), v.getLsbD 0 = false → v.getLsbD 1 = true →
    (s.state = .done ∨ s.state = .error →
      let t := s.hostAccess (.write 0x10 32 v)
      t.state = .idle ∧ t.err = .none ∧ t.errInfo = 0 ∧ t.outLen = 0 ∧ (∀ i, t.readOut i = 0) ∧ t.irq = false ∧
      (∀ i, t.readIn i = s.readIn i) ∧ (∀ i, t.readSlen i = s.readSlen i) ∧ t.desc = s.desc ∧ t.cfg = s.cfg ∧
      t.params = s.params) ∧
    (s.state = .idle ∨ s.state = .busy → s.hostAccess (.write 0x10 32 v) = { s with reply := some .accepted })

/-- R42: which accesses are accepted, said by offset and width; any other gets a bus error, changes no state of the block and
returns no data. Every access is one step of the block. -/
def Obligations.RefusedAccessChangesNothing : Prop :=
  ∀ (s : State) (offset width : Nat), s.params.CapacityOk →
    let mapped :=
      (width = 32 ∧ offset % 4 = 0 ∧ (offset ≤ 0x18 ∨ (0x40000 ≤ offset ∧ offset < 0x40000 + 4 * s.params.nmax))) ∨
      (width = 8 ∧ ((0x10000000 ≤ offset ∧ offset < 0x10000000 + s.params.bufCap) ∨
        (0x20000000 ≤ offset ∧ offset < 0x20000000 + s.params.bufCap)))
    (mapped → (∀ v, (s.hostAccess (.write offset width v)).reply = some .accepted) ∧
      (∃ r, s.hostAccess (.read offset width) = { s with reply := some r } ∧ r ≠ .busError ∧ r ≠ .accepted)) ∧
    (¬ mapped → (∀ v, s.hostAccess (.write offset width v) = { s with reply := some .busError }) ∧
      s.hostAccess (.read offset width) = { s with reply := some .busError })

/-- R43 (first sentence): a write of `v` to the slot of `SLEN[i]` keeps `v[15:0]`, a read returns it zero-extended; no other
entry, no byte of IN and no register changes. -/
def Obligations.SlenSlotReadWrite : Prop :=
  ∀ (s : State) (i : Nat) (v : Reg), s.state ≠ .busy → i < s.params.nmax →
    let t := s.hostAccess (.write (0x40000 + 4 * i) 32 v)
    t.readSlen i = v.setWidth 16 ∧ (∀ j, j ≠ i → t.readSlen j = s.readSlen j) ∧
    (t.hostAccess (.read (0x40000 + 4 * i) 32)).reply = some (.word (v &&& 0x0000FFFF)) ∧
    t = { s with slen := t.slen, reply := some .accepted }

/-- R23, R42: a byte written to IN reads back, every other byte of IN is unchanged, and so is all else. -/
def Obligations.InByteReadAfterWrite : Prop :=
  ∀ (s : State) (i : Nat) (v : Reg), s.state ≠ .busy → i < s.params.bufCap →
    let t := s.hostAccess (.write (0x10000000 + i) 8 v)
    t.readIn i = v.setWidth 8 ∧ (∀ j, j ≠ i → t.readIn j = s.readIn j) ∧
    (∀ j, j < s.params.bufCap → (t.hostAccess (.read (0x10000000 + j) 8)).reply = some (.byte (t.readIn j))) ∧
    t = { s with inBuf := t.inBuf, reply := some .accepted }

/-- R24, R57, R18: a host read of `OUT[i]` returns the byte below OUT_LEN and `0x00` at and beyond it, and `0x00` while BUSY;
host writes to OUT are ignored. A read of OUT_LEN returns it, in every state. -/
def Obligations.OutReadsWithinOutLen : Prop :=
  ∀ (s : State) (i : Nat) (v : Reg), s.params.CapacityOk → i < s.params.bufCap →
    (s.state = .busy → (s.hostAccess (.read (0x20000000 + i) 8)).reply = some (.byte 0)) ∧
    (s.state ≠ .busy → s.outLen.toNat ≤ i → (s.hostAccess (.read (0x20000000 + i) 8)).reply = some (.byte 0)) ∧
    (s.state ≠ .busy → i < s.outLen.toNat →
      (s.hostAccess (.read (0x20000000 + i) 8)).reply = some (.byte (s.out.getD i 0))) ∧
    s.hostAccess (.write (0x20000000 + i) 8 v) = { s with reply := some .accepted } ∧
    s.hostAccess (.read 0x18 32) = { s with reply := some (.word s.outLen) }

/-- R53: while BUSY every host write is accepted and has no effect; IN and OUT read `0x00`, SLEN reads zero; the other registers
return their values, `STATUS.STATE = BUSY` and `OUT_LEN = 0`. -/
def Obligations.BusyLocksTheHostOut : Prop :=
  ∀ s : State, s.Inv → s.state = .busy →
    (∀ offset width v, s.hostAccess (.write offset width v) =
      { s with reply := (s.hostAccess (.write offset width v)).reply }) ∧
    (∀ offset v, offset ∈ [0x04, 0x08, 0x0C, 0x10] → (s.hostAccess (.write offset 32 v)).reply = some .accepted) ∧
    (∀ i < s.params.bufCap, ∀ v, (s.hostAccess (.write (0x10000000 + i) 8 v)).reply = some .accepted ∧
      (s.hostAccess (.read (0x10000000 + i) 8)).reply = some (.byte 0) ∧
      (s.hostAccess (.read (0x20000000 + i) 8)).reply = some (.byte 0)) ∧
    (∀ i < s.params.nmax, ∀ v, (s.hostAccess (.write (0x40000 + 4 * i) 32 v)).reply = some .accepted ∧
      (s.hostAccess (.read (0x40000 + 4 * i) 32)).reply = some (.word 0)) ∧
    (s.hostAccess (.read 0x00 32)).reply = some (.word s.capWord) ∧
    (s.hostAccess (.read 0x04 32)).reply = some (.word s.cfg) ∧
    (s.hostAccess (.read 0x08 32)).reply = some (.word s.descLo) ∧
    (s.hostAccess (.read 0x0C 32)).reply = some (.word s.descHi) ∧
    (s.hostAccess (.read 0x14 32)).reply = some (.word 0x00000001) ∧
    (s.hostAccess (.read 0x18 32)).reply = some (.word 0)

/-- R57: no read has a side effect, and reading again returns the same until a write, a command's completion or a reset; writes
to CAP, STATUS, OUT_LEN, OUT and to reserved bits are ignored without error; only writes to CTRL do more than store a value. -/
def Obligations.ReadsHaveNoSideEffect : Prop :=
  (∀ (s : State) (offset width : Nat),
    s.hostAccess (.read offset width) = { s with reply := (s.hostAccess (.read offset width)).reply }) ∧
  (∀ (s t : State) (offset width : Nat), step s = .next t → t.state = s.state →
    (∀ o w v rest, s.agenda ≠ .access (.write o w v) :: rest) → (∀ rest, s.agenda ≠ .reset :: rest) →
    (t.hostAccess (.read offset width)).reply = (s.hostAccess (.read offset width)).reply) ∧
  (∀ (s : State) (v : Reg), s.params.CapacityOk →
    (∀ offset ∈ [0x00, 0x14, 0x18], s.hostAccess (.write offset 32 v) = { s with reply := some .accepted }) ∧
    (∀ i < s.params.bufCap, s.hostAccess (.write (0x20000000 + i) 8 v) = { s with reply := some .accepted }) ∧
    s.hostAccess (.write 0x04 32 v) = s.hostAccess (.write 0x04 32 (v &&& 0x00000003)) ∧
    s.hostAccess (.write 0x10 32 v) = s.hostAccess (.write 0x10 32 (v &&& 0x00000003))) ∧
  (∀ (s : State) (offset width : Nat) (v : Reg), offset ≠ 0x10 →
    let t := s.hostAccess (.write offset width v)
    t = { s with cfg := t.cfg, descLo := t.descLo, descHi := t.descHi, slen := t.slen, inBuf := t.inBuf, reply := t.reply })

/-- R19: `irq = CFG.IE and (STATE = DONE or STATE = ERROR)`; it falls when the host writes CLEAR or START or clears `CFG.IE`. -/
def Obligations.IrqLevel : Prop :=
  (∀ s : State, s.irq = true ↔ s.cfg.getLsbD 1 = true ∧ (s.state = .done ∨ s.state = .error)) ∧
  (∀ (s : State) (v : Reg), s.irq = true →
    (v.getLsbD 0 = true ∨ v.getLsbD 1 = true → (s.hostAccess (.write 0x10 32 v)).irq = false) ∧
    (v.getLsbD 1 = false → (s.hostAccess (.write 0x04 32 v)).irq = false))

/-- R17, R172, R173 (the tables): STATE in bits 1:0, ERR in 7:4, ERRINFO in 15:8, the rest 0; the value of each state and class;
the STATUS word that each error leaves and that a completion leaves; a write is ignored. -/
def Obligations.StatusWordFields : Prop :=
  (∀ (s : State) (v : Reg),
    s.statusWord.extractLsb' 0 2 = s.state.code ∧ s.statusWord.extractLsb' 2 2 = 0 ∧
    s.statusWord.extractLsb' 4 4 = s.err.code ∧ s.statusWord.extractLsb' 8 8 = s.errInfo ∧
    s.statusWord.extractLsb' 16 16 = 0 ∧
    s.hostAccess (.read 0x14 32) = { s with reply := some (.word s.statusWord) } ∧
    s.hostAccess (.write 0x14 32 v) = { s with reply := some .accepted }) ∧
  [RunState.idle, .busy, .done, .error].map RunState.code = [0, 1, 2, 3] ∧
  [ErrClass.none, .param, .rng, .format, .singular, .illegal].map ErrClass.code = [0, 1, 2, 3, 4, 5] ∧
  (∀ (s t : State) (e : Err), Raised s t e → t.statusWord =
    match e with
    | .tZero => 0x00000113
    | .nZero => 0x00000213
    | .tGtN => 0x00000313
    | .lenZero => 0x00000413
    | .lenOdd => 0x00000513
    | .capacity => 0x00000613
    | .rng => 0x00000023
    | .lenMismatch => 0x00000133
    | .lenBad => 0x00000233
    | .singular => 0x00000043
    | .opcode => 0x00000153
    | .reserved => 0x00000253) ∧
  (∀ (s t : State) (bytes : List Byte), s.err = .none → s.errInfo = 0 → Completed s t bytes → t.statusWord = 0x00000002)

/-- R69: the turns of `split(t, n, secret)` bring a block that is not BUSY to the START of that SPLIT, with the secret in IN, the
rest of IN, SLEN and CFG as they were. -/
def Obligations.SplitSequenceStartsSplit : Prop :=
  ∀ (s : State) (t n : Nat) (secret : List Byte) (rest : List Turn), s.state ≠ .busy →
    secret.length ≤ s.params.bufCap → secret.length < 65536 → t < 65536 → n < 65536 →
    ∃ u, Host.Core.run Sys2Proof.core (splitTurns t n secret).length { s with agenda := splitTurns t n secret ++ rest } = .next u ∧
      u.state = .busy ∧ u.pos = .start ∧ u.cmd = some (.legal (.split t n secret.length)) ∧ u.agenda = rest ∧
      (∀ i < secret.length, u.readIn i = secret.getD i 0) ∧ (∀ i, secret.length ≤ i → u.readIn i = s.readIn i) ∧
      (∀ i, u.readSlen i = s.readSlen i) ∧ u.cfg = s.cfg ∧ u.params = s.params ∧ u.answers = s.answers

/-! ### Reset -/

/-- R29, R200, R202: what reset leaves, in every instance, from every state, also while BUSY: the command is abandoned, and the
sequencer, given turns, changes nothing. Every byte of IN and entry of SLEN is a free value (log 7, log 8). -/
def Obligations.ResetLeavesTheResetState : Prop :=
  ∀ s : State, let t := s.applyReset
    t.cfg = 0 ∧ t.descLo = 0 ∧ t.descHi = 0 ∧ t.state = .idle ∧ t.err = .none ∧ t.errInfo = 0 ∧ t.statusWord = 0 ∧
    t.outLen = 0 ∧ t.out = [] ∧ (∀ i, t.readOut i = 0) ∧ t.irq = false ∧ t.params = s.params ∧
    (∀ i, t.readIn i = Config.unwrittenIn (s.epoch + 1) i) ∧ (∀ i, t.readSlen i = Config.unwrittenSlen (s.epoch + 1) i) ∧
    t.slen = [] ∧ t.inBuf = [] ∧ t.cmd = none ∧ coreTurn t = .next t

/-! ### The invariant and the state machine -/

/-- The invariant holds in the reset state of every instance (R29, R17, R18, R6), State.reset, the reference instance's (log 2,
log 3), among them. -/
def Obligations.InvariantAtReset : Prop :=
  (∀ (p : Params) (e : Nat), p.CapacityOk → (State.resetOf p e).Inv) ∧ State.reset.Inv

/-- R17, R18, R22 to R24, R20, R56: every step keeps the invariant: ERR is set exactly in ERROR and the pair is one of R173's,
OUT_LEN counts OUT's bytes and is at most OUT_CAP, only DONE shows output, IN and SLEN stay in canonical form inside their
sizes, and while BUSY the command is the decoding of the descriptor, at its beginning or at a draw. -/
def Obligations.StepKeepsInvariant : Prop :=
  ∀ s t : State, s.Inv → step s = .next t → t.Inv

/-- R30: the only ways STATUS.STATE moves. -/
def Obligations.StateMachineMoves : Prop :=
  ∀ s t : State, step s = .next t →
    t.state = s.state ∨
    (s.state ≠ .busy ∧ t.state = .busy ∧ ∃ v rest, s.agenda = .access (.write 0x10 32 v) :: rest ∧ v.getLsbD 0 = true) ∨
    (s.state = .busy ∧ (t.state = .done ∨ t.state = .error) ∧ (s.agenda = [] ∨ ∃ rest, s.agenda = .core :: rest)) ∨
    ((s.state = .done ∨ s.state = .error) ∧ t.state = .idle ∧
      ∃ v rest, s.agenda = .access (.write 0x10 32 v) :: rest ∧ v.getLsbD 0 = false ∧ v.getLsbD 1 = true) ∨
    (t.state = .idle ∧ ∃ rest, s.agenda = .reset :: rest)

/-! ### The life cycle of a command -/

/-- R171, R176, R91, R94 and the frame of all six commands: every command answers a next state, in which it has completed, or
ended with an error, or, if it is one that draws, waits for an answer; CFG, DESC, every byte of IN and every entry of SLEN are
unchanged; the answers it consumes are the first ones, none for COMBINE, WCOMB and PEVAL. -/
def Obligations.CommandEndsInOneOfThreeWays : Prop :=
  ∀ (i : Instr) (s : State), ∃ t, exec i s = .next t ∧
    ((∃ bytes, Completed s t bytes) ∨ (∃ e, Raised s t e) ∨ (instrDraws i = true ∧ Waits s t)) ∧
    Keeps s t ∧ (∀ a, t.readIn a = s.readIn a) ∧ (∀ a, t.readSlen a = s.readSlen a) ∧
    (∃ used, s.answers = used ++ t.answers) ∧ (instrDraws i = false → t.answers = s.answers)

/-- R25 (the column "written by"): the scratch each command leaves alone. That scratch a command does not write still holds its
old content afterwards is the model's choice (log 12): R26 leaves the content open. -/
def Obligations.ScratchFrame : Prop :=
  (∀ k s t, exec (.combine k) s = .next t → t.seen = s.seen ∧ t.coef = s.coef) ∧
  (∀ n s t, exec (.genpt n) s = .next t → t.coef = s.coef ∧ t.sw = s.sw ∧ t.yv = s.yv ∧ t.mat = s.mat) ∧
  (∀ t' n w s t, exec (.wsplit t' n w) s = .next t → t.seen = s.seen ∧ t.sw = s.sw ∧ t.yv = s.yv ∧ t.mat = s.mat) ∧
  (∀ k s t, exec (.wcomb k) s = .next t → t.seen = s.seen ∧ t.coef = s.coef ∧ t.sw = s.sw ∧ t.yv = s.yv) ∧
  (∀ t' x s t, exec (.peval t' x) s = .next t →
    t.xv = s.xv ∧ t.seen = s.seen ∧ t.sw = s.sw ∧ t.yv = s.yv ∧ t.mat = s.mat) ∧
  (∀ t' n len s t, exec (.split t' n len) s = .next t → t.mat = s.mat)

/-- The model's choice (log 12; R26 leaves scratch after an error open): an error of validation or of the descriptor leaves all
scratch as it was, and a COMBINE that ends in SINGULAR has recovered no word, the error being raised at column 0. -/
def Obligations.EarlyErrorsLeaveScratch : Prop :=
  (∀ s t : State, s.state = .busy → coreTurn s = .next t → t.state = .error →
    t.err = .param ∨ t.err = .format ∨ t.err = .illegal →
    t.xv = s.xv ∧ t.seen = s.seen ∧ t.coef = s.coef ∧ t.sw = s.sw ∧ t.yv = s.yv ∧ t.mat = s.mat) ∧
  (∀ (k : Nat) (s t : State), s.field.Lawful → s.state = .busy → exec (.combine k) s = .next t → t.err = .singular →
    t.state = .error → t.sw = [])

/-- R176, R177: an error ends the command with STATE, ERR and ERRINFO written, OUT_LEN zero and OUT empty, `irq` up if
`CFG.IE = 1`; nothing else the host can see changes, and the sequencer idles. The answers consumed are none, but for RNG those
up to and including the error answer. -/
def Obligations.ErrorEntry : Prop :=
  ∀ s t : State, s.state = .busy → coreTurn s = .next t → t.state = .error →
    (∃ e : Err, Raised s t e ∧ t.irq = s.ie ∧ (∀ a, t.readIn a = s.readIn a) ∧ (∀ a, t.readSlen a = s.readSlen a) ∧
      t.cfg = s.cfg ∧ t.desc = s.desc ∧ coreTurn t = .next t) ∧
    (t.err ≠ .rng → t.answers = s.answers) ∧
    (t.err = .rng → ∃ vs : List Word, s.answers = vs.map .value ++ .error :: t.answers)

/-- R174 (the table, both its yes and its no entries): a command can end in exactly these classes. -/
def Obligations.ErrorClassesByCommand : Prop :=
  ∀ (o : Opcode) (c : ErrClass),
    (∃ (i : Instr) (s t : State), i.opcode = o ∧ s.state = .busy ∧ exec i s = .next t ∧ t.state = .error ∧ t.err = c) ↔
      mayEndIn o c = true

/-- R91: while a draw is unanswered the sequencer makes no progress and no host access ends the wait, or changes what the command
goes on with; reset ends it. -/
def Obligations.UnansweredDrawStaysBusy : Prop :=
  ∀ s : State, s.Inv → s.state = .busy → s.pos ≠ .start → s.answers = [] →
    coreTurn s = .next s ∧
    (∀ a : Access, s.hostAccess a = { s with reply := (s.hostAccess a).reply }) ∧
    s.applyReset.state = .idle

/-- R94, R171, R20: answers that come one after another are as good as answers that are ready: a command that waits goes on with
later answers exactly as it would have run with them in the first place. -/
def Obligations.AnswersMayComeInPieces : Prop :=
  ∀ (i : Instr) (s t : State) (later : List Answer), exec i s = .next t → Waits s t →
    exec i { t with answers := later } = exec i { s with answers := s.answers ++ later }

/-- R92, R104, R118, R147: the first error answer, at any draw, ends the command with `Err(RNG, 0)`, no further answer is
consumed, and nothing is output. -/
def Obligations.FirstErrorAnswerEndsTheCommand : Prop :=
  (∀ (n : Nat) (s : State) (vs : List Word) (rest : List Answer), s.pos = .start → 1 ≤ n → n ≤ s.params.nmax →
    s.answers = vs.map .value ++ .error :: rest → (kept vs).length < n →
    ∃ t, exec (.genpt n) s = .next t ∧ Raised s t .rng ∧ t.answers = rest) ∧
  (∀ (t' n : Nat) (w : Word) (s : State) (vs : List Word) (rest : List Answer), s.pos = .start → 1 ≤ t' → 1 ≤ n →
    t' ≤ s.params.nmax → n ≤ s.params.nmax → s.answers = vs.map .value ++ .error :: rest → vs.length < t' - 1 →
    ∃ t, exec (.wsplit t' n w) s = .next t ∧ Raised s t .rng ∧ t.answers = rest) ∧
  (∀ (t' n len : Nat) (s : State) (vs : List Word) (rest : List Answer), s.pos = .start →
    1 ≤ t' → t' ≤ n → 1 ≤ len → len % 2 = 0 → n ≤ s.params.nmax → len / 2 ≤ s.params.mmax →
    s.answers = vs.map .value ++ .error :: rest → (kept vs).length < n →
    ∃ t, exec (.split t' n len) s = .next t ∧ Raised s t .rng ∧ t.answers = rest) ∧
  (∀ (t' n len : Nat) (s : State) (vs cs : List Word) (rest : List Answer), s.pos = .start →
    1 ≤ t' → t' ≤ n → 1 ≤ len → len % 2 = 0 → n ≤ s.params.nmax → len / 2 ≤ s.params.mmax →
    s.answers = vs.map .value ++ cs.map .value ++ .error :: rest → (kept vs).length = n → (kept vs.dropLast).length < n →
    cs.length < len / 2 * (t' - 1) →
    ∃ t, exec (.split t' n len) s = .next t ∧ Raised s t .rng ∧ t.answers = rest)

/-- R9: the outcome of a command depends on its inputs alone: two blocks alike in them, whatever their scratch, the rest of IN
and SLEN and all else hold, stay alike over a turn of the sequencer, in STATUS, OUT_LEN, OUT and the answers consumed. -/
def Obligations.OutcomeDependsOnInputsAlone : Prop :=
  ∀ s u t v : State, SameInputs s u → coreTurn s = .next t → coreTurn u = .next v → SameInputs t v

/-! ### Byte order and Field -/

/-- R44, R45: `W2B` and `B2W` are inverse to each other under each order, and the two orders differ by the exchange of the
bytes. -/
def Obligations.WordBytesRoundTrip : Prop :=
  (∀ (w : Word) (bo : Bool), ∃ b0 b1, w2b w bo = [b0, b1] ∧ b2w b0 b1 bo = w) ∧
  (∀ (b0 b1 : Byte) (bo : Bool), w2b (b2w b0 b1 bo) bo = [b0, b1]) ∧
  (∀ b0 b1 : Byte, (b2w b0 b1 false).toNat = b0.toNat * 256 + b1.toNat ∧ b2w b0 b1 true = b2w b1 b0 false) ∧
  (∀ w : Word, w2b w false = [w.extractLsb' 8 8, w.extractLsb' 0 8] ∧ w2b w true = [w.extractLsb' 0 8, w.extractLsb' 8 8])

/-- R86: in the default instance `mul(a, b)` is the product of the two polynomials over GF(2) reduced modulo `POLY`, bit `i` of a
word being the coefficient of `z^i`. -/
def Obligations.DefaultProductIsPolynomialProduct : Prop :=
  ∀ (poly : BitVec 17) (a b : Word), poly.getLsbD 16 = true →
    let asPoly (n : Nat) (bit : Nat → Bool) : Polynomial (ZMod 2) :=
      ∑ i ∈ Finset.range n, if bit i then (Polynomial.X : Polynomial (ZMod 2)) ^ i else 0
    ∃ q, asPoly 16 a.getLsbD * asPoly 16 b.getLsbD = q * asPoly 17 poly.getLsbD + asPoly 16 ((gfField poly).mul a b).getLsbD

/-- R86, R82 to R85: the default instance obeys all the laws for every `POLY` of degree 16 modulo which no two non-zero elements
have product zero (an irreducible `POLY`). That `inv` is `a^65534` is the model's reading (log 5). -/
def Obligations.DefaultFieldIsLawful : Prop :=
  ∀ poly : BitVec 17, poly.getLsbD 16 = true → (∀ a b, (gfField poly).mul a b = 0 → a = 0 ∨ b = 0) → (gfField poly).Lawful

/-! ### GENPT -/

/-- R102, R112, R114, R131, R175: the validation of the engine-level commands, in order, with no draw. -/
def Obligations.EngineCommandValidation : Prop :=
  (∀ (n : Nat) (s : State), s.pos ≠ .points →
    (n = 0 → ∃ t, exec (.genpt n) s = .next t ∧ Raised s t .nZero ∧ t.answers = s.answers) ∧
    (s.params.nmax < n → 0 < n → ∃ t, exec (.genpt n) s = .next t ∧ Raised s t .capacity ∧ t.answers = s.answers)) ∧
  (∀ (t' n : Nat) (w : Word) (s : State), s.pos ≠ .coeffs →
    (t' = 0 → ∃ t, exec (.wsplit t' n w) s = .next t ∧ Raised s t .tZero ∧ t.answers = s.answers) ∧
    (0 < t' → n = 0 → ∃ t, exec (.wsplit t' n w) s = .next t ∧ Raised s t .nZero ∧ t.answers = s.answers) ∧
    (0 < t' → 0 < n → (s.params.nmax < t' ∨ s.params.nmax < n) →
      ∃ t, exec (.wsplit t' n w) s = .next t ∧ Raised s t .capacity ∧ t.answers = s.answers)) ∧
  (∀ (k : Nat) (s : State),
    (k = 0 → ∃ t, exec (.wcomb k) s = .next t ∧ Raised s t .nZero ∧ t.answers = s.answers) ∧
    (0 < k → s.params.nmax < k → ∃ t, exec (.wcomb k) s = .next t ∧ Raised s t .capacity ∧ t.answers = s.answers)) ∧
  (∀ (t' : Nat) (x : Word) (s : State),
    (t' = 0 → ∃ t, exec (.peval t' x) s = .next t ∧ Raised s t .tZero ∧ t.answers = s.answers) ∧
    (0 < t' → s.params.nmax < t' → ∃ t, exec (.peval t' x) s = .next t ∧ Raised s t .capacity ∧ t.answers = s.answers))

/-- R101, R102: GENPT completes with the first `n` distinct non-zero values answered, in draw order, and consumes exactly the
answers up to the last of them. -/
def Obligations.GenptCollectsDistinctPoints : Prop :=
  ∀ (n : Nat) (s : State) (vs : List Word) (rest : List Answer), s.pos = .start → 1 ≤ n → n ≤ s.params.nmax →
    s.answers = vs.map .value ++ rest → (kept vs).length = n → (kept vs.dropLast).length < n →
    ∃ t, exec (.genpt n) s = .next t ∧ Completed s t ((kept vs).flatMap fun v => w2b v s.bo) ∧ t.answers = rest

/-- R100, R101 (postcondition): whenever a GENPT completes, also after waiting, its `n` points are pairwise distinct, non-zero, and
`2n` bytes are output. -/
def Obligations.GenptPointsDistinctNonZero : Prop :=
  ∀ (n : Nat) (s t : State), s.Inv → s.state = .busy → s.cmd = some (.legal (.genpt n)) →
    coreTurn s = .next t → t.state = .done →
    t.out.length = 2 * n ∧ (∀ i < n, wordAt t.out (2 * i) s.bo ≠ 0) ∧
    (∀ i < n, ∀ j < n, wordAt t.out (2 * i) s.bo = wordAt t.out (2 * j) s.bo → i = j)

/-! ### PEVAL, WSPLIT -/

/-- R110 to R112: PEVAL completes with the polynomial's value at `x`, said in nested form (C1), under every lawful Field. -/
def Obligations.PevalIsThePolynomialValue : Prop :=
  ∀ (t' : Nat) (x : Word) (s : State), s.field.Lawful → 1 ≤ t' → t' ≤ s.params.nmax →
    ∃ t, exec (.peval t' x) s = .next t ∧ t.answers = s.answers ∧
      Completed s t (w2b (nested s.field ((List.range t').map fun i => s.readWord (2 * i)) x) s.bo)

/-- R113, R114: WSPLIT with `t-1` values answered completes with the values, at the `n` given x-coordinates, of the polynomial
whose constant term is `s` and whose other coefficients are the values drawn, `c_1` first; exactly those are consumed. -/
def Obligations.WsplitIsThePolynomialAtEveryPoint : Prop :=
  ∀ (t' n : Nat) (w : Word) (s : State) (cs : List Word) (rest : List Answer), s.field.Lawful → s.pos = .start →
    1 ≤ t' → t' ≤ s.params.nmax → 1 ≤ n → n ≤ s.params.nmax → s.answers = cs.map .value ++ rest → cs.length = t' - 1 →
    ∃ t, exec (.wsplit t' n w) s = .next t ∧ t.answers = rest ∧
      Completed s t ((List.range n).flatMap fun i => w2b (nested s.field (w :: cs) (s.readWord (2 * i))) s.bo)

/-- R116: with `t = 1` no coefficient is drawn and every y-value is the secret word: WSPLIT outputs `s` at every point, and every
share of a SPLIT holds the secret in clear. -/
def Obligations.ThresholdOneSharesTheSecretInClear : Prop :=
  (∀ (n : Nat) (w : Word) (s : State), s.field.Lawful → s.pos = .start → 1 ≤ n → n ≤ s.params.nmax →
    ∃ t, exec (.wsplit 1 n w) s = .next t ∧ t.answers = s.answers ∧
      Completed s t ((List.range n).flatMap fun _ => w2b w s.bo)) ∧
  (∀ (n len : Nat) (s : State) (vs : List Word) (rest : List Answer), s.field.Lawful → s.pos = .start →
    1 ≤ n → n ≤ s.params.nmax → 1 ≤ len → len % 2 = 0 → len / 2 ≤ s.params.mmax →
    s.answers = vs.map .value ++ rest → (kept vs).length = n → (kept vs.dropLast).length < n →
    ∃ t, exec (.split 1 n len) s = .next t ∧ t.answers = rest ∧
      Completed s t ((kept vs).flatMap fun x => w2b x s.bo ++ (List.range len).map s.readIn))

/-- R117: at `x = 0` the value is the constant term: PEVAL returns `c_0`, WSPLIT returns the secret word at a point `0`. -/
def Obligations.ValueAtZeroIsTheConstantTerm : Prop :=
  (∀ (t' : Nat) (s : State), s.field.Lawful → 1 ≤ t' → t' ≤ s.params.nmax →
    ∃ t, exec (.peval t' 0) s = .next t ∧ Completed s t (w2b (s.readWord 0) s.bo)) ∧
  (∀ (t' n : Nat) (w : Word) (s t : State) (i : Nat), s.field.Lawful → s.pos = .start → s.state = .busy →
    exec (.wsplit t' n w) s = .next t → t.state = .done → i < n → s.readWord (2 * i) = 0 → wordAt t.out (2 * i) s.bo = w)

/-! ### WCOMB -/

/-- R125, R131: for pairwise distinct x-coordinates WCOMB completes with the constant term of a polynomial of degree at most
`k-1` through the `k` pairs, under every lawful Field, and makes no draw. That it is said of any pairs, also of no split's, is
the model's reading of R208 (log 18). -/
def Obligations.WcombInterpolates : Prop :=
  ∀ (k : Nat) (s : State), s.field.Lawful → 1 ≤ k → k ≤ s.params.nmax →
    (∀ i < k, ∀ j < k, s.readWord (4 * i) = s.readWord (4 * j) → i = j) →
    ∃ (t : State) (c : List Word), exec (.wcomb k) s = .next t ∧ t.answers = s.answers ∧ c.length = k ∧
      (∀ i < k, nested s.field c (s.readWord (4 * i)) = s.readWord (4 * i + 2)) ∧
      Completed s t (w2b (c.headD 0) s.bo)

/-- R136: if the pairs lie on one polynomial of degree at most `k-1` (coefficients `c_0, ..`, at most `k` of them), the result is
its value at 0, exactly. -/
def Obligations.WcombIsExact : Prop :=
  ∀ (k : Nat) (s : State) (c0 : Word) (cs : List Word), s.field.Lawful → 1 ≤ k → k ≤ s.params.nmax → cs.length < k →
    (∀ i < k, ∀ j < k, s.readWord (4 * i) = s.readWord (4 * j) → i = j) →
    (∀ i < k, nested s.field (c0 :: cs) (s.readWord (4 * i)) = s.readWord (4 * i + 2)) →
    ∃ t, exec (.wcomb k) s = .next t ∧ Completed s t (w2b c0 s.bo)

/-- R132 ("Exactly: .. if and only if two of `X[0..k-1]` are equal"), whatever the y-values. -/
def Obligations.WcombSingularExactlyOnDuplicates : Prop :=
  ∀ (k : Nat) (s : State), s.field.Lawful → 1 ≤ k → k ≤ s.params.nmax →
    ((∃ i j, i < j ∧ j < k ∧ s.readWord (4 * i) = s.readWord (4 * j)) ↔
      ∃ t, exec (.wcomb k) s = .next t ∧ Raised s t .singular)

/-- R133: `k = 1` returns the y-value, whatever the x-coordinate: WCOMB `Y[0]`, COMBINE of one share its y-bytes. -/
def Obligations.SingleShareReturnsItsValues : Prop :=
  (∀ s : State, s.field.Lawful → 1 ≤ s.params.nmax →
    ∃ t, exec (.wcomb 1) s = .next t ∧ Completed s t (w2b (s.readWord 2) s.bo)) ∧
  (∀ s : State, s.field.Lawful → 1 ≤ s.params.nmax → 4 ≤ (s.readSlen 0).toNat → (s.readSlen 0).toNat % 2 = 0 →
    ((s.readSlen 0).toNat - 2) / 2 ≤ s.params.mmax →
    ∃ t, exec (.combine 1) s = .next t ∧
      Completed s t ((List.range ((s.readSlen 0).toNat - 2)).map fun i => s.readIn (i + 2)))

/-- R134: an x-coordinate of zero is accepted; with the others distinct from it and from each other the result is that pair's
y-value. -/
def Obligations.WcombAtZeroReturnsThatValue : Prop :=
  ∀ (k i : Nat) (s : State), s.field.Lawful → k ≤ s.params.nmax → i < k → s.readWord (4 * i) = 0 →
    (∀ i < k, ∀ j < k, s.readWord (4 * i) = s.readWord (4 * j) → i = j) →
    ∃ t, exec (.wcomb k) s = .next t ∧ Completed s t (w2b (s.readWord (4 * i + 2)) s.bo)

/-- R158 (`k = t-1`): `k` distinct pairs, or the `k` y-values of each word-column of `k` distinct shares, on a polynomial with
`k+1` coefficients combine without error to `c_0 + c_k x_0 x_1 .. x_(k-1)`: WCOMB, and COMBINE word by word. That the value is
said at all is the model's reading of R208 (log 18). -/
def Obligations.ShortCombineValue : Prop :=
  (∀ (k : Nat) (s : State) (c : List Word), s.field.Lawful → 1 ≤ k → k ≤ s.params.nmax → c.length = k + 1 →
    (∀ i < k, ∀ j < k, s.readWord (4 * i) = s.readWord (4 * j) → i = j) →
    (∀ i < k, nested s.field c (s.readWord (4 * i)) = s.readWord (4 * i + 2)) →
    ∃ t, exec (.wcomb k) s = .next t ∧ t.answers = s.answers ∧
      Completed s t (w2b (shortValue s.field c ((List.range k).map fun i => s.readWord (4 * i))) s.bo)) ∧
  (∀ (k : Nat) (s : State) (cs : List (List Word)), s.field.Lawful → 1 ≤ k → k ≤ s.params.nmax →
    (∀ i < k, s.readSlen i = s.readSlen 0) → (s.readSlen 0).toNat % 2 = 0 → 4 ≤ (s.readSlen 0).toNat →
    ((s.readSlen 0).toNat - 2) / 2 ≤ s.params.mmax → cs.length = ((s.readSlen 0).toNat - 2) / 2 →
    (∀ i < k, ∀ j < k, s.readWord (i * (s.readSlen 0).toNat) = s.readWord (j * (s.readSlen 0).toNat) → i = j) →
    (∀ j < cs.length, (cs.getD j []).length = k + 1 ∧ ∀ i < k,
      nested s.field (cs.getD j []) (s.readWord (i * (s.readSlen 0).toNat)) =
        s.readWord (i * (s.readSlen 0).toNat + 2 + 2 * j)) →
    ∃ t, exec (.combine k) s = .next t ∧ t.answers = s.answers ∧
      Completed s t (cs.flatMap fun c =>
        w2b (shortValue s.field c ((List.range k).map fun i => s.readWord (i * (s.readSlen 0).toNat))) s.bo))

/-! ### SPLIT -/

/-- R141: the six tests of SPLIT, in order, the first that fails reported, before any draw, any field operation and any read of
IN: whatever IN holds, and no answer is consumed. -/
def Obligations.SplitValidation : Prop :=
  ∀ (t' n len : Nat) (s : State), s.pos = .start →
    let ends (e : Err) := ∃ t, exec (.split t' n len) s = .next t ∧ Raised s t e ∧ t.answers = s.answers
    (t' = 0 → ends .tZero) ∧
    (t' ≠ 0 → n = 0 → ends .nZero) ∧
    (t' ≠ 0 → n ≠ 0 → n < t' → ends .tGtN) ∧
    (t' ≠ 0 → n ≠ 0 → t' ≤ n → len = 0 → ends .lenZero) ∧
    (t' ≠ 0 → n ≠ 0 → t' ≤ n → len ≠ 0 → len % 2 = 1 → ends .lenOdd) ∧
    (t' ≠ 0 → n ≠ 0 → t' ≤ n → len ≠ 0 → len % 2 = 0 → (s.params.nmax < n ∨ s.params.mmax < len / 2) → ends .capacity)

/-- R140 to R146, R48, R49, R94: SPLIT completes with `n` records back to back: the point, then for each word the value there of
the polynomial of that word and its own `t-1` coefficients; points are drawn first, then the words' coefficients in
order, and exactly those answers are consumed. -/
def Obligations.SplitMakesShares : Prop :=
  ∀ (t' n len : Nat) (s : State) (vs cs : List Word) (rest : List Answer), s.field.Lawful → s.pos = .start →
    1 ≤ t' → t' ≤ n → 1 ≤ len → len % 2 = 0 → n ≤ s.params.nmax → len / 2 ≤ s.params.mmax →
    s.answers = vs.map .value ++ cs.map .value ++ rest → (kept vs).length = n → (kept vs.dropLast).length < n →
    cs.length = len / 2 * (t' - 1) →
    ∃ t, exec (.split t' n len) s = .next t ∧ t.answers = rest ∧
      Completed s t ((kept vs).flatMap fun x => w2b x s.bo ++ (List.range (len / 2)).flatMap fun j =>
        w2b (nested s.field (s.readWord (2 * j) :: (cs.drop (j * (t' - 1))).take (t' - 1)) x) s.bo)

/-- R146: whenever a SPLIT completes, also after waiting, `OUT_LEN = n * (L + 2)`, so every share carries the same word count, the
x-coordinates are distinct and non-zero, and IN still holds the secret. -/
def Obligations.SplitOutputInvariants : Prop :=
  ∀ (t' n len : Nat) (s t : State), s.Inv → s.state = .busy → s.cmd = some (.legal (.split t' n len)) →
    coreTurn s = .next t → t.state = .done →
    t.outLen.toNat = n * (len + 2) ∧ t.out.length = n * (len + 2) ∧
    (∀ i < n, wordAt t.out (i * (len + 2)) s.bo ≠ 0) ∧
    (∀ i < n, ∀ j < n, wordAt t.out (i * (len + 2)) s.bo = wordAt t.out (j * (len + 2)) s.bo → i = j) ∧
    (∀ i, t.readIn i = s.readIn i)

/-! ### COMBINE -/

/-- R151: the tests of COMBINE, in order, the first that fails reported, before IN is read and before any field operation:
whatever IN holds and whatever the Field is. -/
def Obligations.CombineValidation : Prop :=
  ∀ (k : Nat) (s : State),
    let S := (s.readSlen 0).toNat
    let unequal := ∃ i, 1 ≤ i ∧ i < k ∧ s.readSlen i ≠ s.readSlen 0
    let ends (e : Err) := ∃ t, exec (.combine k) s = .next t ∧ Raised s t e ∧ t.answers = s.answers
    (k = 0 → ends .nZero) ∧
    (k ≠ 0 → s.params.nmax < k → ends .capacity) ∧
    (k ≠ 0 → k ≤ s.params.nmax → unequal → ends .lenMismatch) ∧
    (k ≠ 0 → k ≤ s.params.nmax → ¬ unequal → S % 2 = 1 ∨ S < 4 → ends .lenBad) ∧
    (k ≠ 0 → k ≤ s.params.nmax → ¬ unequal → S % 2 = 0 → 4 ≤ S → s.params.mmax < (S - 2) / 2 → ends .capacity)

/-- R150 to R154, R50, R51: for pairwise distinct x-coordinates COMBINE completes with `S - 2` bytes whose word `j` is the constant
term of a polynomial of degree at most `k-1` through the shares' x-coordinates and y-values of column `j`. That it is said of any
shares, also of too few, is the model's reading of R208 (log 18). -/
def Obligations.CombineInterpolatesEveryColumn : Prop :=
  ∀ (k : Nat) (s : State), s.field.Lawful → 1 ≤ k → k ≤ s.params.nmax →
    (∀ i < k, s.readSlen i = s.readSlen 0) → (s.readSlen 0).toNat % 2 = 0 → 4 ≤ (s.readSlen 0).toNat →
    ((s.readSlen 0).toNat - 2) / 2 ≤ s.params.mmax →
    (∀ i < k, ∀ j < k, s.readWord (i * (s.readSlen 0).toNat) = s.readWord (j * (s.readSlen 0).toNat) → i = j) →
    ∃ (t : State) (words : List Word), exec (.combine k) s = .next t ∧ t.answers = s.answers ∧
      words.length = ((s.readSlen 0).toNat - 2) / 2 ∧ Completed s t (words.flatMap fun w => w2b w s.bo) ∧
      ∀ j < words.length, ∃ c : List Word, c.length = k ∧ c.headD 0 = words.getD j 0 ∧
        ∀ i < k, nested s.field c (s.readWord (i * (s.readSlen 0).toNat)) =
          s.readWord (i * (s.readSlen 0).toNat + 2 + 2 * j)

/-- R160: two shares with the same x-coordinate, their y-values equal or not, end a COMBINE that passes its validation with
`Err(SINGULAR, 0)`, and it is the word-combine of word-column 0 that is singular. -/
def Obligations.CombineDuplicateIsSingular : Prop :=
  ∀ (k a b : Nat) (s : State), s.field.Lawful → k ≤ s.params.nmax →
    (∀ i < k, s.readSlen i = s.readSlen 0) → (s.readSlen 0).toNat % 2 = 0 → 4 ≤ (s.readSlen 0).toNat →
    ((s.readSlen 0).toNat - 2) / 2 ≤ s.params.mmax →
    a < b → b < k → s.readWord (a * (s.readSlen 0).toNat) = s.readWord (b * (s.readSlen 0).toNat) →
    (∃ t, exec (.combine k) s = .next t ∧ Raised s t .singular) ∧
    ∃ m, wordCombine s.field (s.shareXs k (s.readSlen 0).toNat) (s.shareYs k (s.readSlen 0).toNat 0) = .singular m

/-- R159: permuting the `k` share slots of IN leaves STATUS, OUT_LEN and OUT of a COMBINE unchanged. -/
def Obligations.CombineIgnoresShareOrder : Prop :=
  ∀ (k : Nat) (s u : State) (perm : Nat → Nat), s.field.Lawful → u.params = s.params → u.bo = s.bo →
    s.state = .busy → u.state = .busy → u.err = s.err → u.errInfo = s.errInfo →
    (∀ i < k, u.readSlen i = s.readSlen i) →
    (∀ i < k, perm i < k) → (∀ i < k, ∀ j < k, perm i = perm j → i = j) →
    (∀ i < k, ∀ b < (s.readSlen 0).toNat,
      u.readIn (i * (s.readSlen 0).toNat + b) = s.readIn (perm i * (s.readSlen 0).toNat + b)) →
    ∃ t v, exec (.combine k) s = .next t ∧ exec (.combine k) u = .next v ∧
      v.statusWord = t.statusWord ∧ v.outLen = t.outLen ∧ v.out = t.out

/-- R156: for every answer sequence on which a SPLIT completes, every `k` with `t <= k <= n`, any `k` distinct shares of its output
in any order, under the same byte order, combine to exactly the secret. -/
def Obligations.SplitThenCombineReturnsTheSecret : Prop :=
  ∀ (t' n len k : Nat) (s t u : State) (pick : Nat → Nat), s.field.Lawful → s.pos = .start → s.state = .busy →
    exec (.split t' n len) s = .next t → t.state = .done →
    t' ≤ k → k ≤ n → (∀ i < k, pick i < n) → (∀ i < k, ∀ j < k, pick i = pick j → i = j) →
    u.params = s.params → u.bo = s.bo → (∀ i < k, (u.readSlen i).toNat = len + 2) →
    (∀ i < k, ∀ b < len + 2, u.readIn (i * (len + 2) + b) = t.out.getD (pick i * (len + 2) + b) 0) →
    ∃ v, exec (.combine k) u = .next v ∧ Completed u v ((List.range len).map s.readIn)
end

