-- ==== Sys2Proof/Laws/Memory.lean ====
section
/-! SUPPORT. The laws of the sparse memory: read after write, frame, canonical form. -/

namespace Sys2Proof.Machine

variable {α : Type}

@[simp] theorem Memory.get_nil (i : Nat) : Memory.get i ([] : List (Nat × α)) = none := rfl

@[simp] theorem Memory.wf_nil : Memory.wf ([] : List (Nat × α)) = true := rfl

@[simp] theorem Memory.within_nil (n : Nat) : Memory.within n ([] : List (Nat × α)) = true := rfl

@[simp] theorem Memory.wf_singleton (c : Nat × α) : Memory.wf [c] = true := rfl

/-- The canonical form, read one entry at a time. -/
theorem Memory.wf_cons_cons (i j : Nat) (u v : α) (rest : List (Nat × α)) :
    Memory.wf ((i, u) :: (j, v) :: rest) = true ↔ i < j ∧ Memory.wf ((j, v) :: rest) = true := by
  simp [Memory.wf]

theorem Memory.wf_tail {c : Nat × α} {rest : List (Nat × α)} (h : Memory.wf (c :: rest) = true) :
    Memory.wf rest = true := by
  cases rest with
  | nil => rfl
  | cons d rest => exact ((Memory.wf_cons_cons _ _ _ _ _).1 h).2

/-- Read after write, at the same index. -/
@[simp] theorem Memory.get_put_same (i : Nat) (v : α) (m : List (Nat × α)) : Memory.get i (Memory.put i v m) = some v := by
  induction m with
  | nil => simp [Memory.put, Memory.get]
  | cons c rest ih =>
    obtain ⟨j, w⟩ := c
    by_cases h1 : i < j
    · simp [Memory.put, Memory.get, h1]
    · by_cases h2 : i = j
      · simp [Memory.put, Memory.get, h2]
      · simp [Memory.put, Memory.get, h1, h2, ih]

/-- A write leaves every other index alone. -/
theorem Memory.get_put_other {i j : Nat} (h : j ≠ i) (v : α) (m : List (Nat × α)) :
    Memory.get j (Memory.put i v m) = Memory.get j m := by
  induction m with
  | nil => simp [Memory.put, Memory.get, h]
  | cons c rest ih =>
    obtain ⟨l, w⟩ := c
    by_cases h1 : i < l
    · simp [Memory.put, Memory.get, h1, h]
    · by_cases h2 : i = l
      · subst h2; simp [Memory.put, Memory.get, h]
      · simp [Memory.put, Memory.get, h1, h2, ih]

/-- A write in front of a canonical memory whose head comes later keeps the form. -/
theorem Memory.wf_put_aux (i : Nat) (v : α) (m : List (Nat × α)) (h : Memory.wf m = true) :
    Memory.wf (Memory.put i v m) = true ∧
      ∀ l (w : α), l < i → Memory.wf ((l, w) :: m) = true → Memory.wf ((l, w) :: Memory.put i v m) = true := by
  induction m with
  | nil =>
    refine ⟨rfl, fun l w hl _ => ?_⟩
    simpa [Memory.put, Memory.wf] using hl
  | cons c rest ih =>
    obtain ⟨j, u⟩ := c
    have hr := ih (Memory.wf_tail h)
    rcases lt_trichotomy i j with h1 | h1 | h1
    · simp only [Memory.put, h1, if_true, Memory.wf_cons_cons]
      exact ⟨⟨trivial, h⟩, fun l w hl _ => ⟨hl, trivial, h⟩⟩
    · subst h1
      simp only [Memory.put, lt_irrefl, if_true, if_false]
      have key : Memory.wf ((i, v) :: rest) = true := by
        cases rest with
        | nil => rfl
        | cons d rest => obtain ⟨k, x⟩ := d; simpa only [Memory.wf_cons_cons] using h
      exact ⟨key, fun l w hl _ => (Memory.wf_cons_cons _ _ _ _ _).2 ⟨hl, key⟩⟩
    · have hn : ¬ i < j := by omega
      have hne : i ≠ j := by omega
      simp only [Memory.put, hn, hne, if_false]
      have key := hr.2 j u h1 h
      exact ⟨key, fun l w _ hm => (Memory.wf_cons_cons _ _ _ _ _).2 ⟨((Memory.wf_cons_cons _ _ _ _ _).1 hm).1, key⟩⟩

/-- Every write keeps the canonical form. -/
theorem Memory.wf_put {i : Nat} {v : α} {m : List (Nat × α)} (h : Memory.wf m = true) : Memory.wf (Memory.put i v m) = true :=
  (Memory.wf_put_aux i v m h).1

/-- A write inside the bound keeps every index inside it. -/
theorem Memory.within_put {n i : Nat} {v : α} {m : List (Nat × α)} (hi : i < n) (h : Memory.within n m = true) :
    Memory.within n (Memory.put i v m) = true := by
  induction m with
  | nil => simpa [Memory.put, Memory.within] using hi
  | cons c rest ih =>
    obtain ⟨j, w⟩ := c
    have hj : j < n ∧ Memory.within n rest = true := by simpa [Memory.within] using h
    have hr := ih hj.2
    by_cases h1 : i < j
    · simp only [Memory.put, h1, if_true]
      simpa [Memory.within, hi] using h
    · by_cases h2 : i = j
      · simp only [Memory.put, h2, lt_irrefl, if_true, if_false]
        simpa [Memory.within] using hj
      · simp only [Memory.put, h1, h2, if_false]
        simpa [Memory.within, hj.1] using hr

/-- An index before the first listed one reads as unlisted. -/
theorem Memory.get_head_lt {i j : Nat} {w : α} {rest : List (Nat × α)} (h : Memory.wf ((j, w) :: rest) = true) (hi : i < j) :
    Memory.get i ((j, w) :: rest) = none := by
  induction rest generalizing j w with
  | nil => simp [Memory.get, Nat.ne_of_lt hi]
  | cons c rest ih =>
    obtain ⟨k, x⟩ := c
    have hk := (Memory.wf_cons_cons _ _ _ _ _).1 h
    rw [Memory.get, if_neg (Nat.ne_of_lt hi)]
    exact ih hk.2 (by omega)

/-- Canonical memories that read the same everywhere are equal data. -/
theorem Memory.ext {m m' : List (Nat × α)} (h : Memory.wf m = true) (h' : Memory.wf m' = true)
    (hget : ∀ i, Memory.get i m = Memory.get i m') : m = m' := by
  induction m generalizing m' with
  | nil =>
    cases m' with
    | nil => rfl
    | cons c rest => have := hget c.1; simp [Memory.get] at this
  | cons c rest ih =>
    obtain ⟨i, v⟩ := c
    cases m' with
    | nil => have := hget i; simp [Memory.get] at this
    | cons d rest' =>
      obtain ⟨j, w⟩ := d
      rcases lt_trichotomy i j with hij | hij | hij
      · have := hget i; rw [Memory.get_head_lt h' hij] at this; simp [Memory.get] at this
      · subst hij
        have hv : v = w := by have := hget i; simpa [Memory.get] using this
        subst hv
        have tail : ∀ l, Memory.get l rest = Memory.get l rest' := by
          intro l
          by_cases hl : l = i
          · subst hl
            have low : ∀ r : List (Nat × α), Memory.wf ((l, v) :: r) = true → Memory.get l r = none := by
              intro r hr
              cases r with
              | nil => rfl
              | cons e r =>
                have he := (Memory.wf_cons_cons _ _ _ _ _).1 hr
                exact Memory.get_head_lt he.2 he.1
            rw [low rest h, low rest' h']
          · have := hget l; simpa [Memory.get, hl] using this
        rw [ih (Memory.wf_tail h) (Memory.wf_tail h') tail]
      · have := hget j; rw [Memory.get_head_lt h hij] at this; simp [Memory.get] at this

/-! ### The buffers of the block -/

@[simp] theorem State.readIn_writeIn_same (s : State) (i : Nat) (v : Byte) : (s.writeIn i v).readIn i = v := by
  simp [State.readIn, State.writeIn]

theorem State.readIn_writeIn_other (s : State) {i j : Nat} (v : Byte) (h : j ≠ i) : (s.writeIn i v).readIn j = s.readIn j := by
  simp [State.readIn, State.writeIn, Memory.get_put_other h]

@[simp] theorem State.readSlen_writeSlen_same (s : State) (i : Nat) (v : Word) : (s.writeSlen i v).readSlen i = v := by
  simp [State.readSlen, State.writeSlen]

theorem State.readSlen_writeSlen_other (s : State) {i j : Nat} (v : Word) (h : j ≠ i) :
    (s.writeSlen i v).readSlen j = s.readSlen j := by
  simp [State.readSlen, State.writeSlen, Memory.get_put_other h]

end Sys2Proof.Machine
end

