-- ==== Sys2Proof/Laws/State.lean ====
section
/-! SUPPORT. One lemma per field per named update, true by rfl. -/

namespace Sys2Proof.Machine


/-! ### START -/

@[simp] theorem State.start_params (s : State) : (s.start).params = s.params := rfl
@[simp] theorem State.start_cfg (s : State) : (s.start).cfg = s.cfg := rfl
@[simp] theorem State.start_descLo (s : State) : (s.start).descLo = s.descLo := rfl
@[simp] theorem State.start_descHi (s : State) : (s.start).descHi = s.descHi := rfl
@[simp] theorem State.start_state (s : State) : (s.start).state = .busy := rfl
@[simp] theorem State.start_err (s : State) : (s.start).err = .none := rfl
@[simp] theorem State.start_errInfo (s : State) : (s.start).errInfo = 0 := rfl
@[simp] theorem State.start_outLen (s : State) : (s.start).outLen = 0 := rfl
@[simp] theorem State.start_slen (s : State) : (s.start).slen = s.slen := rfl
@[simp] theorem State.start_inBuf (s : State) : (s.start).inBuf = s.inBuf := rfl
@[simp] theorem State.start_out (s : State) : (s.start).out = [] := rfl
@[simp] theorem State.start_xv (s : State) : (s.start).xv = s.xv := rfl
@[simp] theorem State.start_seen (s : State) : (s.start).seen = s.seen := rfl
@[simp] theorem State.start_coef (s : State) : (s.start).coef = s.coef := rfl
@[simp] theorem State.start_sw (s : State) : (s.start).sw = s.sw := rfl
@[simp] theorem State.start_yv (s : State) : (s.start).yv = s.yv := rfl
@[simp] theorem State.start_mat (s : State) : (s.start).mat = s.mat := rfl
@[simp] theorem State.start_cmd (s : State) : (s.start).cmd = some (decode s.desc) := rfl
@[simp] theorem State.start_pos (s : State) : (s.start).pos = .start := rfl
@[simp] theorem State.start_epoch (s : State) : (s.start).epoch = s.epoch := rfl
@[simp] theorem State.start_agenda (s : State) : (s.start).agenda = s.agenda := rfl
@[simp] theorem State.start_answers (s : State) : (s.start).answers = s.answers := rfl
@[simp] theorem State.start_reply (s : State) : (s.start).reply = s.reply := rfl

/-! ### Completion -/

@[simp] theorem State.complete_params (s : State) (b : List Byte) : (s.complete b).params = s.params := rfl
@[simp] theorem State.complete_cfg (s : State) (b : List Byte) : (s.complete b).cfg = s.cfg := rfl
@[simp] theorem State.complete_descLo (s : State) (b : List Byte) : (s.complete b).descLo = s.descLo := rfl
@[simp] theorem State.complete_descHi (s : State) (b : List Byte) : (s.complete b).descHi = s.descHi := rfl
@[simp] theorem State.complete_state (s : State) (b : List Byte) : (s.complete b).state = .done := rfl
@[simp] theorem State.complete_err (s : State) (b : List Byte) : (s.complete b).err = s.err := rfl
@[simp] theorem State.complete_errInfo (s : State) (b : List Byte) : (s.complete b).errInfo = s.errInfo := rfl
@[simp] theorem State.complete_outLen (s : State) (b : List Byte) : (s.complete b).outLen = BitVec.ofNat 32 b.length := rfl
@[simp] theorem State.complete_slen (s : State) (b : List Byte) : (s.complete b).slen = s.slen := rfl
@[simp] theorem State.complete_inBuf (s : State) (b : List Byte) : (s.complete b).inBuf = s.inBuf := rfl
@[simp] theorem State.complete_out (s : State) (b : List Byte) : (s.complete b).out = b := rfl
@[simp] theorem State.complete_xv (s : State) (b : List Byte) : (s.complete b).xv = s.xv := rfl
@[simp] theorem State.complete_seen (s : State) (b : List Byte) : (s.complete b).seen = s.seen := rfl
@[simp] theorem State.complete_coef (s : State) (b : List Byte) : (s.complete b).coef = s.coef := rfl
@[simp] theorem State.complete_sw (s : State) (b : List Byte) : (s.complete b).sw = s.sw := rfl
@[simp] theorem State.complete_yv (s : State) (b : List Byte) : (s.complete b).yv = s.yv := rfl
@[simp] theorem State.complete_mat (s : State) (b : List Byte) : (s.complete b).mat = s.mat := rfl
@[simp] theorem State.complete_cmd (s : State) (b : List Byte) : (s.complete b).cmd = Option.none := rfl
@[simp] theorem State.complete_pos (s : State) (b : List Byte) : (s.complete b).pos = .idle := rfl
@[simp] theorem State.complete_epoch (s : State) (b : List Byte) : (s.complete b).epoch = s.epoch := rfl
@[simp] theorem State.complete_agenda (s : State) (b : List Byte) : (s.complete b).agenda = s.agenda := rfl
@[simp] theorem State.complete_answers (s : State) (b : List Byte) : (s.complete b).answers = s.answers := rfl
@[simp] theorem State.complete_reply (s : State) (b : List Byte) : (s.complete b).reply = s.reply := rfl

/-! ### Error entry -/

@[simp] theorem State.raise_params (s : State) (e : Err) : (s.raise e).params = s.params := rfl
@[simp] theorem State.raise_cfg (s : State) (e : Err) : (s.raise e).cfg = s.cfg := rfl
@[simp] theorem State.raise_descLo (s : State) (e : Err) : (s.raise e).descLo = s.descLo := rfl
@[simp] theorem State.raise_descHi (s : State) (e : Err) : (s.raise e).descHi = s.descHi := rfl
@[simp] theorem State.raise_state (s : State) (e : Err) : (s.raise e).state = .error := rfl
@[simp] theorem State.raise_err (s : State) (e : Err) : (s.raise e).err = e.cls := rfl
@[simp] theorem State.raise_errInfo (s : State) (e : Err) : (s.raise e).errInfo = e.info := rfl
@[simp] theorem State.raise_outLen (s : State) (e : Err) : (s.raise e).outLen = 0 := rfl
@[simp] theorem State.raise_slen (s : State) (e : Err) : (s.raise e).slen = s.slen := rfl
@[simp] theorem State.raise_inBuf (s : State) (e : Err) : (s.raise e).inBuf = s.inBuf := rfl
@[simp] theorem State.raise_out (s : State) (e : Err) : (s.raise e).out = [] := rfl
@[simp] theorem State.raise_xv (s : State) (e : Err) : (s.raise e).xv = s.xv := rfl
@[simp] theorem State.raise_seen (s : State) (e : Err) : (s.raise e).seen = s.seen := rfl
@[simp] theorem State.raise_coef (s : State) (e : Err) : (s.raise e).coef = s.coef := rfl
@[simp] theorem State.raise_sw (s : State) (e : Err) : (s.raise e).sw = s.sw := rfl
@[simp] theorem State.raise_yv (s : State) (e : Err) : (s.raise e).yv = s.yv := rfl
@[simp] theorem State.raise_mat (s : State) (e : Err) : (s.raise e).mat = s.mat := rfl
@[simp] theorem State.raise_cmd (s : State) (e : Err) : (s.raise e).cmd = Option.none := rfl
@[simp] theorem State.raise_pos (s : State) (e : Err) : (s.raise e).pos = .idle := rfl
@[simp] theorem State.raise_epoch (s : State) (e : Err) : (s.raise e).epoch = s.epoch := rfl
@[simp] theorem State.raise_agenda (s : State) (e : Err) : (s.raise e).agenda = s.agenda := rfl
@[simp] theorem State.raise_answers (s : State) (e : Err) : (s.raise e).answers = s.answers := rfl
@[simp] theorem State.raise_reply (s : State) (e : Err) : (s.raise e).reply = s.reply := rfl

/-! ### Reset -/

@[simp] theorem State.applyReset_params (s : State) : (s.applyReset).params = s.params := rfl
@[simp] theorem State.applyReset_cfg (s : State) : (s.applyReset).cfg = 0 := rfl
@[simp] theorem State.applyReset_descLo (s : State) : (s.applyReset).descLo = 0 := rfl
@[simp] theorem State.applyReset_descHi (s : State) : (s.applyReset).descHi = 0 := rfl
@[simp] theorem State.applyReset_state (s : State) : (s.applyReset).state = .idle := rfl
@[simp] theorem State.applyReset_err (s : State) : (s.applyReset).err = .none := rfl
@[simp] theorem State.applyReset_errInfo (s : State) : (s.applyReset).errInfo = 0 := rfl
@[simp] theorem State.applyReset_outLen (s : State) : (s.applyReset).outLen = 0 := rfl
@[simp] theorem State.applyReset_slen (s : State) : (s.applyReset).slen = [] := rfl
@[simp] theorem State.applyReset_inBuf (s : State) : (s.applyReset).inBuf = [] := rfl
@[simp] theorem State.applyReset_out (s : State) : (s.applyReset).out = [] := rfl
@[simp] theorem State.applyReset_xv (s : State) : (s.applyReset).xv = [] := rfl
@[simp] theorem State.applyReset_seen (s : State) : (s.applyReset).seen = [] := rfl
@[simp] theorem State.applyReset_coef (s : State) : (s.applyReset).coef = [] := rfl
@[simp] theorem State.applyReset_sw (s : State) : (s.applyReset).sw = [] := rfl
@[simp] theorem State.applyReset_yv (s : State) : (s.applyReset).yv = [] := rfl
@[simp] theorem State.applyReset_mat (s : State) : (s.applyReset).mat = [] := rfl
@[simp] theorem State.applyReset_cmd (s : State) : (s.applyReset).cmd = Option.none := rfl
@[simp] theorem State.applyReset_pos (s : State) : (s.applyReset).pos = .idle := rfl
@[simp] theorem State.applyReset_epoch (s : State) : (s.applyReset).epoch = s.epoch + 1 := rfl
@[simp] theorem State.applyReset_agenda (s : State) : (s.applyReset).agenda = s.agenda := rfl
@[simp] theorem State.applyReset_answers (s : State) : (s.applyReset).answers = s.answers := rfl
@[simp] theorem State.applyReset_reply (s : State) : (s.applyReset).reply = Option.none := rfl

/-! ### The beginning of the generator -/

@[simp] theorem State.beginPoints_params (s : State) : (s.beginPoints).params = s.params := rfl
@[simp] theorem State.beginPoints_cfg (s : State) : (s.beginPoints).cfg = s.cfg := rfl
@[simp] theorem State.beginPoints_descLo (s : State) : (s.beginPoints).descLo = s.descLo := rfl
@[simp] theorem State.beginPoints_descHi (s : State) : (s.beginPoints).descHi = s.descHi := rfl
@[simp] theorem State.beginPoints_state (s : State) : (s.beginPoints).state = s.state := rfl
@[simp] theorem State.beginPoints_err (s : State) : (s.beginPoints).err = s.err := rfl
@[simp] theorem State.beginPoints_errInfo (s : State) : (s.beginPoints).errInfo = s.errInfo := rfl
@[simp] theorem State.beginPoints_outLen (s : State) : (s.beginPoints).outLen = s.outLen := rfl
@[simp] theorem State.beginPoints_slen (s : State) : (s.beginPoints).slen = s.slen := rfl
@[simp] theorem State.beginPoints_inBuf (s : State) : (s.beginPoints).inBuf = s.inBuf := rfl
@[simp] theorem State.beginPoints_out (s : State) : (s.beginPoints).out = s.out := rfl
@[simp] theorem State.beginPoints_xv (s : State) : (s.beginPoints).xv = [] := rfl
@[simp] theorem State.beginPoints_seen (s : State) : (s.beginPoints).seen = [] := rfl
@[simp] theorem State.beginPoints_coef (s : State) : (s.beginPoints).coef = s.coef := rfl
@[simp] theorem State.beginPoints_sw (s : State) : (s.beginPoints).sw = s.sw := rfl
@[simp] theorem State.beginPoints_yv (s : State) : (s.beginPoints).yv = s.yv := rfl
@[simp] theorem State.beginPoints_mat (s : State) : (s.beginPoints).mat = s.mat := rfl
@[simp] theorem State.beginPoints_cmd (s : State) : (s.beginPoints).cmd = s.cmd := rfl
@[simp] theorem State.beginPoints_pos (s : State) : (s.beginPoints).pos = s.pos := rfl
@[simp] theorem State.beginPoints_epoch (s : State) : (s.beginPoints).epoch = s.epoch := rfl
@[simp] theorem State.beginPoints_agenda (s : State) : (s.beginPoints).agenda = s.agenda := rfl
@[simp] theorem State.beginPoints_answers (s : State) : (s.beginPoints).answers = s.answers := rfl
@[simp] theorem State.beginPoints_reply (s : State) : (s.beginPoints).reply = s.reply := rfl

/-! ### The beginning of a word -/

@[simp] theorem State.beginWord_params (s : State) (w : Word) : (s.beginWord w).params = s.params := rfl
@[simp] theorem State.beginWord_cfg (s : State) (w : Word) : (s.beginWord w).cfg = s.cfg := rfl
@[simp] theorem State.beginWord_descLo (s : State) (w : Word) : (s.beginWord w).descLo = s.descLo := rfl
@[simp] theorem State.beginWord_descHi (s : State) (w : Word) : (s.beginWord w).descHi = s.descHi := rfl
@[simp] theorem State.beginWord_state (s : State) (w : Word) : (s.beginWord w).state = s.state := rfl
@[simp] theorem State.beginWord_err (s : State) (w : Word) : (s.beginWord w).err = s.err := rfl
@[simp] theorem State.beginWord_errInfo (s : State) (w : Word) : (s.beginWord w).errInfo = s.errInfo := rfl
@[simp] theorem State.beginWord_outLen (s : State) (w : Word) : (s.beginWord w).outLen = s.outLen := rfl
@[simp] theorem State.beginWord_slen (s : State) (w : Word) : (s.beginWord w).slen = s.slen := rfl
@[simp] theorem State.beginWord_inBuf (s : State) (w : Word) : (s.beginWord w).inBuf = s.inBuf := rfl
@[simp] theorem State.beginWord_out (s : State) (w : Word) : (s.beginWord w).out = s.out := rfl
@[simp] theorem State.beginWord_xv (s : State) (w : Word) : (s.beginWord w).xv = s.xv := rfl
@[simp] theorem State.beginWord_seen (s : State) (w : Word) : (s.beginWord w).seen = s.seen := rfl
@[simp] theorem State.beginWord_coef (s : State) (w : Word) : (s.beginWord w).coef = [w] := rfl
@[simp] theorem State.beginWord_sw (s : State) (w : Word) : (s.beginWord w).sw = s.sw := rfl
@[simp] theorem State.beginWord_yv (s : State) (w : Word) : (s.beginWord w).yv = s.yv := rfl
@[simp] theorem State.beginWord_mat (s : State) (w : Word) : (s.beginWord w).mat = s.mat := rfl
@[simp] theorem State.beginWord_cmd (s : State) (w : Word) : (s.beginWord w).cmd = s.cmd := rfl
@[simp] theorem State.beginWord_pos (s : State) (w : Word) : (s.beginWord w).pos = s.pos := rfl
@[simp] theorem State.beginWord_epoch (s : State) (w : Word) : (s.beginWord w).epoch = s.epoch := rfl
@[simp] theorem State.beginWord_agenda (s : State) (w : Word) : (s.beginWord w).agenda = s.agenda := rfl
@[simp] theorem State.beginWord_answers (s : State) (w : Word) : (s.beginWord w).answers = s.answers := rfl
@[simp] theorem State.beginWord_reply (s : State) (w : Word) : (s.beginWord w).reply = s.reply := rfl

/-! ### Parsing shares -/

@[simp] theorem State.parseShares_params (s : State) (k : Nat) : (s.parseShares k).params = s.params := rfl
@[simp] theorem State.parseShares_cfg (s : State) (k : Nat) : (s.parseShares k).cfg = s.cfg := rfl
@[simp] theorem State.parseShares_descLo (s : State) (k : Nat) : (s.parseShares k).descLo = s.descLo := rfl
@[simp] theorem State.parseShares_descHi (s : State) (k : Nat) : (s.parseShares k).descHi = s.descHi := rfl
@[simp] theorem State.parseShares_state (s : State) (k : Nat) : (s.parseShares k).state = s.state := rfl
@[simp] theorem State.parseShares_err (s : State) (k : Nat) : (s.parseShares k).err = s.err := rfl
@[simp] theorem State.parseShares_errInfo (s : State) (k : Nat) : (s.parseShares k).errInfo = s.errInfo := rfl
@[simp] theorem State.parseShares_outLen (s : State) (k : Nat) : (s.parseShares k).outLen = s.outLen := rfl
@[simp] theorem State.parseShares_slen (s : State) (k : Nat) : (s.parseShares k).slen = s.slen := rfl
@[simp] theorem State.parseShares_inBuf (s : State) (k : Nat) : (s.parseShares k).inBuf = s.inBuf := rfl
@[simp] theorem State.parseShares_out (s : State) (k : Nat) : (s.parseShares k).out = s.out := rfl
@[simp] theorem State.parseShares_xv (s : State) (k : Nat) : (s.parseShares k).xv = s.shareXs k s.shareLen := rfl
@[simp] theorem State.parseShares_seen (s : State) (k : Nat) : (s.parseShares k).seen = s.seen := rfl
@[simp] theorem State.parseShares_coef (s : State) (k : Nat) : (s.parseShares k).coef = s.coef := rfl
@[simp] theorem State.parseShares_sw (s : State) (k : Nat) : (s.parseShares k).sw = [] := rfl
@[simp] theorem State.parseShares_yv (s : State) (k : Nat) : (s.parseShares k).yv = (List.range s.shareWords).map fun j => s.shareYs k s.shareLen j := rfl
@[simp] theorem State.parseShares_mat (s : State) (k : Nat) : (s.parseShares k).mat = s.mat := rfl
@[simp] theorem State.parseShares_cmd (s : State) (k : Nat) : (s.parseShares k).cmd = s.cmd := rfl
@[simp] theorem State.parseShares_pos (s : State) (k : Nat) : (s.parseShares k).pos = s.pos := rfl
@[simp] theorem State.parseShares_epoch (s : State) (k : Nat) : (s.parseShares k).epoch = s.epoch := rfl
@[simp] theorem State.parseShares_agenda (s : State) (k : Nat) : (s.parseShares k).agenda = s.agenda := rfl
@[simp] theorem State.parseShares_answers (s : State) (k : Nat) : (s.parseShares k).answers = s.answers := rfl
@[simp] theorem State.parseShares_reply (s : State) (k : Nat) : (s.parseShares k).reply = s.reply := rfl

/-! ### Writing IN -/

@[simp] theorem State.writeIn_params (s : State) (i : Nat) (v : Byte) : (s.writeIn i v).params = s.params := rfl
@[simp] theorem State.writeIn_cfg (s : State) (i : Nat) (v : Byte) : (s.writeIn i v).cfg = s.cfg := rfl
@[simp] theorem State.writeIn_descLo (s : State) (i : Nat) (v : Byte) : (s.writeIn i v).descLo = s.descLo := rfl
@[simp] theorem State.writeIn_descHi (s : State) (i : Nat) (v : Byte) : (s.writeIn i v).descHi = s.descHi := rfl
@[simp] theorem State.writeIn_state (s : State) (i : Nat) (v : Byte) : (s.writeIn i v).state = s.state := rfl
@[simp] theorem State.writeIn_err (s : State) (i : Nat) (v : Byte) : (s.writeIn i v).err = s.err := rfl
@[simp] theorem State.writeIn_errInfo (s : State) (i : Nat) (v : Byte) : (s.writeIn i v).errInfo = s.errInfo := rfl
@[simp] theorem State.writeIn_outLen (s : State) (i : Nat) (v : Byte) : (s.writeIn i v).outLen = s.outLen := rfl
@[simp] theorem State.writeIn_slen (s : State) (i : Nat) (v : Byte) : (s.writeIn i v).slen = s.slen := rfl
@[simp] theorem State.writeIn_inBuf (s : State) (i : Nat) (v : Byte) : (s.writeIn i v).inBuf = Memory.put i v s.inBuf := rfl
@[simp] theorem State.writeIn_out (s : State) (i : Nat) (v : Byte) : (s.writeIn i v).out = s.out := rfl
@[simp] theorem State.writeIn_xv (s : State) (i : Nat) (v : Byte) : (s.writeIn i v).xv = s.xv := rfl
@[simp] theorem State.writeIn_seen (s : State) (i : Nat) (v : Byte) : (s.writeIn i v).seen = s.seen := rfl
@[simp] theorem State.writeIn_coef (s : State) (i : Nat) (v : Byte) : (s.writeIn i v).coef = s.coef := rfl
@[simp] theorem State.writeIn_sw (s : State) (i : Nat) (v : Byte) : (s.writeIn i v).sw = s.sw := rfl
@[simp] theorem State.writeIn_yv (s : State) (i : Nat) (v : Byte) : (s.writeIn i v).yv = s.yv := rfl
@[simp] theorem State.writeIn_mat (s : State) (i : Nat) (v : Byte) : (s.writeIn i v).mat = s.mat := rfl
@[simp] theorem State.writeIn_cmd (s : State) (i : Nat) (v : Byte) : (s.writeIn i v).cmd = s.cmd := rfl
@[simp] theorem State.writeIn_pos (s : State) (i : Nat) (v : Byte) : (s.writeIn i v).pos = s.pos := rfl
@[simp] theorem State.writeIn_epoch (s : State) (i : Nat) (v : Byte) : (s.writeIn i v).epoch = s.epoch := rfl
@[simp] theorem State.writeIn_agenda (s : State) (i : Nat) (v : Byte) : (s.writeIn i v).agenda = s.agenda := rfl
@[simp] theorem State.writeIn_answers (s : State) (i : Nat) (v : Byte) : (s.writeIn i v).answers = s.answers := rfl
@[simp] theorem State.writeIn_reply (s : State) (i : Nat) (v : Byte) : (s.writeIn i v).reply = s.reply := rfl

/-! ### Writing SLEN -/

@[simp] theorem State.writeSlen_params (s : State) (i : Nat) (v : Word) : (s.writeSlen i v).params = s.params := rfl
@[simp] theorem State.writeSlen_cfg (s : State) (i : Nat) (v : Word) : (s.writeSlen i v).cfg = s.cfg := rfl
@[simp] theorem State.writeSlen_descLo (s : State) (i : Nat) (v : Word) : (s.writeSlen i v).descLo = s.descLo := rfl
@[simp] theorem State.writeSlen_descHi (s : State) (i : Nat) (v : Word) : (s.writeSlen i v).descHi = s.descHi := rfl
@[simp] theorem State.writeSlen_state (s : State) (i : Nat) (v : Word) : (s.writeSlen i v).state = s.state := rfl
@[simp] theorem State.writeSlen_err (s : State) (i : Nat) (v : Word) : (s.writeSlen i v).err = s.err := rfl
@[simp] theorem State.writeSlen_errInfo (s : State) (i : Nat) (v : Word) : (s.writeSlen i v).errInfo = s.errInfo := rfl
@[simp] theorem State.writeSlen_outLen (s : State) (i : Nat) (v : Word) : (s.writeSlen i v).outLen = s.outLen := rfl
@[simp] theorem State.writeSlen_slen (s : State) (i : Nat) (v : Word) : (s.writeSlen i v).slen = Memory.put i v s.slen := rfl
@[simp] theorem State.writeSlen_inBuf (s : State) (i : Nat) (v : Word) : (s.writeSlen i v).inBuf = s.inBuf := rfl
@[simp] theorem State.writeSlen_out (s : State) (i : Nat) (v : Word) : (s.writeSlen i v).out = s.out := rfl
@[simp] theorem State.writeSlen_xv (s : State) (i : Nat) (v : Word) : (s.writeSlen i v).xv = s.xv := rfl
@[simp] theorem State.writeSlen_seen (s : State) (i : Nat) (v : Word) : (s.writeSlen i v).seen = s.seen := rfl
@[simp] theorem State.writeSlen_coef (s : State) (i : Nat) (v : Word) : (s.writeSlen i v).coef = s.coef := rfl
@[simp] theorem State.writeSlen_sw (s : State) (i : Nat) (v : Word) : (s.writeSlen i v).sw = s.sw := rfl
@[simp] theorem State.writeSlen_yv (s : State) (i : Nat) (v : Word) : (s.writeSlen i v).yv = s.yv := rfl
@[simp] theorem State.writeSlen_mat (s : State) (i : Nat) (v : Word) : (s.writeSlen i v).mat = s.mat := rfl
@[simp] theorem State.writeSlen_cmd (s : State) (i : Nat) (v : Word) : (s.writeSlen i v).cmd = s.cmd := rfl
@[simp] theorem State.writeSlen_pos (s : State) (i : Nat) (v : Word) : (s.writeSlen i v).pos = s.pos := rfl
@[simp] theorem State.writeSlen_epoch (s : State) (i : Nat) (v : Word) : (s.writeSlen i v).epoch = s.epoch := rfl
@[simp] theorem State.writeSlen_agenda (s : State) (i : Nat) (v : Word) : (s.writeSlen i v).agenda = s.agenda := rfl
@[simp] theorem State.writeSlen_answers (s : State) (i : Nat) (v : Word) : (s.writeSlen i v).answers = s.answers := rfl
@[simp] theorem State.writeSlen_reply (s : State) (i : Nat) (v : Word) : (s.writeSlen i v).reply = s.reply := rfl

end Sys2Proof.Machine
end

