-- ==== Sys2Proof/Laws/Bus.lean ====
section
/-! SUPPORT. The address map said by place, and what an access does once its place is known. -/

namespace Sys2Proof.Machine

/-! ### The address map (R41) -/

theorem regAt_eq_none {offset : Nat} (h : 0x18 < offset) : regAt offset = none := by
  unfold regAt
  split <;> first | rfl | omega

theorem slenAt_slot {p : Params} {i : Nat} (h : i < p.nmax) : slenAt p (0x40000 + 4 * i) = some (.slen i) := by
  have h1 : (0x40000 + 4 * i - 0x40000) = 4 * i := by omega
  unfold slenAt
  rw [h1, if_pos ⟨by omega, by omega, by omega⟩, Nat.mul_div_cancel_left _ (by omega)]

theorem placeOf_slen {p : Params} {i : Nat} (h : i < p.nmax) : placeOf p (0x40000 + 4 * i) 32 = some (.slen i) := by
  rw [placeOf, if_pos rfl, regAt_eq_none (by omega)]
  exact slenAt_slot h

theorem placeOf_inByte {p : Params} {i : Nat} (h : i < p.bufCap) : placeOf p (0x10000000 + i) 8 = some (.inByte i) := by
  simp [placeOf, bufferAt, h]

theorem Params.CapacityOk.bufCap_le {p : Params} (h : p.CapacityOk) : p.bufCap ≤ 2 ^ 28 := h.2.2.2.2

theorem placeOf_outByte {p : Params} (hc : p.CapacityOk) {i : Nat} (h : i < p.bufCap) :
    placeOf p (0x20000000 + i) 8 = some (.outByte i) := by
  have hb := Params.CapacityOk.bufCap_le hc
  have h1 : 0x20000000 + i - 0x20000000 = i := by omega
  rw [placeOf, if_neg (by decide), if_pos rfl, bufferAt, if_neg (by omega), h1, if_pos ⟨by omega, h⟩]

/-- A 32-bit access reaches a register, or a slot of SLEN; an 8-bit access a byte of IN or OUT; no other reaches anything. -/
theorem placeOf_cases {p : Params} {offset width : Nat} {q : Place} (h : placeOf p offset width = some q) :
    (width = 32 ∧ (regAt offset = some q ∨
      ∃ i < p.nmax, offset = 0x40000 + 4 * i ∧ q = .slen i)) ∨
    (width = 8 ∧ ((∃ i < p.bufCap, offset = 0x10000000 + i ∧ q = .inByte i) ∨
      ∃ i < p.bufCap, offset = 0x20000000 + i ∧ q = .outByte i)) := by
  unfold placeOf at h
  split at h
  · next hw =>
    refine .inl ⟨hw, ?_⟩
    split at h
    · next r hr => exact .inl (hr.trans h)
    · simp only [slenAt] at h
      split at h
      · next hs => exact .inr ⟨_, hs.2.2, by omega, by simpa using h.symm⟩
      · cases h
  · split at h
    · next hw =>
      refine .inr ⟨hw, ?_⟩
      simp only [bufferAt] at h
      split at h
      · next hb => exact .inl ⟨_, hb.2, by omega, by simpa using h.symm⟩
      · split at h
        · next hb => exact .inr ⟨_, hb.2, by omega, by simpa using h.symm⟩
        · cases h
    · cases h

/-! ### Accesses -/

theorem State.hostAccess_read {s : State} {offset width : Nat} {q : Place} (h : placeOf s.params offset width = some q) :
    s.hostAccess (.read offset width) = { s with reply := some (s.readPlace q) } := by
  simp only [State.hostAccess, h]

theorem State.hostAccess_write {s : State} {offset width : Nat} {v : Reg} {q : Place}
    (h : placeOf s.params offset width = some q) :
    s.hostAccess (.write offset width v) = { s.writePlace q v with reply := some .accepted } := by
  simp only [State.hostAccess, h]

/-- While BUSY no write does anything (R53). -/
theorem State.writePlace_busy {s : State} (h : s.state = .busy) (q : Place) (v : Reg) : s.writePlace q v = s := by
  simp only [State.writePlace, h, if_true]

/-- Everything an accepted write can do (R57, R16). -/
theorem State.writePlace_cases (s : State) (q : Place) (v : Reg) :
    s.writePlace q v = s ∨
    (s.state ≠ .busy ∧
      ((q = .cfg ∧ s.writePlace q v = { s with cfg := cfgWritten v }) ∨
       (q = .descLo ∧ s.writePlace q v = { s with descLo := v }) ∨
       (q = .descHi ∧ s.writePlace q v = { s with descHi := v }) ∨
       (∃ i, q = .slen i ∧ s.writePlace q v = s.writeSlen i (v.setWidth 16)) ∨
       (∃ i, q = .inByte i ∧ s.writePlace q v = s.writeIn i (v.setWidth 8)) ∨
       (q = .ctrl ∧ v.getLsbD 0 = true ∧ s.writePlace q v = s.start) ∨
       (q = .ctrl ∧ v.getLsbD 0 = false ∧ v.getLsbD 1 = true ∧ (s.state = .done ∨ s.state = .error) ∧
          s.writePlace q v = s.clear))) := by
  by_cases hb : s.state = .busy
  · exact .inl (State.writePlace_busy hb q v)
  · cases q with
    | cap => left; simp [State.writePlace]
    | cfg => right; refine ⟨hb, .inl ⟨rfl, ?_⟩⟩; simp [State.writePlace, hb]
    | descLo => right; refine ⟨hb, .inr (.inl ⟨rfl, ?_⟩)⟩; simp [State.writePlace, hb]
    | descHi => right; refine ⟨hb, .inr (.inr (.inl ⟨rfl, ?_⟩))⟩; simp [State.writePlace, hb]
    | ctrl =>
      have he : s.writePlace .ctrl v = s.writeCtrl v := by simp only [State.writePlace, hb, if_false]
      rw [he]
      unfold State.writeCtrl
      rw [if_neg hb]
      cases h0 : v.getLsbD 0 with
      | true => exact .inr ⟨hb, .inr (.inr (.inr (.inr (.inr (.inl ⟨rfl, rfl, by simp⟩)))))⟩
      | false =>
        cases h1 : v.getLsbD 1 with
        | false => left; simp
        | true =>
          by_cases hd : s.state = .done ∨ s.state = .error
          · exact .inr ⟨hb, .inr (.inr (.inr (.inr (.inr (.inr ⟨rfl, rfl, rfl, hd, by simp⟩)))))⟩
          · left; simp [State.clear, hd]
    | status => left; simp [State.writePlace]
    | outLen => left; simp [State.writePlace]
    | slen i => right; refine ⟨hb, .inr (.inr (.inr (.inl ⟨i, rfl, ?_⟩)))⟩; simp only [State.writePlace, hb, if_false]
    | inByte i => right; refine ⟨hb, .inr (.inr (.inr (.inr (.inl ⟨i, rfl, ?_⟩))))⟩; simp only [State.writePlace, hb, if_false]
    | outByte i => left; simp [State.writePlace]

end Sys2Proof.Machine
end

