-- ==== Sys2Proof/Laws/Draws.lean ====
section
/-! SUPPORT. What a run of draws can do (drawUntil), and the phases built on it. -/

namespace Sys2Proof.Machine

variable {α : Type} {enough : α → Bool} {take : α → Word → α}

theorem drawUntil_enough {got : α} (h : enough got = true) (as : List Answer) : drawUntil enough take as got = .ready got as := by
  cases as <;> simp [drawUntil, h]

@[simp] theorem drawUntil_nil (got : α) :
    drawUntil enough take [] got = if enough got then .ready got [] else .waiting got := rfl

theorem drawUntil_value {got : α} (h : enough got = false) (v : Word) (rest : List Answer) :
    drawUntil enough take (.value v :: rest) got = drawUntil enough take rest (take got v) := by
  simp [drawUntil, h]

theorem drawUntil_error {got : α} (h : enough got = false) (rest : List Answer) :
    drawUntil enough take (.error :: rest) got = .failed got rest := by
  simp [drawUntil, h]

/-- Everything a run of draws can do: it consumes a run of values, none of them once enough is collected, and then is done,
or meets an error answer, or has no answer left. -/
theorem drawUntil_cases (as : List Answer) (got : α) :
    ∃ vs : List Word, ∃ rest : List Answer, as = vs.map Answer.value ++ rest ∧
      (∀ i < vs.length, enough ((vs.take i).foldl take got) = false) ∧
      ((enough (vs.foldl take got) = true ∧ drawUntil enough take as got = .ready (vs.foldl take got) rest) ∨
       (enough (vs.foldl take got) = false ∧ ∃ rest', rest = .error :: rest' ∧
          drawUntil enough take as got = .failed (vs.foldl take got) rest') ∨
       (enough (vs.foldl take got) = false ∧ rest = [] ∧ drawUntil enough take as got = .waiting (vs.foldl take got))) := by
  induction as generalizing got with
  | nil =>
    refine ⟨[], [], rfl, by simp, ?_⟩
    cases h : enough got <;> simp [h]
  | cons a as ih =>
    cases h : enough got with
    | true => exact ⟨[], a :: as, rfl, by simp, .inl ⟨h, drawUntil_enough h _⟩⟩
    | false =>
      cases a with
      | error => exact ⟨[], .error :: as, rfl, by simp, .inr (.inl ⟨h, as, rfl, drawUntil_error h _⟩)⟩
      | value v =>
        obtain ⟨vs, rest, hs, hpre, hend⟩ := ih (take got v)
        refine ⟨v :: vs, rest, by simp [hs], ?_, ?_⟩
        · intro i hi
          cases i with
          | zero => simpa using h
          | succ i => simpa using hpre i (by simpa using hi)
        · rw [drawUntil_value h]; simpa using hend

/-- While nothing is enough, a run of values is consumed whole. -/
theorem drawUntil_values (vs : List Word) (rest : List Answer) (got : α)
    (h : ∀ i < vs.length, enough ((vs.take i).foldl take got) = false) :
    drawUntil enough take (vs.map Answer.value ++ rest) got = drawUntil enough take rest (vs.foldl take got) := by
  induction vs generalizing got with
  | nil => rfl
  | cons v vs ih =>
    have h0 : enough got = false := by simpa using h 0 (by simp)
    rw [List.map_cons, List.cons_append, drawUntil_value h0, ih]
    · rfl
    · intro i hi
      simpa using h (i + 1) (by simpa using hi)

/-- Answers that come later are drawn later: a run that waits goes on with them. -/
theorem drawUntil_append_waiting {as bs : List Answer} {got g : α} (h : drawUntil enough take as got = .waiting g) :
    drawUntil enough take (as ++ bs) got = drawUntil enough take bs g := by
  induction as generalizing got with
  | nil =>
    rw [drawUntil_nil] at h
    cases he : enough got <;> simp_all
  | cons a as ih =>
    cases he : enough got with
    | true => rw [drawUntil_enough he] at h; cases h
    | false =>
      cases a with
      | error => rw [drawUntil_error he] at h; cases h
      | value v =>
        rw [drawUntil_value he] at h
        rw [List.cons_append, drawUntil_value he, ih h]

theorem drawUntil_append_ready {as bs rest : List Answer} {got g : α} (h : drawUntil enough take as got = .ready g rest) :
    drawUntil enough take (as ++ bs) got = .ready g (rest ++ bs) := by
  induction as generalizing got with
  | nil =>
    rw [drawUntil_nil] at h
    cases he : enough got with
    | false => simp [he] at h
    | true => simp only [he, if_true] at h; cases h; exact drawUntil_enough he _
  | cons a as ih =>
    cases he : enough got with
    | true => rw [drawUntil_enough he] at h; cases h; exact drawUntil_enough he _
    | false =>
      cases a with
      | error => rw [drawUntil_error he] at h; cases h
      | value v =>
        rw [drawUntil_value he] at h
        rw [List.cons_append, drawUntil_value he, ih h]

theorem drawUntil_append_failed {as bs rest : List Answer} {got g : α} (h : drawUntil enough take as got = .failed g rest) :
    drawUntil enough take (as ++ bs) got = .failed g (rest ++ bs) := by
  induction as generalizing got with
  | nil =>
    rw [drawUntil_nil] at h
    cases he : enough got <;> simp [he] at h
  | cons a as ih =>
    cases he : enough got with
    | true => rw [drawUntil_enough he] at h; cases h
    | false =>
      cases a with
      | error =>
        rw [drawUntil_error he] at h; cases h
        rw [List.cons_append, drawUntil_error he]
      | value v =>
        rw [drawUntil_value he] at h
        rw [List.cons_append, drawUntil_value he, ih h]

/-! ### What holds of everything a run of draws collects -/

/-- The collection a run of draws ends with. -/
def Drawn.got {α : Type} : Drawn α → α
  | .ready g _ => g
  | .failed g _ => g
  | .waiting g => g

/-- A property of the collection that every take keeps holds at the end. -/
theorem drawUntil_keeps {P : α → Prop} (hstep : ∀ g v, P g → enough g = false → P (take g v)) (as : List Answer) (got : α)
    (h : P got) : P (drawUntil enough take as got).got := by
  induction as generalizing got with
  | nil => rw [drawUntil_nil]; cases enough got <;> exact h
  | cons a as ih =>
    cases he : enough got with
    | true => rw [drawUntil_enough he]; exact h
    | false =>
      cases a with
      | error => rw [drawUntil_error he]; exact h
      | value v => rw [drawUntil_value he]; exact ih _ (hstep _ _ h he)

/-- A finished run has collected enough. -/
theorem drawUntil_ready_enough {as rest : List Answer} {got g : α} (h : drawUntil enough take as got = .ready g rest) :
    enough g = true := by
  obtain ⟨vs, r, _, _, ⟨he, hd⟩ | ⟨_, _, _, hd⟩ | ⟨_, _, hd⟩⟩ := drawUntil_cases (enough := enough) (take := take) as got
  · rw [hd] at h; cases h; exact he
  · rw [hd] at h; cases h
  · rw [hd] at h; cases h

/-- A waiting run has not collected enough. -/
theorem drawUntil_waiting_enough {as : List Answer} {got g : α} (h : drawUntil enough take as got = .waiting g) :
    enough g = false := by
  obtain ⟨vs, r, _, _, ⟨_, hd⟩ | ⟨_, _, _, hd⟩ | ⟨he, _, hd⟩⟩ := drawUntil_cases (enough := enough) (take := take) as got
  · rw [hd] at h; cases h
  · rw [hd] at h; cases h
  · rw [hd] at h; cases h; exact he

/-! ### Coefficients: every value is kept -/

theorem foldl_append_values (vs : List Word) (c : List Word) : vs.foldl (fun c v => c ++ [v]) c = c ++ vs := by
  induction vs generalizing c with
  | nil => simp
  | cons v vs ih => simp [ih]

/-- The coefficient draws of R113 with enough values answered: exactly the missing ones are consumed, in order. -/
theorem drawCoefs_values (t : Nat) (c vs : List Word) (rest : List Answer) (h : c.length + vs.length = t) :
    drawUntil (fun c => decide (t ≤ c.length)) (fun (c : List Word) v => c ++ [v]) (vs.map Answer.value ++ rest) c =
      .ready (c ++ vs) rest := by
  rw [drawUntil_values, foldl_append_values, drawUntil_enough]
  · simp [← h]
  · intro i hi
    rw [foldl_append_values]
    simp only [List.length_append, List.length_take, decide_eq_false_iff_not]
    omega

/-- An error answer before the last coefficient (R118). -/
theorem drawCoefs_error (t : Nat) (c vs : List Word) (rest : List Answer) (h : c.length + vs.length < t) :
    drawUntil (fun c => decide (t ≤ c.length)) (fun (c : List Word) v => c ++ [v]) (vs.map Answer.value ++ .error :: rest) c =
      .failed (c ++ vs) rest := by
  rw [drawUntil_values, foldl_append_values, drawUntil_error]
  · simp; omega
  · intro i hi
    rw [foldl_append_values]
    simp only [List.length_append, List.length_take, decide_eq_false_iff_not]
    omega

/-! ### Points: the non-zero, fresh values are kept (R101) -/

theorem takeCandidate_zero (got : List Word × List Word) : takeCandidate got 0 = got := rfl

theorem takeCandidate_cases (got : List Word × List Word) (v : Word) :
    takeCandidate got v = got ∨ (v ≠ 0 ∧ v ∉ got.2 ∧ takeCandidate got v = (got.1 ++ [v], v :: got.2)) := by
  unfold takeCandidate
  by_cases h0 : v = 0
  · simp [h0]
  · by_cases h1 : v ∈ got.2
    · exact .inl (by rw [if_neg h0, if_pos h1])
    · exact .inr ⟨h0, h1, by rw [if_neg h0, if_neg h1]⟩

/-- What holds of the points and SEEN along the generator's loop (R101). -/
structure PointsPair (g : List Word × List Word) : Prop where
  nodup : g.1.Nodup
  nonzero : (0 : Word) ∉ g.1
  seen : ∀ v, v ∈ g.2 ↔ v ∈ g.1

theorem PointsPair.empty : PointsPair ([], []) := ⟨List.nodup_nil, by simp, by simp⟩

theorem PointsPair.candidate {g : List Word × List Word} (h : PointsPair g) (v : Word) : PointsPair (takeCandidate g v) := by
  rcases takeCandidate_cases g v with he | ⟨h0, h1, he⟩
  · rw [he]; exact h
  · rw [he]
    refine ⟨?_, ?_, fun w => ?_⟩
    · have : v ∉ g.1 := fun hv => h1 ((h.seen v).2 hv)
      exact List.nodup_append.2 ⟨h.nodup, by simp, fun a ha b hb hab => by
        rw [List.mem_singleton] at hb; subst hb; exact this (hab ▸ ha)⟩
    · simpa using ⟨h.nonzero, fun he => h0 he.symm⟩
    · simp [h.seen w, or_comm]

theorem takeCandidate_length_le (g : List Word × List Word) (v : Word) : (takeCandidate g v).1.length ≤ g.1.length + 1 := by
  rcases takeCandidate_cases g v with he | ⟨_, _, he⟩ <;> simp [he]

end Sys2Proof.Machine
end

