-- ==== Sys2Proof/Laws/Field.lean ====
section
/-! SUPPORT. The default Field instance: a commutative ring of characteristic 2 for every modulus of degree 16 (R82, R83), and a
field, hence lawful (R82 to R85), for the example modulus 0x1100B. -/

namespace Sys2Proof.Machine

@[simp] theorem gfField_add (poly : BitVec 17) (a b : Word) : (gfField poly).add a b = a ^^^ b := rfl

@[simp] theorem gfField_mul (poly : BitVec 17) : (gfField poly).mul = gfMul poly := rfl

@[simp] theorem gfField_inv (poly : BitVec 17) : (gfField poly).inv = gfInv poly := rfl

@[simp] theorem gfField_one (poly : BitVec 17) : (gfField poly).one = 1 := rfl

/-! ### Sums of words (exclusive or) -/

/-- `f 0 ^^^ f 1 ^^^ .. ^^^ f (n-1)`. -/
def xorSum : Nat → (Nat → Word) → Word
  | 0, _ => 0
  | n + 1, f => xorSum n f ^^^ f n

theorem xor_shuffle (a b c d : Word) : (a ^^^ b) ^^^ (c ^^^ d) = (a ^^^ c) ^^^ (b ^^^ d) := by
  rw [BitVec.xor_assoc, BitVec.xor_assoc, ← BitVec.xor_assoc b c d, BitVec.xor_comm b c, BitVec.xor_assoc c b d]

theorem xorSum_xor (n : Nat) (f g : Nat → Word) : (xorSum n fun i => f i ^^^ g i) = xorSum n f ^^^ xorSum n g := by
  induction n with
  | zero => simp [xorSum]
  | succ n ih => simp only [xorSum, ih]; exact xor_shuffle _ _ _ _

theorem xorSum_congr {n : Nat} {f g : Nat → Word} (h : ∀ i < n, f i = g i) : xorSum n f = xorSum n g := by
  induction n with
  | zero => rfl
  | succ n ih => rw [xorSum, xorSum, ih fun i hi => h i (by omega), h n (by omega)]

/-- A map that sends exclusive or to exclusive or. -/
structure XorLinear (L : Word → Word) : Prop where
  xor : ∀ a b, L (a ^^^ b) = L a ^^^ L b

theorem XorLinear.zero {L : Word → Word} (h : XorLinear L) : L 0 = 0 := by
  have := h.xor 0 0
  simpa using this

theorem XorLinear.ite {L : Word → Word} (h : XorLinear L) (c : Bool) (a : Word) :
    L (if c then a else 0) = if c then L a else 0 := by
  cases c
  · simpa using h.zero
  · rfl

theorem XorLinear.sum {L : Word → Word} (h : XorLinear L) (n : Nat) (f : Nat → Word) :
    L (xorSum n f) = xorSum n fun i => L (f i) := by
  induction n with
  | zero => exact h.zero
  | succ n ih => simp only [xorSum, h.xor, ih]

theorem XorLinear.comp {L M : Word → Word} (hL : XorLinear L) (hM : XorLinear M) : XorLinear fun a => L (M a) :=
  ⟨fun a b => by rw [hM.xor, hL.xor]⟩

theorem XorLinear.iterate {L : Word → Word} (h : XorLinear L) (n : Nat) : XorLinear (L^[n]) := by
  induction n with
  | zero => exact ⟨fun _ _ => rfl⟩
  | succ n ih => exact ⟨fun a b => by simp only [Function.iterate_succ_apply', ih.xor, h.xor]⟩

theorem getLsbD_xorSum (n : Nat) (f : Nat → Word) (j : Nat) :
    (xorSum n f).getLsbD j = (List.range n).foldl (fun acc i => acc ^^ (f i).getLsbD j) false := by
  induction n with
  | zero => simp [xorSum]
  | succ n ih => simp [xorSum, List.range_succ, ih]

/-- Every word is the sum of its bits. -/
theorem xorSum_bits (b : Word) : (xorSum 16 fun i => if b.getLsbD i then BitVec.twoPow 16 i else 0) = b := by
  apply BitVec.eq_of_getLsbD_eq
  intro j hj
  simp only [xorSum, BitVec.getLsbD_xor, apply_ite (BitVec.getLsbD · j), BitVec.getLsbD_twoPow]
  interval_cases j <;> simp

/-- Two linear maps that agree on the powers of two agree. -/
theorem XorLinear.ext {L M : Word → Word} (hL : XorLinear L) (hM : XorLinear M)
    (h : ∀ i < 16, L (BitVec.twoPow 16 i) = M (BitVec.twoPow 16 i)) (a : Word) : L a = M a := by
  rw [← xorSum_bits a, hL.sum, hM.sum]
  refine xorSum_congr fun i hi => ?_
  rw [hL.ite, hM.ite, h i hi]

/-! ### Multiplication by `z` -/

/-- One shift of R86's multiplier: the product by `z`, reduced. -/
def xtime (poly : BitVec 17) (v : Word) : Word := (v <<< 1) ^^^ (if v.getLsbD 15 then poly.setWidth 16 else 0)

theorem xtime_linear (poly : BitVec 17) : XorLinear (xtime poly) := by
  refine ⟨fun a b => ?_⟩
  apply BitVec.eq_of_getLsbD_eq
  intro j hj
  simp only [xtime, BitVec.getLsbD_xor, BitVec.getLsbD_shiftLeft]
  cases a.getLsbD 15 <;> cases b.getLsbD 15 <;> cases decide (j < 1) <;> simp [hj] <;>
    cases a.getLsbD (j - 1) <;> cases b.getLsbD (j - 1) <;> cases poly.getLsbD j <;> rfl

/-- One iteration of the multiplier, said of 16-bit words: with bit 16 of `POLY` set the shifted operand stays 16-bit. -/
theorem gfMulStep_eq {poly : BitVec 17} (h : poly.getLsbD 16 = true) (b acc v : Word) (i : Nat) :
    gfMulStep poly b (acc, v.setWidth 17) i = (acc ^^^ (if b.getLsbD i then v else 0), (xtime poly v).setWidth 17) := by
  have hv : ((v.setWidth 17).setWidth 16 : Word) = v := by simp
  unfold gfMulStep
  refine Prod.ext ?_ ?_
  · cases b.getLsbD i <;> simp [hv]
  · apply BitVec.eq_of_getLsbD_eq
    intro j hj
    have h16 : ((v.setWidth 17) <<< 1).getLsbD 16 = v.getLsbD 15 := by simp
    simp only [h16, xtime]
    by_cases hj16 : j = 16
    · subst hj16
      cases hvb : v.getLsbD 15
      · simpa using hvb
      · simpa [show poly[16] = true from h] using hvb
    · have hj' : j < 16 := by omega
      cases hvb : v.getLsbD 15 <;> simp [hj, hj'] <;> rfl

theorem gfMul_fold {poly : BitVec 17} (h : poly.getLsbD 16 = true) (a b : Word) (n : Nat) :
    (List.range n).foldl (gfMulStep poly b) (0, a.setWidth 17) =
      (xorSum n (fun i => if b.getLsbD i then (xtime poly)^[i] a else 0), ((xtime poly)^[n] a).setWidth 17) := by
  induction n with
  | zero => rfl
  | succ n ih =>
    rw [List.range_succ, List.foldl_append, ih, List.foldl_cons, List.foldl_nil, gfMulStep_eq h, xorSum,
      Function.iterate_succ_apply']

/-- The product of R86 as a sum over the bits of the second factor. -/
theorem gfMul_eq_sum {poly : BitVec 17} (h : poly.getLsbD 16 = true) (a b : Word) :
    gfMul poly a b = xorSum 16 fun i => if b.getLsbD i then (xtime poly)^[i] a else 0 := by
  rw [gfMul, gfMul_fold h]

/-! ### Ring laws, for every modulus of degree 16 -/

section ring

variable {poly : BitVec 17} (h : poly.getLsbD 16 = true)
include h

theorem gfMul_linear_left (b : Word) : XorLinear fun a => gfMul poly a b := by
  refine ⟨fun x y => ?_⟩
  simp only [gfMul_eq_sum h, ← xorSum_xor]
  refine xorSum_congr fun i _ => ?_
  rw [((xtime_linear poly).iterate i).xor]
  cases b.getLsbD i <;> simp

theorem gfMul_linear_right (a : Word) : XorLinear fun b => gfMul poly a b := by
  refine ⟨fun x y => ?_⟩
  simp only [gfMul_eq_sum h, ← xorSum_xor]
  refine xorSum_congr fun i _ => ?_
  rw [BitVec.getLsbD_xor]
  cases x.getLsbD i <;> cases y.getLsbD i <;> simp

/-- A linear map that commutes with multiplication by `z` commutes with every product. -/
theorem gfMul_commute {L : Word → Word} (hL : XorLinear L) (hc : ∀ v, L (xtime poly v) = xtime poly (L v)) (a b : Word) :
    L (gfMul poly a b) = gfMul poly (L a) b := by
  have hi : ∀ i v, L ((xtime poly)^[i] v) = (xtime poly)^[i] (L v) := by
    intro i
    induction i with
    | zero => intro v; rfl
    | succ i ih => intro v; simp only [Function.iterate_succ_apply', hc, ih]
  rw [gfMul_eq_sum h, hL.sum, gfMul_eq_sum h]
  exact xorSum_congr fun i _ => by rw [hL.ite, hi]

theorem gfMul_xtime (a b : Word) : gfMul poly (xtime poly a) b = xtime poly (gfMul poly a b) :=
  (gfMul_commute h (xtime_linear poly) (fun _ => rfl) a b).symm

omit h in
theorem xtime_twoPow {i : Nat} (hi : i < 15) : xtime poly (BitVec.twoPow 16 i) = BitVec.twoPow 16 (i + 1) := by
  apply BitVec.eq_of_getLsbD_eq
  intro j hj
  simp only [xtime, BitVec.getLsbD_xor, BitVec.getLsbD_shiftLeft, BitVec.getLsbD_twoPow]
  interval_cases i <;> interval_cases j <;> simp

omit h in
theorem iterate_xtime_one {i : Nat} (hi : i < 16) : (xtime poly)^[i] 1 = BitVec.twoPow 16 i := by
  induction i with
  | zero => rfl
  | succ i ih => rw [Function.iterate_succ_apply', ih (by omega), xtime_twoPow (by omega)]

theorem gfMul_one_left (b : Word) : gfMul poly 1 b = b := by
  rw [gfMul_eq_sum h]
  conv_rhs => rw [← xorSum_bits b]
  exact xorSum_congr fun i hi => by rw [iterate_xtime_one hi]

/-- Products on the right commute. -/
theorem gfMul_right_comm (a b c : Word) : gfMul poly (gfMul poly a b) c = gfMul poly (gfMul poly a c) b :=
  gfMul_commute h (L := fun v => gfMul poly v c) (gfMul_linear_left h c) (fun v => gfMul_xtime h v c) a b

theorem gfMul_comm (a b : Word) : gfMul poly a b = gfMul poly b a := by
  have := gfMul_right_comm h 1 a b
  rwa [gfMul_one_left h, gfMul_one_left h] at this

theorem gfMul_assoc (a b c : Word) : gfMul poly (gfMul poly a b) c = gfMul poly a (gfMul poly b c) := by
  rw [gfMul_comm h a (gfMul poly b c), gfMul_right_comm h b c a, gfMul_comm h a b]

theorem gfMul_one (a : Word) : gfMul poly a 1 = a := by rw [gfMul_comm h, gfMul_one_left h]

theorem gfMul_zero (a : Word) : gfMul poly a 0 = 0 := (gfMul_linear_right h a).zero

theorem gfMul_xor (a b c : Word) : gfMul poly a (b ^^^ c) = gfMul poly a b ^^^ gfMul poly a c := (gfMul_linear_right h a).xor b c

theorem gfMul_mul_mul_comm (a b c d : Word) :
    gfMul poly (gfMul poly a b) (gfMul poly c d) = gfMul poly (gfMul poly a c) (gfMul poly b d) := by
  rw [gfMul_assoc h, ← gfMul_assoc h b c d, gfMul_comm h b c, gfMul_assoc h c b d, ← gfMul_assoc h a c]

/-- Squaring is linear: the field has characteristic 2. -/
theorem gfSquare_linear : XorLinear fun a => gfMul poly a a := by
  refine ⟨fun x y => ?_⟩
  rw [gfMul_xor h, gfMul_comm h (x ^^^ y) x, gfMul_comm h (x ^^^ y) y, gfMul_xor h, gfMul_xor h, gfMul_comm h y x,
    BitVec.xor_assoc, ← BitVec.xor_assoc (gfMul poly x y), BitVec.xor_self, BitVec.zero_xor]

theorem gfSquare_iterate_mul (n : Nat) (x y : Word) :
    (fun a => gfMul poly a a)^[n] (gfMul poly x y) =
      gfMul poly ((fun a => gfMul poly a a)^[n] x) ((fun a => gfMul poly a a)^[n] y) := by
  induction n with
  | zero => rfl
  | succ n ih => simp only [Function.iterate_succ_apply', ih, gfMul_mul_mul_comm h]

omit h in
/-- The product of the first `n` iterated squares after the first power, as the loop of `gfPow65534` makes it. -/
theorem gfPow_fold (a : Word) (n : Nat) :
    (List.range n).foldl (fun (st : Word × Word) _ => (gfMul poly st.1 (gfMul poly st.2 st.2), gfMul poly st.2 st.2)) (1, a) =
      (((List.range n).foldl (fun (st : Word × Word) _ => (gfMul poly st.1 (gfMul poly st.2 st.2), gfMul poly st.2 st.2))
          (1, a)).1, (fun v => gfMul poly v v)^[n] a) := by
  induction n with
  | zero => rfl
  | succ n ih =>
    rw [List.range_succ, List.foldl_append, ih, Function.iterate_succ_apply']
    rfl

/-- With one more factor `a` on each side: `(a^2 a^4 .. a^(2^n)) a` times `a` is the square of the `n`-th iterated square. -/
theorem gfPow_telescope (a : Word) (n : Nat) :
    gfMul poly (gfMul poly ((List.range n).foldl
      (fun (st : Word × Word) _ => (gfMul poly st.1 (gfMul poly st.2 st.2), gfMul poly st.2 st.2)) (1, a)).1 a) a =
      (fun v => gfMul poly v v)^[n + 1] a := by
  induction n with
  | zero => simp only [List.range_zero, List.foldl_nil, gfMul_one_left h, zero_add, Function.iterate_one]
  | succ n ih =>
    rw [List.range_succ, List.foldl_append, gfPow_fold, List.foldl_cons, List.foldl_nil,
      Function.iterate_succ_apply' (n := n + 1), ← ih]
    rw [← Function.iterate_succ_apply' (fun v => gfMul poly v v) n a, ← ih]
    generalize ((List.range n).foldl
      (fun (st : Word × Word) _ => (gfMul poly st.1 (gfMul poly st.2 st.2), gfMul poly st.2 st.2)) (1, a)).1 = p
    rw [gfMul_assoc h p (gfMul poly (gfMul poly p a) a) a, gfMul_comm h (gfMul poly (gfMul poly p a) a) a,
      ← gfMul_assoc h p a, gfMul_right_comm h (gfMul poly p a) (gfMul poly (gfMul poly p a) a) a]

end ring

/-! ### The example modulus is a field -/

theorem examplePoly_monic : (0x1100B : BitVec 17).getLsbD 16 = true := by decide

/-- Sixteen squarings are the identity. -/
theorem examplePoly_frobenius (a : Word) : (fun v => gfMul 0x1100B v v)^[16] a = a := by
  refine XorLinear.ext ((gfSquare_linear examplePoly_monic).iterate 16) (M := fun v => v) ⟨fun _ _ => rfl⟩ (fun i hi => ?_) a
  have : ∀ i : Fin 16, (fun v => gfMul 0x1100B v v)^[16] (BitVec.twoPow 16 i) = BitVec.twoPow 16 i := by decide +kernel
  exact this ⟨i, hi⟩

/-- A linear left inverse of `e ↦ e^2 + e` modulo the constants: its values on the powers of two. -/
def exampleInverseColumns : List Word :=
  [0x015E, 0xA5B4, 0xA5B6, 0x1CF4, 0xA5B2, 0x2820, 0x1CFC, 0x0530, 0xA5A2, 0x96D2, 0x2800, 0x13CC, 0x1CBC, 0x0000, 0x05B0, 0x55B0]

/-- The map with those values. -/
def exampleInverse (v : Word) : Word := xorSum 16 fun i => if v.getLsbD i then exampleInverseColumns.getD i 0 else 0

theorem exampleInverse_linear : XorLinear exampleInverse := by
  refine ⟨fun x y => ?_⟩
  simp only [exampleInverse, ← xorSum_xor]
  refine xorSum_congr fun i _ => ?_
  rw [BitVec.getLsbD_xor]
  cases x.getLsbD i <;> cases y.getLsbD i <;> simp

/-- The only idempotents are 0 and 1. -/
theorem examplePoly_idempotent {e : Word} (he : gfMul 0x1100B e e = e) : e = 0 ∨ e = 1 := by
  have hD : XorLinear fun v : Word => gfMul 0x1100B v v ^^^ v :=
    ⟨fun x y => by rw [(gfSquare_linear examplePoly_monic).xor]; exact xor_shuffle _ _ _ _⟩
  have hand : XorLinear fun v : Word => v &&& 0xFFFE :=
    ⟨fun x y => by
      apply BitVec.eq_of_getLsbD_eq; intro j _
      simp only [BitVec.getLsbD_xor, BitVec.getLsbD_and]
      cases x.getLsbD j <;> cases y.getLsbD j <;> cases (0xFFFE : Word).getLsbD j <;> rfl⟩
  have key : exampleInverse (gfMul 0x1100B e e ^^^ e) = e &&& 0xFFFE := by
    refine XorLinear.ext (exampleInverse_linear.comp hD) hand (fun i hi => ?_) e
    have : ∀ i : Fin 16, exampleInverse (gfMul 0x1100B (BitVec.twoPow 16 i) (BitVec.twoPow 16 i) ^^^ BitVec.twoPow 16 i) =
        BitVec.twoPow 16 i &&& 0xFFFE := by decide +kernel
    exact this ⟨i, hi⟩
  rw [he, BitVec.xor_self] at key
  have hz : e &&& 0xFFFE = 0 := by rw [← key]; exact exampleInverse_linear.zero
  have hbits : ∀ j, 0 < j → j < 16 → e.getLsbD j = false := by
    intro j h0 h1
    have := congrArg (BitVec.getLsbD · j) hz
    simp only [BitVec.getLsbD_and] at this
    interval_cases j <;> simpa using this
  cases h0 : e.getLsbD 0 with
  | false =>
    left; apply BitVec.eq_of_getLsbD_eq; intro j hj
    rcases Nat.eq_zero_or_pos j with rfl | hp
    · simpa using h0
    · simpa using hbits j hp hj
  | true =>
    right; apply BitVec.eq_of_getLsbD_eq; intro j hj
    rcases Nat.eq_zero_or_pos j with rfl | hp
    · simpa using h0
    · rw [hbits j hp hj]; simp [BitVec.getLsbD_one]; omega

/-- `a^65534` is the inverse of `a`, under the example modulus. -/
theorem examplePoly_mul_inv {a : Word} (ha : a ≠ 0) : gfMul 0x1100B a (gfInv 0x1100B a) = 1 := by
  have hm := examplePoly_monic
  rw [gfInv, if_neg ha, gfMul_comm hm]
  have ht := gfPow_telescope hm a 15
  rw [examplePoly_frobenius] at ht
  change gfMul 0x1100B (gfMul 0x1100B (gfPow65534 0x1100B a) a) a = a at ht
  generalize hp : gfPow65534 0x1100B a = p at ht
  have hidem : gfMul 0x1100B (gfMul 0x1100B p a) (gfMul 0x1100B p a) = gfMul 0x1100B p a := by
    rw [← gfMul_assoc hm, gfMul_right_comm hm (gfMul 0x1100B p a) p a, ht, gfMul_comm hm]
  rcases examplePoly_idempotent hidem with h0 | h1
  · rw [h0, gfMul_comm hm, gfMul_zero hm] at ht; exact absurd ht.symm ha
  · exact h1

theorem examplePoly_no_zero_divisors {a b : Word} (hab : gfMul 0x1100B a b = 0) : a = 0 ∨ b = 0 := by
  have hm := examplePoly_monic
  by_cases ha : a = 0
  · exact .inl ha
  · right
    rw [← gfMul_one_left hm b, ← examplePoly_mul_inv ha, gfMul_right_comm hm, hab, gfMul_comm hm, gfMul_zero hm]

/-- The default instance with the example modulus of R86 obeys the laws of R82 to R85. -/
theorem exampleField_lawful : (gfField 0x1100B).Lawful := by
  have hm := examplePoly_monic
  generalize hp : (0x1100B : BitVec 17) = poly at hm
  have hnz : ∀ a b, gfMul poly a b = 0 → a = 0 ∨ b = 0 := fun a b h => by
    subst hp; exact examplePoly_no_zero_divisors h
  have hinv : ∀ a, a ≠ 0 → gfMul poly a (gfInv poly a) = 1 := fun a h => by subst hp; exact examplePoly_mul_inv h
  constructor <;> simp only [gfField_add, gfField_mul, gfField_inv, gfField_one]
  · exact BitVec.xor_comm
  · exact BitVec.xor_assoc
  · exact fun a => BitVec.xor_zero
  · exact fun a => BitVec.xor_self
  · exact gfMul_comm hm
  · exact gfMul_assoc hm
  · exact gfMul_one hm
  · exact gfMul_zero hm
  · exact gfMul_xor hm
  · exact hnz
  · exact hinv

/-- So the reference instance runs with a lawful Field. -/
theorem reference_lawful : (fieldOf Config.reference.field).Lawful := exampleField_lawful

end Sys2Proof.Machine
end

