-- ==== Sys2Proof/Laws/Operands.lean ====
section
/-! SUPPORT. Words, bytes and records: lengths, and reading back what was written (20_memory.md R44, R45, R48). -/

namespace Sys2Proof.Machine

@[simp] theorem length_w2b (w : Word) (bo : Bool) : (w2b w bo).length = 2 := by cases bo <;> rfl

/-- The two bytes of a word, by index. -/
theorem w2b_getD_zero (w : Word) (bo : Bool) : (w2b w bo).getD 0 0 = if bo then w.extractLsb' 0 8 else w.extractLsb' 8 8 := by
  cases bo <;> rfl

theorem w2b_getD_one (w : Word) (bo : Bool) : (w2b w bo).getD 1 0 = if bo then w.extractLsb' 8 8 else w.extractLsb' 0 8 := by
  cases bo <;> rfl

@[simp] theorem wordsToBytes_nil (bo : Bool) : wordsToBytes bo [] = [] := rfl

@[simp] theorem wordsToBytes_cons (bo : Bool) (w : Word) (ws : List Word) :
    wordsToBytes bo (w :: ws) = w2b w bo ++ wordsToBytes bo ws := by simp [wordsToBytes]

@[simp] theorem wordsToBytes_append (bo : Bool) (ws ws' : List Word) :
    wordsToBytes bo (ws ++ ws') = wordsToBytes bo ws ++ wordsToBytes bo ws' := by simp [wordsToBytes]

@[simp] theorem length_wordsToBytes (bo : Bool) (ws : List Word) : (wordsToBytes bo ws).length = 2 * ws.length := by
  induction ws with
  | nil => rfl
  | cons w ws ih => simp only [wordsToBytes_cons, List.length_append, length_w2b, ih, List.length_cons]; omega

@[simp] theorem length_shareBytes (bo : Bool) (x : Word) (ys : List Word) : (shareBytes bo x ys).length = 2 * ys.length + 2 := by
  simp [shareBytes]; omega

/-- Records of one length, back to back. -/
theorem length_flatMap_const {α β : Type} (l : List α) (f : α → List β) (c : Nat) (h : ∀ a ∈ l, (f a).length = c) :
    (l.flatMap f).length = l.length * c := by
  induction l with
  | nil => simp
  | cons a l ih =>
    rw [List.flatMap_cons, List.length_append, h a (by simp), ih fun b hb => h b (by simp [hb]), List.length_cons, Nat.succ_mul]
    omega

/-- The element at place `b` of record `i`. -/
theorem getD_flatMap_const {α β : Type} (l : List α) (f : α → List β) (c : Nat) (d : β) (h : ∀ a ∈ l, (f a).length = c)
    {i b : Nat} (hi : i < l.length) (hb : b < c) : (l.flatMap f).getD (i * c + b) d = (f l[i]).getD b d := by
  induction l generalizing i with
  | nil => cases hi
  | cons a l ih =>
    have ha := h a (by simp)
    cases i with
    | zero =>
      simp only [List.flatMap_cons, Nat.zero_mul, Nat.zero_add, List.getElem_cons_zero, List.getD_eq_getElem?_getD]
      rw [List.getElem?_append_left (by omega)]
    | succ i =>
      have hlt : i < l.length := by simpa using hi
      have hg := ih (fun b hb => h b (by simp [hb])) hlt
      simp only [List.getD_eq_getElem?_getD] at hg ⊢
      rw [List.flatMap_cons, List.getElem?_append_right (by rw [ha, Nat.succ_mul]; omega), ha,
        show (i + 1) * c + b - c = i * c + b by rw [Nat.succ_mul]; omega, hg]
      simp

@[simp] theorem length_sharesBytes (bo : Bool) (xs : List Word) (yv : List (List Word)) :
    (sharesBytes bo xs yv).length = xs.length * (2 * yv.length + 2) := by
  rw [sharesBytes, length_flatMap_const _ _ (2 * yv.length + 2)] <;> simp

@[simp] theorem length_readWords (s : State) (base stride count : Nat) : (s.readWords base stride count).length = count := by
  simp [State.readWords]

@[simp] theorem getElem_readWords (s : State) {base stride count i : Nat} (h : i < (s.readWords base stride count).length) :
    (s.readWords base stride count)[i] = s.readWord (base + stride * i) := by
  simp [State.readWords]

/-! ### The words of a SPLIT -/

/-- The words left once the coefficients of one word are complete. -/
theorem splitWords_cons (t : Nat) (w : Word) (rest : List Word) (s : State) :
    State.splitWords t (w :: rest) s = ((s.beginWord w).splitWord t).bind (State.splitWords t rest) := rfl

@[simp] theorem splitWords_nil (t : Nat) (s : State) : State.splitWords t [] s = .ready s := rfl

theorem combineColumns_cons (ys : List Word) (rest : List (List Word)) (s : State) :
    State.combineColumns (ys :: rest) s =
      match wordCombine s.field s.xv ys with
      | .solved w m => State.combineColumns rest { s with sw := s.sw ++ [w], mat := m }
      | .singular m => State.raise { s with mat := m } .singular := rfl

@[simp] theorem combineColumns_nil (s : State) : State.combineColumns [] s = s.complete (wordsToBytes s.bo s.sw) := rfl

end Sys2Proof.Machine
end

