-- ==== Sys2Proof/Laws/PerInstr.lean ====
section
/-! SUPPORT. Statements made for every instruction, one lemma per constructor. -/

namespace Sys2Proof

/-- Two packed descriptors, bit by bit. -/
theorem Desc.pack_and (op op' flags flags' : Byte) (a a' b b' c c' : Word) :
    Desc.pack op flags a b c &&& Desc.pack op' flags' a' b' c' =
      Desc.pack (op &&& op') (flags &&& flags') (a &&& a') (b &&& b') (c &&& c') := by
  apply BitVec.eq_of_getLsbD_eq
  intro i _
  simp only [Desc.pack, BitVec.getLsbD_and, BitVec.getLsbD_append]
  split
  · rfl
  · split
    · rfl
    · split
      · rfl
      · split <;> rfl

/-- A packed descriptor under a mask given field by field. -/
theorem Desc.pack_and_mask {op flags : Byte} {a b c : Word} {mask : Desc} (opM flagsM : Byte) (aM bM cM : Word)
    (h : mask = Desc.pack opM flagsM aM bM cM) :
    Desc.pack op flags a b c &&& mask = Desc.pack (op &&& opM) (flags &&& flagsM) (a &&& aM) (b &&& bM) (c &&& cM) := by
  rw [h, Desc.pack_and]

namespace Laws.EncodingMatchesRow

/-- The descriptor of a command matches the mask and match of its row of opcode_table.json (30_encoding.md R66). -/
def Statement (i : Instr) : Prop := ∃ row ∈ opcodeTable, row.op = i.opcode ∧ encode i &&& row.mask = row.bits

theorem split (t n len : Nat) : Statement (.split t n len) :=
  ⟨⟨"SPLIT", .split, 0x0000000000000001, 0x000000000000FFFF⟩, by simp [opcodeTable], rfl,
    (Desc.pack_and_mask 0xFF 0xFF 0 0 0 (by decide)).trans (by simp [Instr.opcode]; decide)⟩

theorem combine (k : Nat) : Statement (.combine k) :=
  ⟨⟨"COMBINE", .combine, 0x0000000000000002, 0xFFFF0000FFFFFFFF⟩, by simp [opcodeTable], rfl,
    (Desc.pack_and_mask 0xFF 0xFF 0xFFFF 0 0xFFFF (by decide)).trans (by simp [Instr.opcode]; decide)⟩

theorem genpt (n : Nat) : Statement (.genpt n) :=
  ⟨⟨"GENPT", .genpt, 0x0000000000000010, 0xFFFF0000FFFFFFFF⟩, by simp [opcodeTable], rfl,
    (Desc.pack_and_mask 0xFF 0xFF 0xFFFF 0 0xFFFF (by decide)).trans (by simp [Instr.opcode]; decide)⟩

theorem wsplit (t n : Nat) (s : Word) : Statement (.wsplit t n s) :=
  ⟨⟨"WSPLIT", .wsplit, 0x0000000000000011, 0x000000000000FFFF⟩, by simp [opcodeTable], rfl,
    (Desc.pack_and_mask 0xFF 0xFF 0 0 0 (by decide)).trans (by simp [Instr.opcode]; decide)⟩

theorem wcomb (k : Nat) : Statement (.wcomb k) :=
  ⟨⟨"WCOMB", .wcomb, 0x0000000000000012, 0xFFFF0000FFFFFFFF⟩, by simp [opcodeTable], rfl,
    (Desc.pack_and_mask 0xFF 0xFF 0xFFFF 0 0xFFFF (by decide)).trans (by simp [Instr.opcode]; decide)⟩

theorem peval (t : Nat) (x : Word) : Statement (.peval t x) :=
  ⟨⟨"PEVAL", .peval, 0x0000000000000013, 0x0000FFFF0000FFFF⟩, by simp [opcodeTable], rfl,
    (Desc.pack_and_mask 0xFF 0xFF 0 0xFFFF 0 (by decide)).trans (by simp [Instr.opcode]; decide)⟩

end Laws.EncodingMatchesRow

end Sys2Proof
end

