-- ==== Sys2Proof/Laws/Phases.lean ====
section
/-! SUPPORT. What the phases of a command that draws can do: what they change, what they collect. -/

namespace Sys2Proof.Machine

theorem Keeps.refl (s : State) : Keeps s s := ⟨rfl, rfl, rfl, rfl, rfl, rfl, rfl, rfl, rfl⟩

theorem Keeps.trans {s t u : State} (h : Keeps s t) (h' : Keeps t u) : Keeps s u :=
  ⟨h'.params.trans h.params, h'.cfg.trans h.cfg, h'.descLo.trans h.descLo, h'.descHi.trans h.descHi, h'.slen.trans h.slen,
   h'.inBuf.trans h.inBuf, h'.epoch.trans h.epoch, h'.agenda.trans h.agenda, h'.reply.trans h.reply⟩

/-- What the host and START wrote reads the same after a command. -/
theorem Keeps.readIn {s t : State} (h : Keeps s t) (i : Nat) : t.readIn i = s.readIn i := by
  simp [State.readIn, h.inBuf, h.epoch]

theorem Keeps.readSlen {s t : State} (h : Keeps s t) (i : Nat) : t.readSlen i = s.readSlen i := by
  simp [State.readSlen, h.slen, h.epoch]

theorem Keeps.bo {s t : State} (h : Keeps s t) : t.bo = s.bo := by simp [State.bo, h.cfg]

theorem Keeps.field {s t : State} (h : Keeps s t) : t.field = s.field := by simp [State.field, h.params]

theorem Keeps.desc {s t : State} (h : Keeps s t) : t.desc = s.desc := by simp [State.desc, h.descLo, h.descHi]

/-- The state changed in scratch, position and answers only. -/
structure Quiet (s t : State) : Prop where
  keeps : Keeps s t
  state : t.state = s.state
  err : t.err = s.err
  errInfo : t.errInfo = s.errInfo
  outLen : t.outLen = s.outLen
  out : t.out = s.out
  cmd : t.cmd = s.cmd

theorem Quiet.refl (s : State) : Quiet s s := ⟨.refl s, rfl, rfl, rfl, rfl, rfl, rfl⟩

theorem Quiet.trans {s t u : State} (h : Quiet s t) (h' : Quiet t u) : Quiet s u :=
  ⟨h.keeps.trans h'.keeps, h'.state.trans h.state, h'.err.trans h.err, h'.errInfo.trans h.errInfo,
   h'.outLen.trans h.outLen, h'.out.trans h.out, h'.cmd.trans h.cmd⟩

/-- Completion after a quiet phase is completion. -/
theorem Quiet.completed {s t : State} (h : Quiet s t) (b : List Byte) : Completed s (t.complete b) b :=
  ⟨rfl, rfl, rfl, h.err, h.errInfo, rfl, rfl, h.keeps.trans ⟨rfl, rfl, rfl, rfl, rfl, rfl, rfl, rfl, rfl⟩⟩

/-- Error entry after a quiet phase is error entry. -/
theorem Quiet.raised {s t : State} (h : Quiet s t) (e : Err) : Raised s (t.raise e) e :=
  ⟨rfl, rfl, rfl, rfl, rfl, rfl, rfl, h.keeps.trans ⟨rfl, rfl, rfl, rfl, rfl, rfl, rfl, rfl, rfl⟩⟩

/-- The state a phase leaves. -/
def Phase.state : Phase → State
  | .ready s => s
  | .failed s => s
  | .waiting s => s

/-- Every case of a run of the generator (R101, R104, R91): the points and SEEN it ends with keep `PointsPair`. -/
theorem collectPoints_cases (s : State) (n : Nat) :
    ∃ xv seen rest,
      (PointsPair (s.xv, s.seen) → PointsPair (xv, seen)) ∧ s.xv.length ≤ xv.length ∧
      (s.xv.length ≤ n → xv.length ≤ n) ∧
      ((s.collectPoints n = .ready { s with xv := xv, seen := seen, answers := rest } ∧ n ≤ xv.length) ∨
       (s.collectPoints n = .failed { s with xv := xv, seen := seen, answers := rest } ∧ xv.length < n) ∨
       (s.collectPoints n = .waiting { s with xv := xv, seen := seen, answers := [], pos := .points } ∧ xv.length < n ∧
          rest = [])) := by
  have hp : PointsPair (s.xv, s.seen) → PointsPair
      (drawUntil (fun g => decide (n ≤ g.1.length)) takeCandidate s.answers (s.xv, s.seen)).got :=
    fun h => drawUntil_keeps (P := PointsPair) (fun g v hg _ => hg.candidate v) _ _ h
  have hl : s.xv.length ≤
      (drawUntil (fun g => decide (n ≤ g.1.length)) takeCandidate s.answers (s.xv, s.seen)).got.1.length := by
    refine drawUntil_keeps (P := fun g : List Word × List Word => s.xv.length ≤ g.1.length) (fun g v hg _ => ?_) _ _
      (le_refl _)
    rcases takeCandidate_cases g v with h | ⟨_, _, h⟩ <;> rw [h]
    · exact hg
    · exact le_trans hg (by simp)
  have hn : s.xv.length ≤ n →
      (drawUntil (fun g => decide (n ≤ g.1.length)) takeCandidate s.answers (s.xv, s.seen)).got.1.length ≤ n := by
    intro h0
    refine drawUntil_keeps (P := fun g : List Word × List Word => g.1.length ≤ n) (fun g v _ he => ?_) _ _ h0
    have := takeCandidate_length_le g v
    simp only [decide_eq_false_iff_not] at he
    omega
  obtain ⟨vs, r, _, _, ⟨he, hd⟩ | ⟨he, r', _, hd⟩ | ⟨he, _, hd⟩⟩ :=
    drawUntil_cases (enough := fun g => decide (n ≤ g.1.length)) (take := takeCandidate) s.answers (s.xv, s.seen)
  · rw [hd] at hp hl hn
    exact ⟨_, _, r, hp, hl, hn, .inl ⟨by simp only [State.collectPoints, hd], by simpa using he⟩⟩
  · rw [hd] at hp hl hn
    exact ⟨_, _, r', hp, hl, hn, .inr (.inl ⟨by simp only [State.collectPoints, hd], by simpa using he⟩)⟩
  · rw [hd] at hp hl hn
    exact ⟨_, _, [], hp, hl, hn, .inr (.inr ⟨by simp only [State.collectPoints, hd], by simpa using he, rfl⟩)⟩

theorem collectPoints_quiet (s : State) (n : Nat) : Quiet s (s.collectPoints n).state := by
  obtain ⟨xv, seen, rest, -, -, -, ⟨h, -⟩ | ⟨h, -⟩ | ⟨h, -, -⟩⟩ := collectPoints_cases s n <;> rw [h] <;>
    exact ⟨⟨rfl, rfl, rfl, rfl, rfl, rfl, rfl, rfl, rfl⟩, rfl, rfl, rfl, rfl, rfl, rfl⟩

/-- Every case of the coefficient draws (R113, R118, R91). -/
theorem collectCoefs_cases (s : State) (t : Nat) :
    ∃ vs rest, (s.coef.length ≤ t → s.coef.length + vs.length ≤ t) ∧
      ((s.collectCoefs t = .ready { s with coef := s.coef ++ vs, answers := rest } ∧ t ≤ s.coef.length + vs.length) ∨
       (s.collectCoefs t = .failed { s with coef := s.coef ++ vs, answers := rest } ∧ s.coef.length + vs.length < t) ∨
       (s.collectCoefs t = .waiting { s with coef := s.coef ++ vs, answers := [], pos := .coeffs } ∧
          s.coef.length + vs.length < t)) := by
  obtain ⟨vs, r, _, hpre, hend⟩ :=
    drawUntil_cases (enough := fun c => decide (t ≤ c.length)) (take := fun (c : List Word) v => c ++ [v]) s.answers s.coef
  simp only [foldl_append_values] at hpre hend
  have hn : s.coef.length ≤ t → s.coef.length + vs.length ≤ t := by
    intro h0
    cases hv : vs.length with
    | zero => simpa using h0
    | succ k =>
      have := hpre k (by omega)
      simp only [List.length_append, List.length_take, decide_eq_false_iff_not] at this
      omega
  rcases hend with ⟨he, hd⟩ | ⟨he, r', _, hd⟩ | ⟨he, _, hd⟩
  · exact ⟨vs, r, hn, .inl ⟨by simp only [State.collectCoefs, hd], by simpa using he⟩⟩
  · exact ⟨vs, r', hn, .inr (.inl ⟨by simp only [State.collectCoefs, hd], by simpa using he⟩)⟩
  · exact ⟨vs, [], hn, .inr (.inr ⟨by simp only [State.collectCoefs, hd], by simpa using he⟩)⟩

theorem collectCoefs_quiet (s : State) (t : Nat) : Quiet s (s.collectCoefs t).state := by
  obtain ⟨vs, rest, -, ⟨h, -⟩ | ⟨h, -⟩ | ⟨h, -⟩⟩ := collectCoefs_cases s t <;> rw [h] <;>
    exact ⟨⟨rfl, rfl, rfl, rfl, rfl, rfl, rfl, rfl, rfl⟩, rfl, rfl, rfl, rfl, rfl, rfl⟩

theorem Phase.bind_quiet {s : State} {p : Phase} {next : State → Phase} (hp : Quiet s p.state)
    (hn : ∀ u, Quiet u (next u).state) : Quiet s (p.bind next).state := by
  cases p with
  | ready u => exact hp.trans (hn u)
  | failed u => exact hp
  | waiting u => exact hp

theorem splitWord_quiet (s : State) (t : Nat) : Quiet s (s.splitWord t).state :=
  Phase.bind_quiet (collectCoefs_quiet s t) fun _ => ⟨⟨rfl, rfl, rfl, rfl, rfl, rfl, rfl, rfl, rfl⟩, rfl, rfl, rfl, rfl, rfl, rfl⟩

theorem beginWord_quiet (s : State) (w : Word) : Quiet s (s.beginWord w) :=
  ⟨⟨rfl, rfl, rfl, rfl, rfl, rfl, rfl, rfl, rfl⟩, rfl, rfl, rfl, rfl, rfl, rfl⟩

theorem splitWords_quiet (t : Nat) (ws : List Word) (s : State) : Quiet s (State.splitWords t ws s).state := by
  induction ws generalizing s with
  | nil => exact .refl s
  | cons w rest ih => exact Phase.bind_quiet ((beginWord_quiet s w).trans (splitWord_quiet _ t)) ih

/-! ### Validation -/

/-- The error reported is the first whose condition holds (R175). -/
theorem firstError_eq_some {l : List (Bool × Err)} {e : Err} (h : firstError l = some e) :
    ∃ before after, l = before ++ (true, e) :: after ∧ ∀ c ∈ before, c.1 = false := by
  induction l with
  | nil => simp [firstError] at h
  | cons c l ih =>
    obtain ⟨b, e'⟩ := c
    cases b with
    | true =>
      simp only [firstError, if_true, Option.some.injEq] at h
      exact ⟨[], l, by rw [h]; rfl, by simp⟩
    | false =>
      simp only [firstError, Bool.false_eq_true, if_false] at h
      obtain ⟨x, y, hl, hx⟩ := ih h
      exact ⟨(false, e') :: x, y, by rw [hl]; rfl, by simpa using hx⟩

/-- No error exactly when no condition holds. -/
theorem firstError_eq_none {l : List (Bool × Err)} : firstError l = none ↔ ∀ c ∈ l, c.1 = false := by
  induction l with
  | nil => simp [firstError]
  | cons c l ih =>
    obtain ⟨b, e⟩ := c
    cases b <;> simp [firstError, ih]

theorem genptError_eq_none {p : Params} {n : Nat} : genptError p n = none ↔ n ≠ 0 ∧ n ≤ p.nmax := by
  simp [genptError, firstError_eq_none]

theorem pevalError_eq_none {p : Params} {t : Nat} : pevalError p t = none ↔ t ≠ 0 ∧ t ≤ p.nmax := by
  simp [pevalError, firstError_eq_none]

theorem wcombError_eq_none {p : Params} {k : Nat} : wcombError p k = none ↔ k ≠ 0 ∧ k ≤ p.nmax := by
  simp [wcombError, firstError_eq_none]

theorem wsplitError_eq_none {p : Params} {t n : Nat} :
    wsplitError p t n = none ↔ t ≠ 0 ∧ n ≠ 0 ∧ t ≤ p.nmax ∧ n ≤ p.nmax := by
  simp [wsplitError, firstError_eq_none]

theorem splitError_eq_none {p : Params} {t n len : Nat} :
    splitError p t n len = none ↔ t ≠ 0 ∧ n ≠ 0 ∧ t ≤ n ∧ len ≠ 0 ∧ len % 2 = 0 ∧ n ≤ p.nmax ∧ len / 2 ≤ p.mmax := by
  simp [splitError, firstError_eq_none]

theorem combineError_eq_none {s : State} {k : Nat} :
    s.combineError k = none ↔ k ≠ 0 ∧ k ≤ s.nmax ∧ (∀ i, 1 ≤ i → i < k → s.readSlen i = s.readSlen 0) ∧
      s.shareLen % 2 = 0 ∧ 4 ≤ s.shareLen ∧ s.shareWords ≤ s.mmax := by
  simp [State.combineError, firstError_eq_none]
  intro _ _
  constructor
  · rintro ⟨h, h'⟩; exact ⟨fun i h1 h2 => h i h1 (by omega), h'.1.1, h'.1.2, h'.2⟩
  · rintro ⟨h, h1, h2, h3⟩; exact ⟨fun i hi hk => h i hi (by omega), ⟨h1, h2⟩, h3⟩

end Sys2Proof.Machine
end

