-- ==== Sys2Proof/Tests/Slice0.lean ====
section
/-! SUPPORT. The model's own tests (expected results from 95_test_vectors.md, whose ids are given) and, for each statement with
hypotheses, a state and operands that meet them together (`witness_<statement>`). -/

open Sys2Proof Sys2Proof.Machine

namespace Sys2Proof.Tests

/-! ### Helpers -/

/-- Values at indices from `i` on. -/
def indexed {α : Type} (i : Nat) : List α → List (Nat × α)
  | [] => []
  | v :: rest => (i, v) :: indexed (i + 1) rest

/-- Values as answers of the random source. -/
def values (vs : List Word) : List Answer := vs.map .value

/-- The reference instance right after START of `i`, with these bytes of IN, answers, SLEN entries and CFG. -/
def demo (i : Instr) (bytes : List Byte) (answers : List Answer) (slen : List Word) (cfg : Reg) : State :=
  State.launch { State.reset with cfg := cfg, inBuf := indexed 0 bytes, slen := indexed 0 slen, answers := answers } (encode i)

/-- The state an outcome gives. -/
def after (o : Host.Outcome State Fault Refusal) : State :=
  match o with
  | .next t => t
  | .fault f => nomatch f
  | .refused _ => State.reset

/-- `STATUS` and `OUT` after one step from a demo state. -/
def ends (s : State) : Reg × List Byte := ((after (step s)).statusWord, (after (step s)).out)

theorem demo_lawful (i : Instr) (bytes : List Byte) (answers : List Answer) (slen : List Word) (cfg : Reg) :
    (demo i bytes answers slen cfg).field.Lawful := reference_lawful

/-! ### WellFormed: each operand out of range is refused -/

theorem test_wf_split_t : (Instr.split 65536 3 4).wf = false := by decide
theorem test_wf_split_n : (Instr.split 3 65536 4).wf = false := by decide
theorem test_wf_split_len : (Instr.split 3 3 65536).wf = false := by decide
theorem test_wf_combine : (Instr.combine 65536).wf = false := by decide
theorem test_wf_genpt : (Instr.genpt 65536).wf = false := by decide
theorem test_wf_wsplit_t : (Instr.wsplit 65536 3 0).wf = false := by decide
theorem test_wf_wsplit_n : (Instr.wsplit 3 65536 0).wf = false := by decide
theorem test_wf_wcomb : (Instr.wcomb 65536).wf = false := by decide
theorem test_wf_peval : (Instr.peval 65536 0).wf = false := by decide
theorem test_wf_largest : (Instr.split 65535 65535 65535).wf = true := by decide

/-! ### Decoding: words written out from the encoding (V-ENC), and their encodings -/

theorem test_decode_split : decode 0x0004000300030001 = .legal (.split 3 3 4) ∧
    encode (.split 3 3 4) = 0x0004000300030001 := by decide
theorem test_decode_combine : decode 0x0000000200000002 = .legal (.combine 2) ∧
    encode (.combine 2) = 0x0000000200000002 := by decide
theorem test_decode_genpt : decode 0x0000000300000010 = .legal (.genpt 3) ∧
    encode (.genpt 3) = 0x0000000300000010 := by decide
theorem test_decode_wsplit : decode 0x0009000300020011 = .legal (.wsplit 2 3 0x0009) ∧
    encode (.wsplit 2 3 0x0009) = 0x0009000300020011 := by decide
theorem test_decode_wcomb : decode 0x0000000200000012 = .legal (.wcomb 2) ∧
    encode (.wcomb 2) = 0x0000000200000012 := by decide
theorem test_decode_peval : decode 0x0005000000020013 = .legal (.peval 2 0x0005) ∧
    encode (.peval 2 0x0005) = 0x0005000000020013 := by decide

/-- V-DEC: illegal opcodes and reserved fields. -/
theorem test_decode_illegal :
    [0x0000000000000000, 0x0004000300030003, 0x0004000300020101, 0x0000000300010010, 0x0005000700010013].map decode =
      [.illegal .opcode, .illegal .opcode, .illegal .reserved, .illegal .reserved, .illegal .reserved] := by decide

/-- Every opcode-table row, its operands all zero, runs as the first instruction after reset; what it ends in is its
validation's first error (R175). -/
theorem test_first_after_reset :
    [0x01, 0x02, 0x10, 0x11, 0x12, 0x13].map (fun w => (after (step (State.reset.withFetchWord 64 w))).statusWord) =
      [0x00000113, 0x00000213, 0x00000213, 0x00000113, 0x00000213, 0x00000113] := by decide +kernel

/-! ### The commands -/

/-- V-GP-1. -/
theorem test_genpt : ends (demo (.genpt 3) [] (values [0, 5, 5, 0xffff, 0, 7]) [] 0) =
    (0x00000002, [0x00, 0x05, 0xff, 0xff, 0x00, 0x07]) := by decide +kernel

/-- V-GP-3: an error answer. -/
theorem test_genpt_error : ends (demo (.genpt 2) [] (values [9] ++ [.error]) [] 0) = (0x00000023, []) := by decide +kernel

/-- V-PE-6, little-endian: the operand `x` is not byte-swapped. -/
theorem test_peval : ends (demo (.peval 2 0x0005) [0x09, 0x00, 0x03, 0x00] [] [] 1) = (0x00000002, [0x06, 0x00]) := by
  decide +kernel

/-- V-PE-10: a product of degree 16 and more. -/
theorem test_peval_reduces : ends (demo (.peval 3 0x0002) [0x00, 0xb5, 0x33, 0x33, 0x44, 0x44] [] [] 0) =
    (0x00000002, [0x67, 0xc8]) := by decide +kernel

/-- V-WS-1. -/
theorem test_wsplit : ends (demo (.wsplit 3 3 0xb16b) [0, 1, 0, 2, 0, 3] (values [0x1111, 0x2222]) [] 0) =
    (0x00000002, [0x82, 0x58, 0x1b, 0xc1, 0x28, 0xf2]) := by decide +kernel

/-- V-WS-3, little-endian. -/
theorem test_wsplit_little : ends (demo (.wsplit 2 3 0x0009) [0x05, 0x00, 0xff, 0xff, 0x07, 0x00] (values [3]) [] 1) =
    (0x00000002, [0x06, 0x00, 0x03, 0x10, 0x00, 0x00]) := by decide +kernel

/-- V-WC-7: rows in another order. -/
theorem test_wcomb : ends (demo (.wcomb 3) [0, 3, 0x28, 0xf2, 0, 1, 0x82, 0x58, 0, 2, 0x1b, 0xc1] [] [] 0) =
    (0x00000002, [0xb1, 0x6b]) := by decide +kernel

/-- V-WC-8: a duplicate met with a row swap, and the matrix it leaves. -/
theorem test_wcomb_singular :
    ends (demo (.wcomb 3) [0, 1, 0, 4, 0, 1, 0, 5, 0, 2, 0, 6] [] [] 0) = (0x00000043, []) ∧
    (after (step (demo (.wcomb 3) [0, 1, 0, 4, 0, 1, 0, 5, 0, 2, 0, 6] [] [] 0))).mat =
      [[1, 1, 1, 4], [0, 1, 3, 0xf007], [0, 0, 0, 1]] := by decide +kernel

/-- V-SP-3. -/
theorem test_split :
    ends (demo (.split 3 3 4) [0xb1, 0x6b, 0x00, 0xb5] (values [1, 2, 3, 0x1111, 0x2222, 0x3333, 0x4444]) [] 0) =
      (0x00000002, [0x00, 0x01, 0x82, 0x58, 0x77, 0xc2, 0x00, 0x02, 0x1b, 0xc1, 0x67, 0xc8, 0x00, 0x03, 0x28, 0xf2, 0x10,
        0xbf]) := by decide +kernel

/-- V-SP-1: `t = 1`, a zero and a repeated candidate. -/
theorem test_split_threshold_one : ends (demo (.split 1 2 2) [0xde, 0xad] (values [0xaa, 0, 0xaa, 0xbb0]) [] 0) =
    (0x00000002, [0x00, 0xaa, 0xde, 0xad, 0x0b, 0xb0, 0xde, 0xad]) := by decide +kernel

/-- V-CO-1. -/
theorem test_combine : ends (demo (.combine 2) [0, 4, 0, 0x13, 0, 2, 0, 0x0d] [] [4, 4] 0) = (0x00000002, [0x00, 0x07]) := by
  decide +kernel

/-- V-BO-4: the same bytes under the other byte order. -/
theorem test_combine_little : ends (demo (.combine 2) [0, 2, 0x80, 0, 0, 3, 0, 1] [] [4, 4] 1) =
    (0x00000002, [0x80, 0x03]) := by decide +kernel

/-- V-F-10 to V-F-13, V-F-19, V-F-22: the example modulus. -/
theorem test_field :
    gfMul 0x1100B 0x8000 0x0002 = 0x100b ∧ gfMul 0x1100B 0x0100 0x0100 = 0x100b ∧ gfMul 0x1100B 0x8000 0x8000 = 0x8efa ∧
    gfMul 0x1100B 0xffff 0xffff = 0x0733 ∧ gfInv 0x1100B 0x0002 = 0x8805 ∧ gfInv 0x1100B 0xffff = 0x0894 := by decide +kernel

/-! ### Validation, one clause a place, at the boundary values (V-DEC; R141, R151, R102, R112, R114, R131) -/

theorem test_split_validation :
    [Instr.split 0 0 0, .split 1 0 0, .split 2 1 0, .split 1 1 0, .split 1 1 3, .split 1 256 2, .split 1 1 258].map
      (fun i => (after (step (demo i [] [] [] 0))).statusWord) =
    [0x00000113, 0x00000213, 0x00000313, 0x00000413, 0x00000513, 0x00000613, 0x00000613] := by decide +kernel

theorem test_combine_validation :
    [(Instr.combine 0, []), (.combine 256, []), (.combine 2, [4, 6]), (.combine 2, [3, 3]), (.combine 2, [2, 2]),
      (.combine 1, [260])].map (fun c => (after (step (demo c.1 [] [] c.2 0))).statusWord) =
    [0x00000213, 0x00000613, 0x00000133, 0x00000233, 0x00000233, 0x00000613] := by decide +kernel

theorem test_engine_validation :
    [Instr.genpt 0, .genpt 256, .wsplit 0 1 5, .wsplit 1 0 5, .wsplit 256 1 5, .wsplit 1 256 5, .wcomb 0, .wcomb 256,
      .peval 0 5, .peval 256 5].map (fun i => (after (step (demo i [] [] [] 0))).statusWord) =
    [0x00000213, 0x00000613, 0x00000113, 0x00000213, 0x00000613, 0x00000613, 0x00000213, 0x00000613, 0x00000113,
      0x00000613] := by decide +kernel

/-! ### Host accesses and the life cycle -/

/-- The address map at its edges (R41, R42). -/
theorem test_places :
    [(0x00, 32), (0x18, 32), (0x1c, 32), (0x02, 32), (0x40000, 32), (0x403f8, 32), (0x403fc, 32), (0x40002, 32), (0x10000000, 8),
      (0x100100fd, 8), (0x100100fe, 8), (0x20000000, 8), (0x200100fd, 8), (0x200100fe, 8), (0x10000000, 32), (0x04, 8)].map
      (fun c => placeOf Config.reference c.1 c.2) =
    [some .cap, some .outLen, none, none, some (.slen 0), some (.slen 254), none, none, some (.inByte 0),
      some (.inByte 65789), none, some (.outByte 0), some (.outByte 65789), none, none, none] := by decide +kernel

/-- Program P5's beginning: START right after reset shows BUSY, then ILLEGAL, OPCODE; CLEAR returns to IDLE. -/
theorem test_start_after_reset :
    (State.reset.hostAccess (.write 0x10 32 1)).statusWord = 0x00000001 ∧
    (after (coreTurn (State.reset.hostAccess (.write 0x10 32 1)))).statusWord = 0x00000153 ∧
    ((after (coreTurn (State.reset.hostAccess (.write 0x10 32 1)))).hostAccess (.write 0x10 32 2)).statusWord = 0 := by
  decide +kernel

/-- V-SP-3 with its answers arriving one after another, by the agenda. -/
theorem test_split_trickled :
    (match Host.Core.run Sys2Proof.core 13
        { demo (.split 3 3 4) [0xb1, 0x6b, 0x00, 0xb5] (values [1]) [] 0 with
          agenda := [.core, .answer (.value 2), .core, .answer (.value 3), .core, .answer (.value 0x1111), .core,
            .answer (.value 0x2222), .answer (.value 0x3333), .core, .answer (.value 0x4444), .core, .core] } with
      | .next t => State.out t
      | .fault f => nomatch f
      | .refused _ => []) =
    [0x00, 0x01, 0x82, 0x58, 0x77, 0xc2, 0x00, 0x02, 0x1b, 0xc1, 0x67, 0xc8, 0x00, 0x03, 0x28, 0xf2, 0x10, 0xbf] := by
  decide +kernel

/-! ### Witnesses: encoding and the step -/

theorem witness_DecodeOfEncode : (Instr.split 65535 0 65535).wf = true ∧ (Instr.wsplit 0 65535 0xffff).wf = true := by decide

theorem witness_EncodeOfDecode : decode 0xffffffffffff0001 = .legal (.split 65535 65535 65535) := by decide

theorem witness_IllegalOpcodeEndsAtOnce :
    State.reset.state ≠ .busy ∧ State.reset.desc.op ∉ ([0x01, 0x02, 0x10, 0x11, 0x12, 0x13] : List Byte) := by decide

/-- One state for FLAGS, for `A` or `C` of a command that takes neither, and for `B` of PEVAL. -/
theorem witness_ReservedFieldEndsAtOnce :
    (∃ s : State, s.state ≠ .busy ∧ s.desc.op = Opcode.code .split ∧ s.desc.flags ≠ 0) ∧
    (∃ s : State, s.state ≠ .busy ∧ s.desc.op = Opcode.code .genpt ∧ s.desc.a ≠ 0) ∧
    (∃ s : State, s.state ≠ .busy ∧ s.desc.op = Opcode.code .wcomb ∧ s.desc.c ≠ 0) ∧
    (∃ s : State, s.state ≠ .busy ∧ s.desc.op = Opcode.code .peval ∧ s.desc.b ≠ 0) :=
  ⟨⟨{ State.reset with descLo := 0x00020101 }, by decide⟩, ⟨{ State.reset with descLo := 0x00010010 }, by decide⟩,
   ⟨{ State.reset with descLo := 0x12, descHi := 0x00010000 }, by decide⟩,
   ⟨{ State.reset with descLo := 0x00010013, descHi := 7 }, by decide⟩⟩

theorem witness_StepTakesTheNextTurn :
    State.reset.agenda = [] ∧
    ({ State.reset with agenda := [.core, .reset] } : State).agenda = .core :: [.reset] ∧
    ({ State.reset with agenda := [.access (.read 0 32)] } : State).agenda = .access (.read 0 32) :: [] ∧
    ({ State.reset with agenda := [.reset] } : State).agenda = .reset :: [] ∧
    ({ State.reset with agenda := [.answer .error] } : State).agenda = .answer .error :: [] := ⟨rfl, rfl, rfl, rfl, rfl⟩

theorem witness_StepRunsDecodedInstruction :
    decode ({ State.reset with descLo := 0x10, descHi := 3 } : State).desc = .legal (.genpt 3) ∧
    (demo (.genpt 3) [] [] [] 0).state = .busy ∧ (demo (.genpt 3) [] [] [] 0).cmd = some (.legal (.genpt 3)) ∧
    (demo (.genpt 3) [] [] [] 0).agenda = [] ∧ decodeTableWord 64 0x0000000300000010 = some (.genpt 3) := by decide

/-! ### Witnesses: registers and accesses -/

theorem reference_capacityOk : State.reset.params.CapacityOk := by decide

theorem witness_DescriptorRegisters : State.reset.state ≠ .busy ∧ (demo (.genpt 3) [] [] [] 0).state = .busy := by decide

theorem witness_CapIsAConstantOfTheInstance :
    State.reset.params.CapacityOk ∧ step { State.reset with agenda := [.reset] } = .next (State.applyReset State.reset) :=
  ⟨reference_capacityOk, rfl⟩

theorem witness_CfgKeepsByteOrderAndInterruptEnable :
    State.reset.state ≠ .busy ∧ (demo (.genpt 3) [] [] [] 0).state = .busy := by decide

theorem witness_CtrlWriteStartsOrClears :
    (demo (.genpt 3) [] [] [] 0).state = .busy ∧ State.reset.state ≠ .busy ∧ (0x3 : Reg).getLsbD 0 = true ∧
    (0x2 : Reg).getLsbD 0 = false ∧ (0x2 : Reg).getLsbD 1 = true ∧ (0xFFFFFFFC : Reg).getLsbD 0 = false ∧
    (0xFFFFFFFC : Reg).getLsbD 1 = false := by decide

theorem witness_StartEffect :
    (0x3 : Reg).getLsbD 0 = true ∧ State.reset.state = .idle ∧ (after (step (demo (.wcomb 0) [] [] [] 0))).state = .error ∧
    (after (step (demo (.genpt 1) [] (values [5]) [] 0))).state = .done ∧ (demo (.genpt 3) [] [] [] 0).state = .busy := by
  decide +kernel

theorem witness_ClearEffect :
    (0x2 : Reg).getLsbD 0 = false ∧ (0x2 : Reg).getLsbD 1 = true ∧ State.reset.state = .idle ∧
    (after (step (demo (.wcomb 0) [] [] [] 0))).state = .error ∧
    (after (step (demo (.genpt 1) [] (values [5]) [] 0))).state = .done ∧ (demo (.genpt 3) [] [] [] 0).state = .busy := by
  decide +kernel

/-- With `test_places`, which takes both clauses to the edges of the map. -/
theorem witness_RefusedAccessChangesNothing : State.reset.params.CapacityOk := reference_capacityOk

theorem witness_SlenSlotReadWrite : State.reset.state ≠ .busy ∧ 254 < State.reset.params.nmax := by decide

theorem witness_InByteReadAfterWrite : State.reset.state ≠ .busy ∧ 65789 < State.reset.params.bufCap := by decide

/-- One byte below OUT_LEN, one at it, and a BUSY state. -/
theorem witness_OutReadsWithinOutLen :
    State.reset.params.CapacityOk ∧ 65789 < State.reset.params.bufCap ∧ (demo (.genpt 3) [] [] [] 0).state = .busy ∧
    (after (step (demo (.genpt 1) [] (values [5]) [] 0))).state ≠ .busy ∧
    1 < (after (step (demo (.genpt 1) [] (values [5]) [] 0))).outLen.toNat ∧
    (after (step (demo (.genpt 1) [] (values [5]) [] 0))).outLen.toNat ≤ 2 := by decide +kernel

theorem demo_inv (n : Nat) : (demo (.genpt n) [] [] [] 0).Inv where
  capacity := reference_capacityOk
  cfg_reserved := (by decide : (0 : Reg) &&& 0xFFFFFFFC = 0)
  status := ⟨by simp [demo, State.launch, State.start], fun _ => rfl, fun h => by cases h⟩
  output := ⟨rfl, Nat.zero_le _, fun _ => rfl⟩
  buffers := ⟨rfl, rfl, rfl, rfl⟩
  sequencer := ⟨fun h => absurd rfl h, fun _ => rfl, fun _ => .inl rfl⟩

theorem witness_BusyLocksTheHostOut :
    (demo (.genpt 2) [] [] [] 0).Inv ∧ (demo (.genpt 2) [] [] [] 0).state = .busy ∧
    65789 < (demo (.genpt 2) [] [] [] 0).params.bufCap ∧ 254 < (demo (.genpt 2) [] [] [] 0).params.nmax :=
  ⟨demo_inv 2, rfl, by decide, by decide⟩

theorem witness_ReadsHaveNoSideEffect :
    (∃ t, step { State.reset with agenda := [.access (.read 0x14 32)] } = .next t ∧ t.state = State.reset.state) ∧
    (∀ o w v rest, [Turn.access (.read 0x14 32)] ≠ .access (.write o w v) :: rest) ∧
    (∀ rest, [Turn.access (.read 0x14 32)] ≠ .reset :: rest) ∧ State.reset.params.CapacityOk :=
  ⟨⟨_, rfl, rfl⟩, by simp, by simp, reference_capacityOk⟩

theorem witness_IrqLevel :
    (after (step (demo (.genpt 1) [] (values [5]) [] 2))).irq = true ∧ (0x2 : Reg).getLsbD 1 = true ∧
    (0x1 : Reg).getLsbD 0 = true ∧ (0x1 : Reg).getLsbD 1 = false := by decide +kernel

/-- Every error, and a completion from a state with no error. -/
theorem witness_StatusWordFields :
    (∀ e : Err, Raised State.reset (State.reset.raise e) e) ∧ State.reset.err = .none ∧ State.reset.errInfo = 0 ∧
    Completed State.reset (State.reset.complete [1, 2]) [1, 2] :=
  ⟨fun _ => ⟨rfl, rfl, rfl, rfl, rfl, rfl, rfl, ⟨rfl, rfl, rfl, rfl, rfl, rfl, rfl, rfl, rfl⟩⟩, rfl, rfl,
   ⟨rfl, rfl, rfl, rfl, rfl, rfl, rfl, ⟨rfl, rfl, rfl, rfl, rfl, rfl, rfl, rfl, rfl⟩⟩⟩

theorem witness_SplitSequenceStartsSplit :
    State.reset.state ≠ .busy ∧ ([0xb1, 0x6b] : List Byte).length ≤ State.reset.params.bufCap ∧
    ([0xb1, 0x6b] : List Byte).length < 65536 := by decide

/-! ### Witnesses: the invariant and the life cycle -/

/-- The smallest instance and the largest share count. -/
theorem witness_InvariantAtReset :
    Params.CapacityOk ⟨1, 1, .injected⟩ ∧ Params.CapacityOk ⟨65535, 2047, .polyBasis 0x1100B⟩ := by decide

theorem witness_StepKeepsInvariant :
    (demo (.genpt 1) [] [] [] 0).Inv ∧ ∃ t, step (demo (.genpt 1) [] [] [] 0) = .next t := ⟨demo_inv 1, _, rfl⟩

theorem witness_StateMachineMoves : ∃ t, step (demo (.genpt 0) [] [] [] 0) = .next t ∧ t.state ≠ .busy :=
  ⟨_, rfl, by decide +kernel⟩

theorem witness_ScratchFrame :
    (∃ t, exec (.combine 0) State.reset = .next t) ∧ (∃ t, exec (.genpt 3) State.reset = .next t) ∧
    (∃ t, exec (.wsplit 2 1 7) State.reset = .next t) ∧ (∃ t, exec (.wcomb 2) State.reset = .next t) ∧
    (∃ t, exec (.peval 2 7) State.reset = .next t) ∧ ∃ t, exec (.split 2 3 4) State.reset = .next t :=
  ⟨⟨_, rfl⟩, ⟨_, rfl⟩, ⟨_, rfl⟩, ⟨_, rfl⟩, ⟨_, rfl⟩, ⟨_, rfl⟩⟩

/-- An error of validation, and one of the random source. -/
theorem witness_ErrorEntry :
    (∃ t, coreTurn (demo (.genpt 0) [] [] [] 2) = .next t ∧ t.state = .error ∧ t.err ≠ .rng) ∧
    ∃ t, coreTurn (demo (.genpt 2) [] (values [9] ++ [.error]) [] 2) = .next t ∧ t.state = .error ∧ t.err = .rng :=
  ⟨⟨_, rfl, by decide +kernel⟩, ⟨_, rfl, by decide +kernel⟩⟩

/-- Every "yes" of R174's table. -/
theorem witness_ErrorClassesByCommand :
    [(demo (.split 0 1 2) [] [] [] 0), (demo (.split 1 1 2) [0, 7] [.error] [] 0), (demo (.combine 0) [] [] [] 0),
      (demo (.combine 1) [] [] [3] 0), (demo (.combine 2) [0, 5, 0, 1, 0, 5, 0, 2] [] [4, 4] 0), (demo (.genpt 0) [] [] [] 0),
      (demo (.genpt 1) [] [.error] [] 0), (demo (.wsplit 0 1 5) [] [] [] 0), (demo (.wsplit 2 1 5) [0, 1] [.error] [] 0),
      (demo (.wcomb 0) [] [] [] 0), (demo (.wcomb 2) [0, 5, 0, 1, 0, 5, 0, 2] [] [] 0), (demo (.peval 0 5) [] [] [] 0)].map
        (fun s => (after (step s)).err) =
      [.param, .rng, .param, .format, .singular, .param, .rng, .param, .rng, .param, .singular, .param] := by decide +kernel

/-- A GENPT that holds one point of two. -/
def waitingPoint (answers : List Answer) : State :=
  { demo (.genpt 2) [] answers [] 0 with pos := .points, xv := [5], seen := [5] }

theorem waitingPoint_inv (answers : List Answer) : (waitingPoint answers).Inv where
  capacity := reference_capacityOk
  cfg_reserved := (by decide : (0 : Reg) &&& 0xFFFFFFFC = 0)
  status := ⟨by simp [waitingPoint, demo, State.launch, State.start], fun _ => rfl, fun h => by cases h⟩
  output := ⟨rfl, Nat.zero_le _, fun _ => rfl⟩
  buffers := ⟨rfl, rfl, rfl, rfl⟩
  sequencer := ⟨fun h => absurd rfl h, fun _ => rfl, fun _ => .inr (.inl ⟨rfl,
    ⟨(by decide : ([5] : List Word).Nodup), (by decide : (0 : Word) ∉ [5]), fun _ => Iff.rfl⟩,
    .inl ⟨2, (by decide : some (decode (State.launch State.reset (encode (.genpt 2))).desc) = some (.legal (.genpt 2))),
      (by decide : genptError Config.reference 2 = none), (by decide : 1 < 2)⟩⟩)⟩

theorem witness_UnansweredDrawStaysBusy :
    (waitingPoint []).Inv ∧ (waitingPoint []).state = .busy ∧ (waitingPoint []).pos ≠ .start ∧ (waitingPoint []).answers = [] :=
  ⟨waitingPoint_inv [], rfl, by decide, rfl⟩

/-- A GENPT, a WSPLIT, and a SPLIT that waits for a point and one that waits for the second word's coefficient. -/
theorem witness_AnswersMayComeInPieces :
    (∃ t, exec (.genpt 2) (demo (.genpt 2) [] (values [5]) [] 0) = .next t ∧
      Waits (demo (.genpt 2) [] (values [5]) [] 0) t) ∧
    (∃ t, exec (.wsplit 3 1 7) (demo (.wsplit 3 1 7) [0, 1] (values [5]) [] 0) = .next t ∧
      Waits (demo (.wsplit 3 1 7) [0, 1] (values [5]) [] 0) t) ∧
    (∃ t, exec (.split 2 2 4) (demo (.split 2 2 4) [1, 2, 3, 4] (values [5]) [] 0) = .next t ∧
      Waits (demo (.split 2 2 4) [1, 2, 3, 4] (values [5]) [] 0) t) ∧
    ∃ t, exec (.split 2 2 4) (demo (.split 2 2 4) [1, 2, 3, 4] (values [5, 6, 7]) [] 0) = .next t ∧
      Waits (demo (.split 2 2 4) [1, 2, 3, 4] (values [5, 6, 7]) [] 0) t := by
  refine ⟨⟨_, rfl, ?_⟩, ⟨_, rfl, ?_⟩, ⟨_, rfl, ?_⟩, ⟨_, rfl, ?_⟩⟩ <;> constructor <;>
    first | rfl | exact .inl rfl | exact .inr rfl | (constructor <;> rfl)

/-- One state a clause: in the generator of GENPT, in WSPLIT, and in the generator and at the last coefficient of a SPLIT. -/
theorem witness_FirstErrorAnswerEndsTheCommand :
    (∃ (s : State) (vs : List Word), s.pos = .start ∧ 2 ≤ s.params.nmax ∧
      s.answers = vs.map .value ++ .error :: [] ∧ (kept vs).length < 2) ∧
    (∃ (s : State) (vs : List Word), s.pos = .start ∧ 3 ≤ s.params.nmax ∧
      s.answers = vs.map .value ++ .error :: [] ∧ vs.length < 3 - 1) ∧
    (∃ (s : State) (vs : List Word), s.pos = .start ∧ 3 ≤ s.params.nmax ∧ 4 / 2 ≤ s.params.mmax ∧
      s.answers = vs.map .value ++ .error :: [] ∧ (kept vs).length < 3) ∧
    (∃ (s : State) (vs cs : List Word), s.pos = .start ∧ 3 ≤ s.params.nmax ∧ 4 / 2 ≤ s.params.mmax ∧
      s.answers = vs.map .value ++ cs.map .value ++ .error :: [] ∧ (kept vs).length = 3 ∧ (kept vs.dropLast).length < 3 ∧
      cs.length < 4 / 2 * (3 - 1)) :=
  ⟨⟨demo (.genpt 2) [] (values [9, 9] ++ [.error]) [] 0, [9, 9], by decide +kernel⟩,
   ⟨demo (.wsplit 3 1 5) [0, 1] (values [9] ++ [.error]) [] 0, [9], by decide +kernel⟩,
   ⟨demo (.split 3 3 4) [] (values [9, 8] ++ [.error]) [] 0, [9, 8], by decide +kernel⟩,
   ⟨demo (.split 3 3 4) [] (values [1, 2, 3] ++ values [4, 5, 6] ++ [.error]) [] 0, [1, 2, 3], [4, 5, 6], by decide +kernel⟩⟩

/-- Two states that differ in scratch, in IE and in IN beyond the bytes read. -/
theorem witness_OutcomeDependsOnInputsAlone :
    ∃ s u t v : State, SameInputs s u ∧ coreTurn s = .next t ∧ coreTurn u = .next v ∧ s.xv ≠ u.xv ∧ s.cfg ≠ u.cfg ∧
      s.inBuf ≠ u.inBuf := by
  refine ⟨demo (.peval 1 5) [0, 7, 9] [] [] 0, { demo (.peval 1 5) [0, 7, 8] [] [] 2 with xv := [3] }, _, _, ?_, rfl, rfl,
    by decide, by decide, by decide⟩
  constructor <;> first | rfl | exact fun i hi => absurd hi (Nat.not_lt_zero i) | trivial

theorem witness_DefaultProductIsPolynomialProduct : (0x1100B : BitVec 17).getLsbD 16 = true := by decide

theorem witness_DefaultFieldIsLawful :
    (0x1100B : BitVec 17).getLsbD 16 = true ∧ ∀ a b, (gfField 0x1100B).mul a b = 0 → a = 0 ∨ b = 0 :=
  ⟨by decide, exampleField_lawful.no_zero_divisors⟩

/-! ### Witnesses: the commands -/

/-- With `test_engine_validation`, one operand a clause. -/
theorem witness_EngineCommandValidation :
    State.reset.pos ≠ .points ∧ State.reset.pos ≠ .coeffs ∧ State.reset.params.nmax < 256 := by decide

theorem witness_GenptCollectsDistinctPoints :
    (demo (.genpt 2) [] (values [0, 5, 5, 7] ++ [.error]) [] 0).pos = .start ∧
    2 ≤ (demo (.genpt 2) [] (values [0, 5, 5, 7] ++ [.error]) [] 0).params.nmax ∧
    (demo (.genpt 2) [] (values [0, 5, 5, 7] ++ [.error]) [] 0).answers = ([0, 5, 5, 7] : List Word).map .value ++ [.error] ∧
    (kept [0, 5, 5, 7]).length = 2 ∧ (kept ([0, 5, 5, 7] : List Word).dropLast).length < 2 := by decide +kernel

theorem witness_GenptPointsDistinctNonZero :
    ∃ s t : State, s.Inv ∧ s.state = .busy ∧ s.cmd = some (.legal (.genpt 2)) ∧ coreTurn s = .next t ∧ t.state = .done :=
  ⟨waitingPoint (values [5, 7]), _, waitingPoint_inv _, rfl, rfl, rfl, by decide +kernel⟩

theorem witness_PevalIsThePolynomialValue : ∃ s : State, s.field.Lawful ∧ 255 ≤ s.params.nmax :=
  ⟨State.reset, reference_lawful, by decide⟩

theorem witness_WsplitIsThePolynomialAtEveryPoint :
    ∃ (s : State) (cs : List Word), s.field.Lawful ∧ s.pos = .start ∧ 3 ≤ s.params.nmax ∧
      s.answers = cs.map .value ++ [] ∧ cs.length = 3 - 1 :=
  ⟨demo (.wsplit 3 1 5) [0, 1] (values [9, 0]) [] 0, [9, 0], reference_lawful, by decide +kernel⟩

theorem witness_ThresholdOneSharesTheSecretInClear :
    ∃ (s : State) (vs : List Word), s.field.Lawful ∧ s.pos = .start ∧ 2 ≤ s.params.nmax ∧ 2 / 2 ≤ s.params.mmax ∧
      s.answers = vs.map .value ++ [] ∧ (kept vs).length = 2 ∧ (kept vs.dropLast).length < 2 :=
  ⟨demo (.split 1 2 2) [0xde, 0xad] (values [0xaa, 0, 0xaa, 0xbb0]) [] 0, [0xaa, 0, 0xaa, 0xbb0], reference_lawful,
    by decide +kernel⟩

theorem witness_ValueAtZeroIsTheConstantTerm :
    ∃ s t : State, s.field.Lawful ∧ 1 ≤ s.params.nmax ∧ s.pos = .start ∧ s.state = .busy ∧
      exec (.wsplit 2 2 9) s = .next t ∧ t.state = .done ∧ s.readWord (2 * 0) = 0 :=
  ⟨demo (.wsplit 2 2 9) [0, 0, 0, 5] (values [3]) [] 0, _, reference_lawful, by decide, rfl, rfl, rfl, by decide +kernel,
    by decide +kernel⟩

/-- Two pairs on the line `0x001B + 0x000E x` (V-WC-2). -/
def linePairs : State := demo (.wcomb 2) [0, 2, 0, 7, 0, 3, 0, 9] [] [] 0

theorem linePairs_distinct : ∀ i < 2, ∀ j < 2, linePairs.readWord (4 * i) = linePairs.readWord (4 * j) → i = j := by
  decide +kernel

theorem linePairs_on_line : ∀ i < 2,
    nested linePairs.field [0x001b, 0x000e] (linePairs.readWord (4 * i)) = linePairs.readWord (4 * i + 2) := by decide +kernel

theorem witness_WcombInterpolates :
    linePairs.field.Lawful ∧ 2 ≤ linePairs.params.nmax ∧
    ∀ i < 2, ∀ j < 2, linePairs.readWord (4 * i) = linePairs.readWord (4 * j) → i = j :=
  ⟨reference_lawful, by decide, linePairs_distinct⟩

theorem witness_WcombIsExact :
    linePairs.field.Lawful ∧ 2 ≤ linePairs.params.nmax ∧ ([0x000e] : List Word).length < 2 ∧
    (∀ i < 2, ∀ j < 2, linePairs.readWord (4 * i) = linePairs.readWord (4 * j) → i = j) ∧
    ∀ i < 2, nested linePairs.field (0x001b :: [0x000e]) (linePairs.readWord (4 * i)) = linePairs.readWord (4 * i + 2) :=
  ⟨reference_lawful, by decide, by decide, linePairs_distinct, linePairs_on_line⟩

/-- Both sides are met by some state (`test_wcomb_singular`, `test_wcomb`). -/
theorem witness_WcombSingularExactlyOnDuplicates :
    linePairs.field.Lawful ∧ 2 ≤ linePairs.params.nmax ∧
    ∃ s : State, s.field.Lawful ∧ ∃ i j, i < j ∧ j < 2 ∧ s.readWord (4 * i) = s.readWord (4 * j) :=
  ⟨reference_lawful, by decide, demo (.wcomb 2) [0, 2, 0, 7, 0, 2, 0, 9] [] [] 0, reference_lawful, 0, 1, by decide +kernel⟩

theorem witness_SingleShareReturnsItsValues :
    ∃ s : State, s.field.Lawful ∧ 1 ≤ s.params.nmax ∧ 4 ≤ (s.readSlen 0).toNat ∧ (s.readSlen 0).toNat % 2 = 0 ∧
      ((s.readSlen 0).toNat - 2) / 2 ≤ s.params.mmax :=
  ⟨demo (.combine 1) [0, 9] [] [258] 0, reference_lawful, by decide +kernel⟩

theorem witness_WcombAtZeroReturnsThatValue :
    ∃ s : State, s.field.Lawful ∧ 2 ≤ s.params.nmax ∧ s.readWord (4 * 1) = 0 ∧
      ∀ i < 2, ∀ j < 2, s.readWord (4 * i) = s.readWord (4 * j) → i = j :=
  ⟨demo (.wcomb 2) [0, 5, 0x22, 0x22, 0, 0, 0x11, 0x11] [] [] 0, reference_lawful, by decide +kernel⟩

/-- The first two pairs of V-WC-3, and the first two shares of V-SP-3 (V-CO-5). -/
theorem witness_ShortCombineValue :
    (∃ (s : State) (c : List Word), s.field.Lawful ∧ 2 ≤ s.params.nmax ∧ c.length = 2 + 1 ∧
      (∀ i < 2, ∀ j < 2, s.readWord (4 * i) = s.readWord (4 * j) → i = j) ∧
      ∀ i < 2, nested s.field c (s.readWord (4 * i)) = s.readWord (4 * i + 2)) ∧
    ∃ (s : State) (cs : List (List Word)), s.field.Lawful ∧ 2 ≤ s.params.nmax ∧ (∀ i < 2, s.readSlen i = s.readSlen 0) ∧
      (s.readSlen 0).toNat % 2 = 0 ∧ 4 ≤ (s.readSlen 0).toNat ∧ ((s.readSlen 0).toNat - 2) / 2 ≤ s.params.mmax ∧
      cs.length = ((s.readSlen 0).toNat - 2) / 2 ∧
      (∀ i < 2, ∀ j < 2, s.readWord (i * (s.readSlen 0).toNat) = s.readWord (j * (s.readSlen 0).toNat) → i = j) ∧
      ∀ j < cs.length, (cs.getD j []).length = 2 + 1 ∧ ∀ i < 2,
        nested s.field (cs.getD j []) (s.readWord (i * (s.readSlen 0).toNat)) =
          s.readWord (i * (s.readSlen 0).toNat + 2 + 2 * j) :=
  ⟨⟨demo (.wcomb 2) [0, 1, 0x82, 0x58, 0, 2, 0x1b, 0xc1] [] [] 0, [0xb16b, 0x1111, 0x2222], reference_lawful,
     by decide +kernel⟩,
   ⟨demo (.combine 2) [0, 1, 0x82, 0x58, 0x77, 0xc2, 0, 2, 0x1b, 0xc1, 0x67, 0xc8] [] [6, 6] 0,
     [[0xb16b, 0x1111, 0x2222], [0x00b5, 0x3333, 0x4444]], reference_lawful, by decide +kernel⟩⟩

/-- With `test_split_validation`, one descriptor a clause. -/
theorem witness_SplitValidation :
    State.reset.pos ≠ .start ∧ (demo (.split 1 256 2) [] [] [] 0).pos = .start ∧
    (demo (.split 1 256 2) [] [] [] 0).params.nmax < 256 ∧ (demo (.split 1 1 258) [] [] [] 0).params.mmax < 258 / 2 := by decide

theorem witness_SplitMakesShares :
    ∃ (s : State) (vs cs : List Word), s.field.Lawful ∧ s.pos = .start ∧ 3 ≤ s.params.nmax ∧ 4 / 2 ≤ s.params.mmax ∧
      s.answers = vs.map .value ++ cs.map .value ++ [] ∧ (kept vs).length = 3 ∧ (kept vs.dropLast).length < 3 ∧
      cs.length = 4 / 2 * (3 - 1) :=
  ⟨demo (.split 3 3 4) [0xb1, 0x6b, 0x00, 0xb5] (values [1, 2, 3, 0x1111, 0x2222, 0x3333, 0x4444]) [] 0, [1, 2, 3],
    [0x1111, 0x2222, 0x3333, 0x4444], reference_lawful, by decide +kernel⟩

/-- The SPLIT of V-SP-2, ready to run. -/
def splitDemo : State := demo (.split 2 3 2) [0, 7] (values [2, 3, 4, 5]) [] 0

theorem witness_SplitOutputInvariants :
    ∃ t, splitDemo.Inv ∧ splitDemo.state = .busy ∧ splitDemo.cmd = some (.legal (.split 2 3 2)) ∧
      coreTurn splitDemo = .next t ∧ t.state = .done := by
  refine ⟨_, ⟨reference_capacityOk, by decide, ⟨?_, fun _ => rfl, fun h => by cases h⟩, ⟨rfl, Nat.zero_le _, fun _ => rfl⟩,
    ⟨rfl, rfl, rfl, rfl⟩, ⟨fun h => absurd rfl h, fun _ => rfl, fun _ => .inl rfl⟩⟩, rfl, rfl, rfl, by decide +kernel⟩
  simp [splitDemo, demo, State.launch, State.start]

/-- With `test_combine_validation`, one state a clause. -/
theorem witness_CombineValidation :
    State.reset.params.nmax < 256 ∧
    (∃ i, 1 ≤ i ∧ i < 2 ∧ (demo (.combine 2) [] [] [4, 6] 0).readSlen i ≠ (demo (.combine 2) [] [] [4, 6] 0).readSlen 0) ∧
    (¬ ∃ i, 1 ≤ i ∧ i < 2 ∧ (demo (.combine 2) [] [] [3, 3] 0).readSlen i ≠ (demo (.combine 2) [] [] [3, 3] 0).readSlen 0) ∧
    ((demo (.combine 1) [] [] [2] 0).readSlen 0).toNat < 4 ∧
    (demo (.combine 1) [] [] [260] 0).params.mmax < (((demo (.combine 1) [] [] [260] 0).readSlen 0).toNat - 2) / 2 := by
  refine ⟨by decide, ⟨1, by decide +kernel⟩, ?_, by decide +kernel, by decide +kernel⟩
  rintro ⟨i, h1, h2, h3⟩
  obtain rfl : i = 1 := by omega
  exact h3 (by decide +kernel)

/-- Shares 2 and 0 of V-SP-2. -/
def combineDemo : State := demo (.combine 2) [0, 4, 0, 0x13, 0, 2, 0, 0x0d] [] [4, 4] 0

/-- The same shares in the other order. -/
def combineSwapped : State := demo (.combine 2) [0, 2, 0, 0x0d, 0, 4, 0, 0x13] [] [4, 4] 0

theorem witness_CombineInterpolatesEveryColumn :
    combineDemo.field.Lawful ∧ 2 ≤ combineDemo.params.nmax ∧ (∀ i < 2, combineDemo.readSlen i = combineDemo.readSlen 0) ∧
    (combineDemo.readSlen 0).toNat % 2 = 0 ∧ 4 ≤ (combineDemo.readSlen 0).toNat ∧
    ((combineDemo.readSlen 0).toNat - 2) / 2 ≤ combineDemo.params.mmax ∧
    ∀ i < 2, ∀ j < 2, combineDemo.readWord (i * (combineDemo.readSlen 0).toNat) =
      combineDemo.readWord (j * (combineDemo.readSlen 0).toNat) → i = j := ⟨reference_lawful, by decide +kernel⟩

theorem witness_CombineDuplicateIsSingular :
    ∃ s : State, s.field.Lawful ∧ 2 ≤ s.params.nmax ∧ (∀ i < 2, s.readSlen i = s.readSlen 0) ∧
      (s.readSlen 0).toNat % 2 = 0 ∧ 4 ≤ (s.readSlen 0).toNat ∧ ((s.readSlen 0).toNat - 2) / 2 ≤ s.params.mmax ∧
      s.readWord (0 * (s.readSlen 0).toNat) = s.readWord (1 * (s.readSlen 0).toNat) :=
  ⟨demo (.combine 2) [0, 5, 0x11, 0x11, 0, 5, 0x22, 0x22] [] [4, 4] 0, reference_lawful, by decide +kernel⟩

/-- One state an error class, and the duplicate shares of V-CO-8. -/
theorem witness_EarlyErrorsLeaveScratch :
    (∃ t, coreTurn (demo (.genpt 0) [] [] [] 0) = .next t ∧ t.state = .error ∧ t.err = .param) ∧
    (∃ t, coreTurn (demo (.combine 1) [] [] [3] 0) = .next t ∧ t.state = .error ∧ t.err = .format) ∧
    (∃ t, coreTurn State.reset.start = .next t ∧ t.state = .error ∧ t.err = .illegal) ∧
    ∃ s t : State, s.field.Lawful ∧ s.state = .busy ∧ exec (.combine 2) s = .next t ∧ t.err = .singular ∧ t.state = .error :=
  ⟨⟨_, rfl, by decide +kernel⟩, ⟨_, rfl, by decide +kernel⟩, ⟨_, rfl, by decide +kernel⟩,
   ⟨demo (.combine 2) [0, 5, 0x11, 0x11, 0, 5, 0x22, 0x22] [] [4, 4] 0, _, reference_lawful, rfl, rfl, by decide +kernel⟩⟩

theorem witness_CombineIgnoresShareOrder :
    combineDemo.field.Lawful ∧ combineSwapped.params = combineDemo.params ∧ combineSwapped.bo = combineDemo.bo ∧
    combineDemo.state = .busy ∧ combineSwapped.state = .busy ∧ combineSwapped.err = combineDemo.err ∧
    combineSwapped.errInfo = combineDemo.errInfo ∧ (∀ i < 2, combineSwapped.readSlen i = combineDemo.readSlen i) ∧
    (∀ i < 2, (1 - i) < 2) ∧ (∀ i < 2, ∀ j < 2, 1 - i = 1 - j → i = j) ∧
    ∀ i < 2, ∀ b < (combineDemo.readSlen 0).toNat,
      combineSwapped.readIn (i * (combineDemo.readSlen 0).toNat + b) =
        combineDemo.readIn ((1 - i) * (combineDemo.readSlen 0).toNat + b) := ⟨reference_lawful, by decide +kernel⟩

theorem witness_SplitThenCombineReturnsTheSecret :
    ∃ t, splitDemo.field.Lawful ∧ splitDemo.pos = .start ∧ splitDemo.state = .busy ∧
      exec (.split 2 3 2) splitDemo = .next t ∧ t.state = .done ∧ (∀ i < 2, 2 * (1 - i) < 3) ∧
      (∀ i < 2, ∀ j < 2, 2 * (1 - i) = 2 * (1 - j) → i = j) ∧ combineDemo.params = splitDemo.params ∧
      combineDemo.bo = splitDemo.bo ∧ (∀ i < 2, (combineDemo.readSlen i).toNat = 2 + 2) ∧
      ∀ i < 2, ∀ b < 2 + 2, combineDemo.readIn (i * (2 + 2) + b) = t.out.getD (2 * (1 - i) * (2 + 2) + b) 0 :=
  ⟨_, reference_lawful, rfl, rfl, rfl, by decide +kernel⟩

end Sys2Proof.Tests
end

section
/-! SUPPORT. R9 (00_scope.md): two blocks alike in the inputs of the running command stay alike over a turn of the sequencer. A
relation between the two states is carried through the phases of each command. -/

namespace Sys2Proof.Machine

/-! ### What is the same in both blocks whatever the position -/

/-- `SameInputs` but for the scratch. -/
structure SameShown (s u : State) : Prop where
  params : s.params = u.params
  bo : s.bo = u.bo
  readIn : ∀ i < s.inBytesRead, s.readIn i = u.readIn i
  readSlen : ∀ i < s.slenRead, s.readSlen i = u.readSlen i
  answers : s.answers = u.answers
  cmd : s.cmd = u.cmd
  pos : s.pos = u.pos
  state : s.state = u.state
  err : s.err = u.err
  errInfo : s.errInfo = u.errInfo
  outLen : s.outLen = u.outLen
  out : s.out = u.out

theorem SameInputs.shown {s u : State} (h : SameInputs s u) : SameShown s u :=
  { params := h.params, bo := h.bo, readIn := h.readIn, readSlen := h.readSlen, answers := h.answers, cmd := h.cmd,
    pos := h.pos, state := h.state, err := h.err, errInfo := h.errInfo, outLen := h.outLen, out := h.out }

variable {s u : State}

namespace SameShown

theorem field (h : SameShown s u) : s.field = u.field := congrArg (fun p : Params => fieldOf p.field) h.params

/-- A command that completed with the same bytes has no inputs left to compare. -/
theorem complete (h : SameShown s u) (b : List Byte) : SameInputs (s.complete b) (u.complete b) :=
  { h with
    readIn := fun _ hi => absurd hi (Nat.not_lt_zero _)
    readSlen := fun _ hi => absurd hi (Nat.not_lt_zero _)
    cmd := rfl, pos := rfl, state := rfl, outLen := rfl, out := rfl, scratch := trivial }

theorem raise (h : SameShown s u) (e : Err) : SameInputs (s.raise e) (u.raise e) :=
  { h with
    readIn := fun _ hi => absurd hi (Nat.not_lt_zero _)
    readSlen := fun _ hi => absurd hi (Nat.not_lt_zero _)
    cmd := rfl, pos := rfl, state := rfl, err := rfl, errInfo := rfl, outLen := rfl, out := rfl, scratch := trivial }

/-- Words of IN that lie in the bytes read. -/
theorem readWords (h : SameShown s u) {base stride count : Nat}
    (hb : ∀ i < count, base + stride * i + 2 ≤ s.inBytesRead) :
    s.readWords base stride count = u.readWords base stride count := by
  refine List.map_congr_left fun i hi => ?_
  have := hb i (List.mem_range.1 hi)
  rw [State.readWord, State.readWord, h.readIn _ (by omega), h.readIn _ (by omega), h.bo]

end SameShown

/-! ### Phases -/

/-- Two phases that end the same way: done in states related by `R`, or both at an error answer, or both waiting, alike in the
inputs of the resumed command. -/
inductive Phase.Alike (R : State → State → Prop) : Phase → Phase → Prop where
  | ready {s u : State} : R s u → Phase.Alike R (.ready s) (.ready u)
  | failed {s u : State} : SameShown s u → Phase.Alike R (.failed s) (.failed u)
  | waiting {s u : State} : SameInputs s u → Phase.Alike R (.waiting s) (.waiting u)

theorem Phase.Alike.bind {R R' : State → State → Prop} {p q : Phase} {next : State → Phase} (h : p.Alike R q)
    (hn : ∀ {s u}, R s u → (next s).Alike R' (next u)) : (p.bind next).Alike R' (q.bind next) := by
  cases h with
  | ready hr => exact hn hr
  | failed hf => exact .failed hf
  | waiting hw => exact .waiting hw

theorem Phase.Alike.andThen {R : State → State → Prop} {p q : Phase} {next : State → State} (h : p.Alike R q)
    (hn : ∀ {s u}, R s u → SameInputs (next s) (next u)) : SameInputs (p.andThen next) (q.andThen next) := by
  cases h with
  | ready hr => exact hn hr
  | failed hf => exact hf.raise .rng
  | waiting hw => exact hw

/-- The draws of the generator on the same answers, from the same points and SEEN, end with the same ones (R101). -/
theorem collectPoints_alike {R : State → State → Prop} (n : Nat) (h : SameShown s u) (hxv : s.xv = u.xv)
    (hseen : s.seen = u.seen)
    (hready : ∀ xv seen rest, R { s with xv := xv, seen := seen, answers := rest }
      { u with xv := xv, seen := seen, answers := rest })
    (hwait : ∀ xv seen, SameScratch { s with xv := xv, seen := seen, pos := .points }
      { u with xv := xv, seen := seen, pos := .points }) :
    (s.collectPoints n).Alike R (u.collectPoints n) := by
  unfold State.collectPoints
  rw [← h.answers, ← hxv, ← hseen]
  cases drawUntil (fun g : List Word × List Word => decide (n ≤ g.1.length)) takeCandidate s.answers (s.xv, s.seen) with
  | ready g rest => exact .ready (hready _ _ _)
  | failed g rest => exact .failed { h with answers := rfl }
  | waiting g => exact .waiting { h with answers := rfl, pos := rfl, scratch := hwait _ _ }

/-- The draws of a word's coefficients on the same answers, from the same COEF, end with the same one (R113). -/
theorem collectCoefs_alike {R : State → State → Prop} (t : Nat) (h : SameShown s u) (hcoef : s.coef = u.coef)
    (hready : ∀ coef rest, R { s with coef := coef, answers := rest } { u with coef := coef, answers := rest })
    (hwait : ∀ coef, SameScratch { s with coef := coef, pos := .coeffs } { u with coef := coef, pos := .coeffs }) :
    (s.collectCoefs t).Alike R (u.collectCoefs t) := by
  unfold State.collectCoefs
  rw [← h.answers, ← hcoef]
  cases drawUntil (fun c : List Word => decide (t ≤ c.length)) (fun c v => c ++ [v]) s.answers s.coef with
  | ready c rest => exact .ready (hready _ _)
  | failed c rest => exact .failed { h with answers := rfl }
  | waiting c => exact .waiting { h with answers := rfl, pos := rfl, scratch := hwait _ }

/-! ### GENPT, WSPLIT, PEVAL, WCOMB -/

/-- Both outcomes are next states, alike in the inputs of what still runs. -/
def OutcomesAlike (o o' : Host.Outcome State Fault Refusal) : Prop :=
  ∃ t v, o = .next t ∧ o' = .next v ∧ SameInputs t v

theorem SameInputs.outcomes {t v : State} (h : SameInputs t v) : OutcomesAlike (.next t) (.next v) := ⟨t, v, rfl, rfl, h⟩

theorem genptRun_alike {n : Nat} (h : SameShown s u) (hcmd : s.cmd = some (.legal (.genpt n))) (hxv : s.xv = u.xv)
    (hseen : s.seen = u.seen) : SameInputs (s.genptRun n) (u.genptRun n) := by
  refine (collectPoints_alike (R := fun s u => SameShown s u ∧ s.xv = u.xv) n h hxv hseen
    (fun _ _ _ => ⟨{ h with answers := rfl }, rfl⟩) (fun _ _ => by simp [SameScratch, hcmd])).andThen ?_
  rintro s u ⟨h, hxv⟩
  rw [h.bo, hxv]
  exact h.complete _

theorem execGenpt_alike {n : Nat} (h : SameInputs s u) (hcmd : s.cmd = some (.legal (.genpt n))) :
    OutcomesAlike (execGenpt n s) (execGenpt n u) := by
  refine SameInputs.outcomes ?_
  rw [← h.pos, ← h.params]
  by_cases hp : s.pos = .points
  · obtain ⟨hxv, hseen⟩ : s.xv = u.xv ∧ s.seen = u.seen := by simpa [SameScratch, hp, hcmd] using h.scratch
    rw [if_pos hp, if_pos hp]
    exact genptRun_alike h.shown hcmd hxv hseen
  · rw [if_neg hp, if_neg hp]
    cases genptError s.params n with
    | some e => exact h.shown.raise e
    | none => exact genptRun_alike { h.shown with } hcmd rfl rfl

theorem wsplitRun_alike {t n : Nat} {w : Word} (h : SameShown s u) (hcmd : s.cmd = some (.legal (.wsplit t n w)))
    (hxv : s.xv = u.xv) (hcoef : s.coef = u.coef) : SameInputs (s.wsplitRun t) (u.wsplitRun t) := by
  refine (collectCoefs_alike (R := fun s u => SameShown s u ∧ s.xv = u.xv ∧ s.coef = u.coef) t h hcoef
    (fun _ _ => ⟨{ h with answers := rfl }, hxv, rfl⟩) (fun _ => by simp [SameScratch, hcmd, hxv])).andThen ?_
  rintro s u ⟨h, hxv, hcoef⟩
  rw [h.bo, State.yValues, State.yValues, h.field, hxv, hcoef]
  exact h.complete _

theorem execWsplit_alike {t n : Nat} {w : Word} (h : SameInputs s u) (hcmd : s.cmd = some (.legal (.wsplit t n w))) :
    OutcomesAlike (execWsplit t n w s) (execWsplit t n w u) := by
  refine SameInputs.outcomes ?_
  rw [← h.pos, ← h.params]
  by_cases hp : s.pos = .coeffs
  · obtain ⟨hxv, hcoef⟩ : s.xv = u.xv ∧ s.coef = u.coef := by simpa [SameScratch, hp, hcmd] using h.scratch
    rw [if_pos hp, if_pos hp]
    exact wsplitRun_alike h.shown hcmd hxv hcoef
  · rw [if_neg hp, if_neg hp]
    cases wsplitError s.params t n with
    | some e => exact h.shown.raise e
    | none =>
      have hxv : s.pointXs n = u.pointXs n :=
        h.shown.readWords fun i hi => by simp only [State.inBytesRead, hcmd]; omega
      exact wsplitRun_alike { h.shown with params := rfl, pos := rfl } hcmd hxv rfl

theorem execPeval_alike {t : Nat} {x : Word} (h : SameInputs s u) (hcmd : s.cmd = some (.legal (.peval t x))) :
    OutcomesAlike (execPeval t x s) (execPeval t x u) := by
  refine SameInputs.outcomes ?_
  rw [← h.params]
  cases pevalError s.params t with
  | some e => exact h.shown.raise e
  | none =>
    have hcoef : s.coefWords t = u.coefWords t :=
      h.shown.readWords fun i hi => by simp only [State.inBytesRead, hcmd]; omega
    simp only [State.pevalRun, hcoef, h.shown.field, h.bo]
    refine SameShown.complete ?_ _
    exact { h.shown with }

theorem execWcomb_alike {k : Nat} (h : SameInputs s u) (hcmd : s.cmd = some (.legal (.wcomb k))) :
    OutcomesAlike (execWcomb k s) (execWcomb k u) := by
  refine SameInputs.outcomes ?_
  rw [← h.params]
  cases wcombError s.params k with
  | some e => exact h.shown.raise e
  | none =>
    have hxs : s.pairXs k = u.pairXs k := h.shown.readWords fun i hi => by simp only [State.inBytesRead, hcmd]; omega
    have hys : s.pairYs k = u.pairYs k := h.shown.readWords fun i hi => by simp only [State.inBytesRead, hcmd]; omega
    simp only [State.wcombRun, hxs, hys, h.shown.field, h.bo]
    cases wordCombine u.field (u.pairXs k) (u.pairYs k) with
    | solved w m =>
      refine SameShown.complete ?_ _
      exact { h.shown with }
    | singular m =>
      refine SameShown.raise ?_ _
      exact { h.shown with }

/-! ### SPLIT -/

/-- Between the words of a SPLIT (R144): alike with the same points, secret words and rows. COEF and SEEN are not read again. -/
structure SameSplit (s u : State) : Prop extends SameShown s u where
  xv : s.xv = u.xv
  sw : s.sw = u.sw
  yv : s.yv = u.yv

theorem SameSplit.sameScratch_of_coeffs (h : SameSplit s u) (hpos : s.pos = .coeffs) (hcoef : s.coef = u.coef) :
    SameScratch s u := by
  unfold SameScratch
  rw [hpos]
  split
  · contradiction
  · contradiction
  · exact ⟨h.xv, hcoef⟩
  · exact ⟨h.xv, hcoef, h.sw, h.yv⟩
  · trivial

theorem SameSplit.splitWord (t : Nat) (h : SameSplit s u) (hcoef : s.coef = u.coef) :
    (s.splitWord t).Alike SameSplit (u.splitWord t) := by
  refine (collectCoefs_alike (R := fun s u => SameSplit s u ∧ s.coef = u.coef) t h.toSameShown hcoef
    (fun _ _ => ⟨{ h with answers := rfl }, rfl⟩)
    (fun _ => SameSplit.sameScratch_of_coeffs { h with pos := rfl } rfl rfl)).bind ?_
  rintro s u ⟨h, hcoef⟩
  refine .ready { h with yv := ?_ }
  simp only [State.yValues, h.field, h.xv, hcoef, h.yv]

theorem SameSplit.splitWords (t : Nat) (ws : List Word) (h : SameSplit s u) :
    (State.splitWords t ws s).Alike SameSplit (State.splitWords t ws u) := by
  induction ws generalizing s u with
  | nil => exact .ready h
  | cons w rest ih => exact (SameSplit.splitWord (s := s.beginWord w) (u := u.beginWord w) t { h with } rfl).bind ih

theorem SameSplit.finish (h : SameSplit s u) : SameInputs s.splitFinish u.splitFinish := by
  rw [State.splitFinish, State.splitFinish, h.bo, h.xv, h.yv]
  exact h.complete _

theorem splitFromPoints_alike {t n len : Nat} (h : SameShown s u) (hcmd : s.cmd = some (.legal (.split t n len)))
    (hxv : s.xv = u.xv) (hseen : s.seen = u.seen) (hsw : s.sw = u.sw) :
    SameInputs (s.splitFromPoints t n) (u.splitFromPoints t n) := by
  refine ((collectPoints_alike (R := fun s u => SameShown s u ∧ s.xv = u.xv ∧ s.sw = u.sw) n h hxv hseen
    (fun _ _ _ => ⟨{ h with answers := rfl }, rfl, hsw⟩)
    (fun _ _ => by simp [SameScratch, hcmd, hsw])).bind ?_).andThen SameSplit.finish
  rintro s u ⟨h, hxv, hsw⟩
  rw [hsw]
  exact SameSplit.splitWords t _ { h with xv := hxv, sw := rfl, yv := rfl }

theorem splitFromCoefs_alike (t : Nat) (h : SameSplit s u) (hcoef : s.coef = u.coef) :
    SameInputs (s.splitFromCoefs t) (u.splitFromCoefs t) := by
  refine ((h.splitWord t hcoef).bind fun {s u} h => ?_).andThen SameSplit.finish
  rw [h.sw, h.yv]
  exact h.splitWords t _

theorem execSplit_alike {t n len : Nat} (h : SameInputs s u) (hcmd : s.cmd = some (.legal (.split t n len))) :
    OutcomesAlike (execSplit t n len s) (execSplit t n len u) := by
  refine SameInputs.outcomes ?_
  rw [← h.pos, ← h.params]
  by_cases hp : s.pos = .points
  · obtain ⟨hxv, hseen, hsw⟩ : s.xv = u.xv ∧ s.seen = u.seen ∧ s.sw = u.sw := by
      simpa [SameScratch, hp, hcmd] using h.scratch
    rw [if_pos hp, if_pos hp]
    exact splitFromPoints_alike h.shown hcmd hxv hseen hsw
  rw [if_neg hp, if_neg hp]
  by_cases hc : s.pos = .coeffs
  · obtain ⟨hxv, hcoef, hsw, hyv⟩ : s.xv = u.xv ∧ s.coef = u.coef ∧ s.sw = u.sw ∧ s.yv = u.yv := by
      simpa [SameScratch, hc, hcmd] using h.scratch
    rw [if_pos hc, if_pos hc]
    exact splitFromCoefs_alike t { h.shown with xv := hxv, sw := hsw, yv := hyv } hcoef
  rw [if_neg hc, if_neg hc]
  cases splitError s.params t n len with
  | some e => exact h.shown.raise e
  | none =>
    have hsw : s.secretWords (len / 2) = u.secretWords (len / 2) :=
      h.shown.readWords fun i hi => by simp only [State.inBytesRead, hcmd]; omega
    exact splitFromPoints_alike { h.shown with params := rfl, pos := rfl } hcmd rfl rfl hsw

/-! ### COMBINE -/

theorem shareWords_congr (h : s.shareLen = u.shareLen) : s.shareWords = u.shareWords := by
  rw [State.shareWords, State.shareWords, h]

/-- COMBINE's validation looks at the SLEN entries below `k` alone (R151), at none when `k = 0`. -/
theorem combineError_congr {k : Nat} (hparams : s.params = u.params) (hslen : ∀ i < k, s.readSlen i = u.readSlen i) :
    s.combineError k = u.combineError k := by
  cases k with
  | zero => rfl
  | succ k =>
    have h0 : s.readSlen 0 = u.readSlen 0 := hslen 0 (by omega)
    have hlen : s.shareLen = u.shareLen := congrArg BitVec.toNat h0
    have hnmax : s.nmax = u.nmax := congrArg Params.nmax hparams
    have hmmax : s.mmax = u.mmax := congrArg Params.mmax hparams
    have hany : ((List.range' 1 (k + 1 - 1)).any fun i => s.readSlen i ≠ s.readSlen 0) =
        (List.range' 1 (k + 1 - 1)).any fun i => u.readSlen i ≠ u.readSlen 0 := by
      rw [Bool.eq_iff_iff, List.any_eq_true, List.any_eq_true]
      refine exists_congr fun i => and_congr_right fun hi => ?_
      rw [h0, hslen i (by rw [List.mem_range'_1] at hi; omega)]
    rw [State.combineError, State.combineError, hany, hlen, hnmax, hmmax, shareWords_congr hlen]

/-- The shares parsed are those of the bytes of IN read (R48, R152). -/
theorem SameShown.parseShares {k : Nat} (h : SameShown s u) (hcmd : s.cmd = some (.legal (.combine k)))
    (hok : s.combineError k = none) :
    SameShown (s.parseShares k) (u.parseShares k) ∧ (s.parseShares k).xv = (u.parseShares k).xv ∧
      (s.parseShares k).yv = (u.parseShares k).yv := by
  obtain ⟨hk, -, -, -, hlen, -⟩ := combineError_eq_none.1 hok
  have hS : s.shareLen = u.shareLen :=
    congrArg BitVec.toNat (h.readSlen 0 (by simp only [State.slenRead, hcmd]; omega))
  have hread : s.inBytesRead = k * s.shareLen := by simp only [State.inBytesRead, hcmd, State.shareLen]
  have hshare : ∀ i < k, s.shareLen * i + s.shareLen ≤ s.inBytesRead := fun i hi => by
    rw [hread, ← Nat.mul_succ, Nat.mul_comm]; exact Nat.mul_le_mul_right _ hi
  refine ⟨{ h with }, ?_, ?_⟩
  · rw [State.parseShares_xv, State.parseShares_xv, ← hS]
    exact h.readWords fun i hi => by have := hshare i hi; omega
  · rw [State.parseShares_yv, State.parseShares_yv, ← hS, ← shareWords_congr hS]
    refine List.map_congr_left fun j hj => h.readWords fun i hi => ?_
    have hj : j < (s.shareLen - 2) / 2 := List.mem_range.1 hj
    have := hshare i hi
    omega

theorem combineColumns_alike (cols : List (List Word)) (h : SameShown s u) (hxv : s.xv = u.xv) (hsw : s.sw = u.sw) :
    SameInputs (State.combineColumns cols s) (State.combineColumns cols u) := by
  induction cols generalizing s u with
  | nil =>
    rw [combineColumns_nil, combineColumns_nil, h.bo, hsw]
    exact h.complete _
  | cons ys rest ih =>
    rw [combineColumns_cons, combineColumns_cons, h.field, hxv]
    cases wordCombine u.field u.xv ys with
    | solved w m => exact ih { h with } rfl (congrArg (· ++ [w]) hsw)
    | singular m =>
      refine SameShown.raise ?_ _
      exact { h with }

theorem execCombine_alike {k : Nat} (h : SameInputs s u) (hcmd : s.cmd = some (.legal (.combine k))) :
    OutcomesAlike (execCombine k s) (execCombine k u) := by
  have hslen : ∀ i < k, s.readSlen i = u.readSlen i := fun i hi => h.readSlen i (by simpa only [State.slenRead, hcmd] using hi)
  refine SameInputs.outcomes ?_
  rw [← combineError_congr h.params hslen]
  cases herr : s.combineError k with
  | some e => exact h.shown.raise e
  | none =>
    obtain ⟨hshown, hxv, hyv⟩ := h.shown.parseShares hcmd herr
    simp only [State.combineRun]
    rw [hyv]
    exact combineColumns_alike _ hshown hxv rfl

/-! ### The turn -/

theorem exec_alike {i : Instr} (h : SameInputs s u) (hcmd : s.cmd = some (.legal i)) : OutcomesAlike (exec i s) (exec i u) := by
  cases i with
  | split t n len => exact execSplit_alike h hcmd
  | combine k => exact execCombine_alike h hcmd
  | genpt n => exact execGenpt_alike h hcmd
  | wsplit t n w => exact execWsplit_alike h hcmd
  | wcomb k => exact execWcomb_alike h hcmd
  | peval t x => exact execPeval_alike h hcmd

theorem coreTurn_alike (h : SameInputs s u) : OutcomesAlike (coreTurn s) (coreTurn u) := by
  rw [coreTurn, coreTurn, ← h.state, ← h.cmd]
  by_cases hb : s.state = .busy
  · rw [if_pos hb, if_pos hb]
    match hcmd : s.cmd with
    | some (.legal i) => exact exec_alike h hcmd
    | some (.illegal why) => exact (h.shown.raise _).outcomes
    | none => exact h.outcomes
  · rw [if_neg hb, if_neg hb]
    exact h.outcomes

/-- Settles O35: what the two blocks have in common is carried through every phase of every command. -/
theorem outcomeDependsOnInputsAlone : Obligations.OutcomeDependsOnInputsAlone := by
  unfold Obligations.OutcomeDependsOnInputsAlone
  intro s u t v h hs hu
  obtain ⟨t', v', ht, hv, hsame⟩ := coreTurn_alike h
  cases hs.symm.trans ht
  cases hu.symm.trans hv
  exact hsame

end Sys2Proof.Machine
end

section
/-! SUPPORT. What one host access, one command, one turn of the sequencer and one step can do, each said once. -/

namespace Sys2Proof.Machine

/-! ### Host accesses (20_memory.md R42, R53, R57) -/

theorem placeOf_of_regAt {p : Params} {offset : Nat} {q : Place} (h : regAt offset = some q) :
    placeOf p offset 32 = some q := by
  rw [placeOf, if_pos rfl, h]

/-- Only the 32-bit access at `0x10` reaches CTRL (R41). -/
theorem placeOf_eq_ctrl {p : Params} {offset width : Nat} (h : placeOf p offset width = some .ctrl) :
    offset = 0x10 ∧ width = 32 := by
  obtain ⟨hw, hreg | ⟨i, -, -, hq⟩⟩ | ⟨-, ⟨i, -, -, hq⟩ | ⟨i, -, -, hq⟩⟩ := placeOf_cases h
  · refine ⟨?_, hw⟩
    unfold regAt at hreg
    split at hreg <;> cases hreg
    rfl
  all_goals cases hq

/-- A host access leaves a reply, and nothing else changes unless it is a write to a place of the map. -/
theorem State.hostAccess_cases (s : State) (a : Access) :
    (∃ r, s.hostAccess a = { s with reply := some r }) ∨
    ∃ offset width v q, a = .write offset width v ∧ placeOf s.params offset width = some q ∧
      s.hostAccess a = { s.writePlace q v with reply := some .accepted } := by
  cases a with
  | read offset width =>
    cases hq : placeOf s.params offset width with
    | none => exact .inl ⟨.busError, by simp only [State.hostAccess, hq]⟩
    | some q => exact .inl ⟨_, State.hostAccess_read hq⟩
  | write offset width v =>
    cases hq : placeOf s.params offset width with
    | none => exact .inl ⟨.busError, by simp only [State.hostAccess, hq]⟩
    | some q => exact .inr ⟨offset, width, v, q, rfl, hq, State.hostAccess_write hq⟩

/-- A write without effect on its place leaves only the reply. -/
theorem State.hostAccess_write_ignored {s : State} {offset width : Nat} {v : Reg} {q : Place}
    (h : placeOf s.params offset width = some q) (hq : s.writePlace q v = s) :
    s.hostAccess (.write offset width v) = { s with reply := some .accepted } := by
  rw [State.hostAccess_write h, hq]

theorem State.writePlace_of_not_busy_ctrl {s : State} (h : s.state ≠ .busy) (v : Reg) :
    s.writePlace .ctrl v = if v.getLsbD 0 then s.start else if v.getLsbD 1 then s.clear else s := by
  simp only [State.writePlace, State.writeCtrl, if_neg h]

@[simp] theorem State.clear_params (s : State) : s.clear.params = s.params := by
  unfold State.clear
  split <;> rfl

/-- CLEAR leaves DONE and ERROR for IDLE (R178). -/
theorem State.clear_state_of_ended {s : State} (h : s.state = .done ∨ s.state = .error) : s.clear.state = .idle := by
  rw [State.clear, if_pos h]

@[simp] theorem State.writePlace_params (s : State) (q : Place) (v : Reg) : (s.writePlace q v).params = s.params := by
  rcases s.writePlace_cases q v with h | ⟨-, ⟨-, h⟩ | ⟨-, h⟩ | ⟨-, h⟩ | ⟨i, -, h⟩ | ⟨i, -, h⟩ | ⟨-, -, h⟩ | ⟨-, -, -, -, h⟩⟩ <;>
    simp [h]

@[simp] theorem State.hostAccess_params (s : State) (a : Access) : (s.hostAccess a).params = s.params := by
  obtain ⟨r, h⟩ | ⟨offset, width, v, q, -, -, h⟩ := s.hostAccess_cases a <;> rw [h]
  exact s.writePlace_params q v

/-- STATUS.STATE after an accepted write: as before, but for START and CLEAR through CTRL (R16, R170, R178). -/
theorem State.writePlace_state_cases (s : State) (q : Place) (v : Reg) :
    (s.writePlace q v).state = s.state ∨
    (q = .ctrl ∧ s.state ≠ .busy ∧ v.getLsbD 0 = true ∧ (s.writePlace q v).state = .busy) ∨
    (q = .ctrl ∧ (s.state = .done ∨ s.state = .error) ∧ v.getLsbD 0 = false ∧ v.getLsbD 1 = true ∧
      (s.writePlace q v).state = .idle) := by
  rcases s.writePlace_cases q v with
    h | ⟨hb, ⟨-, h⟩ | ⟨-, h⟩ | ⟨-, h⟩ | ⟨i, -, h⟩ | ⟨i, -, h⟩ | ⟨hq, h0, h⟩ | ⟨hq, h0, h1, hend, h⟩⟩ <;> rw [h]
  any_goals exact .inl rfl
  · exact .inr (.inl ⟨hq, hb, h0, rfl⟩)
  · exact .inr (.inr ⟨hq, hend, h0, h1, State.clear_state_of_ended hend⟩)

/-- STATUS.STATE after a host access: as before, but for a START or CLEAR at `0x10`. -/
theorem State.hostAccess_state_cases (s : State) (a : Access) :
    (s.hostAccess a).state = s.state ∨
    ∃ v, a = .write 0x10 32 v ∧
      ((s.state ≠ .busy ∧ v.getLsbD 0 = true ∧ (s.hostAccess a).state = .busy) ∨
       ((s.state = .done ∨ s.state = .error) ∧ v.getLsbD 0 = false ∧ v.getLsbD 1 = true ∧
         (s.hostAccess a).state = .idle)) := by
  obtain ⟨r, h⟩ | ⟨offset, width, v, q, ha, hp, h⟩ := s.hostAccess_cases a
  · exact .inl (by rw [h])
  · rw [h]
    obtain hs | ⟨rfl, hs⟩ | ⟨rfl, hs⟩ := s.writePlace_state_cases q v
    · exact .inl hs
    all_goals obtain ⟨rfl, rfl⟩ := placeOf_eq_ctrl hp
    · exact .inr ⟨v, ha, .inl hs⟩
    · exact .inr ⟨v, ha, .inr hs⟩

/-! ### Commands (60_exceptions.md R171, R176; 40_field_and_random.md R91) -/

/-- The three ways a command leaves the state: still waiting, with only scratch, position and answers changed, or ended. -/
inductive Leaves (s t : State) : Prop where
  | waiting (h : Quiet s t)
  | completed (bytes : List Byte) (h : Completed s t bytes)
  | raised (e : Err) (h : Raised s t e)

theorem Leaves.keeps {s t : State} (h : Leaves s t) : Keeps s t := by
  cases h with
  | waiting h => exact h.keeps
  | completed b h => exact h.keeps
  | raised e h => exact h.keeps

/-- A quiet beginning does not change how the command leaves the state. -/
theorem Quiet.leaves {s u t : State} (h : Quiet s u) (h' : Leaves u t) : Leaves s t := by
  cases h' with
  | waiting h' => exact .waiting (h.trans h')
  | completed b h' =>
    exact .completed b { h' with
      err := h'.err.trans h.err, errInfo := h'.errInfo.trans h.errInfo, keeps := h.keeps.trans h'.keeps }
  | raised e h' => exact .raised e { h' with keeps := h.keeps.trans h'.keeps }

theorem State.complete_leaves (s : State) (b : List Byte) : Leaves s (s.complete b) :=
  .completed b ((Quiet.refl s).completed b)

theorem State.raise_leaves (s : State) (e : Err) : Leaves s (s.raise e) :=
  .raised e ((Quiet.refl s).raised e)

/-- An update of scratch alone is quiet (R26). -/
theorem quiet_of_scratch (s : State) {xv seen coef sw : List Word} {yv mat : List (List Word)} :
    Quiet s { s with xv := xv, seen := seen, coef := coef, sw := sw, yv := yv, mat := mat } :=
  ⟨⟨rfl, rfl, rfl, rfl, rfl, rfl, rfl, rfl, rfl⟩, rfl, rfl, rfl, rfl, rfl, rfl⟩

theorem Phase.andThen_leaves {s : State} {p : Phase} {next : State → State} (hp : Quiet s p.state)
    (hn : ∀ u, Leaves u (next u)) : Leaves s (p.andThen next) := by
  cases p with
  | ready u => exact hp.leaves (hn u)
  | failed u => exact hp.leaves (u.raise_leaves .rng)
  | waiting u => exact .waiting hp

theorem genptRun_leaves (s : State) (n : Nat) : Leaves s (s.genptRun n) :=
  Phase.andThen_leaves (collectPoints_quiet s n) fun u => u.complete_leaves _

theorem wsplitRun_leaves (s : State) (t : Nat) : Leaves s (s.wsplitRun t) :=
  Phase.andThen_leaves (collectCoefs_quiet s t) fun u => u.complete_leaves _

theorem wcombRun_leaves (s : State) (k : Nat) : Leaves s (s.wcombRun k) := by
  unfold State.wcombRun
  split
  · exact (quiet_of_scratch s).leaves (State.complete_leaves _ _)
  · exact (quiet_of_scratch s).leaves (State.raise_leaves _ _)

theorem splitFromPoints_leaves (s : State) (t n : Nat) : Leaves s (s.splitFromPoints t n) :=
  Phase.andThen_leaves
    (Phase.bind_quiet (collectPoints_quiet s n) fun u => (quiet_of_scratch u).trans (splitWords_quiet t _ _))
    fun u => u.complete_leaves _

theorem splitFromCoefs_leaves (s : State) (t : Nat) : Leaves s (s.splitFromCoefs t) :=
  Phase.andThen_leaves (Phase.bind_quiet (splitWord_quiet s t) fun _ => splitWords_quiet t _ _)
    fun u => u.complete_leaves _

theorem combineColumns_leaves (cols : List (List Word)) (s : State) : Leaves s (State.combineColumns cols s) := by
  induction cols generalizing s with
  | nil => exact s.complete_leaves _
  | cons ys rest ih =>
    rw [combineColumns_cons]
    split
    · exact (quiet_of_scratch s).leaves (ih _)
    · exact (quiet_of_scratch s).leaves (State.raise_leaves _ _)

/-- A command that validates first either raises what its validation found, or runs (R175). -/
theorem leaves_of_validation {s : State} (v : Option Err) {run : State} (h : Leaves s run) :
    Leaves s (match v with
      | some e => s.raise e
      | none => run) := by
  cases v with
  | some e => exact s.raise_leaves e
  | none => exact h

/-- Every command answers a next state, which it leaves in one of the three ways. -/
theorem exec_leaves (i : Instr) (s : State) : ∃ t, exec i s = .next t ∧ Leaves s t := by
  cases i with
  | split t n len =>
    refine ⟨_, rfl, ?_⟩
    split
    · exact splitFromPoints_leaves s t n
    · split
      · exact splitFromCoefs_leaves s t
      · exact leaves_of_validation _ ((quiet_of_scratch s).leaves (splitFromPoints_leaves _ t n))
  | combine k =>
    exact ⟨_, rfl, leaves_of_validation _ ((quiet_of_scratch s).leaves (combineColumns_leaves _ _))⟩
  | genpt n =>
    refine ⟨_, rfl, ?_⟩
    split
    · exact genptRun_leaves s n
    · exact leaves_of_validation _ ((quiet_of_scratch s).leaves (genptRun_leaves _ n))
  | wsplit t n w =>
    refine ⟨_, rfl, ?_⟩
    split
    · exact wsplitRun_leaves s t
    · exact leaves_of_validation _ ((quiet_of_scratch s).leaves (wsplitRun_leaves _ t))
  | wcomb k => exact ⟨_, rfl, leaves_of_validation _ (wcombRun_leaves s k)⟩
  | peval t x =>
    exact ⟨_, rfl, leaves_of_validation _ ((quiet_of_scratch s).leaves (State.complete_leaves _ _))⟩

/-! ### Turns and steps (10_state.md R20) -/

/-- While BUSY an illegal descriptor ends in its error (R63, R65). -/
theorem coreTurn_illegal {s : State} {why : Illegal} (hb : s.state = .busy) (hc : s.cmd = some (.illegal why)) :
    coreTurn s = .next (s.raise (Err.ofIllegal why)) := by
  rw [coreTurn, if_pos hb, hc]

/-- The sequencer changes nothing, or is BUSY and leaves the state as a command does. -/
theorem coreTurn_cases {s t : State} (h : coreTurn s = .next t) : t = s ∨ (s.state = .busy ∧ Leaves s t) := by
  by_cases hb : s.state = .busy
  · match hc : s.cmd with
    | some (.legal i) =>
      rw [coreTurn, if_pos hb, hc] at h
      obtain ⟨u, hu, hl⟩ := exec_leaves i s
      cases h.symm.trans hu
      exact .inr ⟨hb, hl⟩
    | some (.illegal why) =>
      cases h.symm.trans (coreTurn_illegal hb hc)
      exact .inr ⟨hb, s.raise_leaves _⟩
    | none =>
      rw [coreTurn, if_pos hb, hc] at h
      cases h
      exact .inl rfl
  · rw [coreTurn, if_neg hb] at h
    cases h
    exact .inl rfl

/-- A step is the turn at the head of the agenda; with none there, the sequencer's. -/
theorem step_cases {s t : State} (h : step s = .next t) :
    (∃ rest, (s.agenda = [] ∨ s.agenda = .core :: rest) ∧ coreTurn { s with agenda := rest } = .next t) ∨
    (∃ a rest, s.agenda = .access a :: rest ∧ t = State.hostAccess { s with agenda := rest } a) ∨
    (∃ rest, s.agenda = .reset :: rest ∧ t = State.applyReset { s with agenda := rest }) ∨
    (∃ a rest, s.agenda = .answer a :: rest ∧ t = { s with agenda := rest, answers := s.answers ++ [a] }) := by
  match ha : s.agenda with
  | [] =>
    rw [step, ha] at h
    exact .inl ⟨s.agenda, .inl rfl, h⟩
  | .core :: rest =>
    rw [step, ha] at h
    exact .inl ⟨rest, .inr rfl, h⟩
  | .access a :: rest =>
    rw [step, ha] at h
    cases h
    exact .inr (.inl ⟨a, rest, rfl, rfl⟩)
  | .reset :: rest =>
    rw [step, ha] at h
    cases h
    exact .inr (.inr (.inl ⟨rest, rfl, rfl⟩))
  | .answer a :: rest =>
    rw [step, ha] at h
    cases h
    exact .inr (.inr (.inr ⟨a, rest, rfl, rfl⟩))

/-- No step changes NMAX, MMAX or the Field (R28, log 1). -/
theorem step_params {s t : State} (h : step s = .next t) : t.params = s.params := by
  obtain ⟨rest, -, hc⟩ | ⟨a, rest, -, rfl⟩ | ⟨rest, -, rfl⟩ | ⟨a, rest, -, rfl⟩ := step_cases h
  · obtain rfl | ⟨-, hl⟩ := coreTurn_cases hc
    · rfl
    · exact hl.keeps.params
  · exact State.hostAccess_params _ a
  · rfl
  · rfl

end Sys2Proof.Machine
end

section
/-! CERTIFICATE. The registers and the state machine of 10_state.md. -/

namespace Sys2Proof.Machine

/-! ### CAP (R14) -/

theorem capWord_nmax {s : State} (h : s.params.CapacityOk) : (s.capWord.extractLsb' 0 16).toNat = s.params.nmax := by
  obtain ⟨-, hn, -, -, -⟩ := h
  rw [State.capWord, BitVec.extractLsb'_append_eq_right, BitVec.toNat_ofNat, Nat.mod_eq_of_lt (by omega)]

theorem capWord_mmax {s : State} (h : s.params.CapacityOk) : (s.capWord.extractLsb' 16 16).toNat = s.params.mmax := by
  obtain ⟨-, -, -, hm, -⟩ := h
  rw [State.capWord, BitVec.extractLsb'_append_eq_left, BitVec.toNat_ofNat, Nat.mod_eq_of_lt (by omega)]

theorem capWord_congr {s t : State} (h : t.params = s.params) : t.capWord = s.capWord := by
  rw [State.capWord, State.capWord, h]

/-- Settles O10: CAP is a view of `params`, which no write and no step changes. -/
theorem capIsAConstantOfTheInstance : Obligations.CapIsAConstantOfTheInstance := by
  unfold Obligations.CapIsAConstantOfTheInstance
  refine ⟨fun s h => ⟨capWord_nmax h, capWord_mmax h⟩, fun s v => ?_, fun s t h => ?_⟩
  · have hp : placeOf s.params 0x00 32 = some .cap := placeOf_of_regAt rfl
    have hw : s.writePlace .cap v = s := by simp [State.writePlace]
    exact ⟨State.hostAccess_read hp, State.hostAccess_write_ignored hp hw⟩
  · exact ⟨step_params h, capWord_congr (step_params h)⟩

/-! ### STATUS.STATE (R30) -/

/-- Settles O27: a case for each kind of turn a step can take. -/
theorem stateMachineMoves : Obligations.StateMachineMoves := by
  unfold Obligations.StateMachineMoves
  intro s t h
  obtain ⟨rest, ha, hc⟩ | ⟨a, rest, ha, rfl⟩ | ⟨rest, ha, rfl⟩ | ⟨a, rest, -, rfl⟩ := step_cases h
  · have hcore : s.agenda = [] ∨ ∃ rest, s.agenda = .core :: rest := ha.imp id fun h => ⟨rest, h⟩
    obtain rfl | ⟨hb, hq | ⟨_, hd⟩ | ⟨_, he⟩⟩ := coreTurn_cases hc
    · exact .inl rfl
    · exact .inl hq.state
    · exact .inr (.inr (.inl ⟨hb, .inl hd.state, hcore⟩))
    · exact .inr (.inr (.inl ⟨hb, .inr he.state, hcore⟩))
  · obtain hs | ⟨v, rfl, ⟨hb, h0, hs⟩ | ⟨hend, h0, h1, hs⟩⟩ := State.hostAccess_state_cases { s with agenda := rest } a
    · exact .inl hs
    · exact .inr (.inl ⟨hb, hs, v, rest, ha, h0⟩)
    · exact .inr (.inr (.inr (.inl ⟨hend, hs, v, rest, ha, h0, h1⟩)))
  · exact .inr (.inr (.inr (.inr ⟨rfl, rest, ha⟩)))
  · exact .inl rfl

/-! ### DESC_LO and DESC_HI (R12, R13) -/

/-- A field of the descriptor inside its low word. -/
theorem desc_extractLsb'_low (s : State) {start len : Nat} (h : start + len ≤ 32) :
    s.desc.extractLsb' start len = s.descLo.extractLsb' start len := by
  rw [State.desc, BitVec.extractLsb'_append_eq_of_add_le h]

/-- A field of the descriptor inside its high word. -/
theorem desc_extractLsb'_high (s : State) {start len : Nat} (h : 32 ≤ start) :
    s.desc.extractLsb' start len = s.descHi.extractLsb' (start - 32) len := by
  rw [State.desc, BitVec.extractLsb'_append_eq_of_le h]

@[simp] theorem State.applyReset_desc (s : State) : s.applyReset.desc = 0 := by
  simp [State.desc]

/-- The zero descriptor names no command (R63). -/
theorem decode_zero : decode 0 = .illegal .opcode := by decide

/-- Settles O9: the access at each offset reaches its register; the zero descriptor is illegal. -/
theorem descriptorRegisters : Obligations.DescriptorRegisters := by
  unfold Obligations.DescriptorRegisters
  have hlo : ∀ p : Params, placeOf p 0x08 32 = some .descLo := fun _ => placeOf_of_regAt rfl
  have hhi : ∀ p : Params, placeOf p 0x0C 32 = some .descHi := fun _ => placeOf_of_regAt rfl
  refine ⟨fun s => ?fields, fun s v hb => ?written, fun s v hb => ?locked, rfl, rfl, fun s => ?reset⟩
  case fields =>
    exact ⟨rfl, desc_extractLsb'_low s (by decide), desc_extractLsb'_low s (by decide), desc_extractLsb'_low s (by decide),
      desc_extractLsb'_high s (by decide), desc_extractLsb'_high s (by decide)⟩
  case written =>
    have hwlo : s.hostAccess (.write 0x08 32 v) = { s with descLo := v, reply := some .accepted } := by
      simp only [State.hostAccess_write (hlo s.params), State.writePlace, if_neg hb]
    have hwhi : s.hostAccess (.write 0x0C 32 v) = { s with descHi := v, reply := some .accepted } := by
      simp only [State.hostAccess_write (hhi s.params), State.writePlace, if_neg hb]
    refine ⟨hwlo, hwhi, ?_, ?_⟩
    · rw [hwlo, State.hostAccess_read (hlo _)]; rfl
    · rw [hwhi, State.hostAccess_read (hhi _)]; rfl
  case locked =>
    exact ⟨State.hostAccess_write_ignored (hlo _) (State.writePlace_busy hb _ v),
      State.hostAccess_write_ignored (hhi _) (State.writePlace_busy hb _ v)⟩
  case reset =>
    have hop : s.applyReset.desc.op = 0x00 := by simp [Desc.op]
    have hcmd : s.applyReset.start.cmd = some (.illegal .opcode) := by
      rw [State.start_cmd, State.applyReset_desc, decode_zero]
    exact ⟨rfl, rfl, hop, _, coreTurn_illegal rfl hcmd, (Quiet.refl _).raised .opcode⟩

/-! ### CTRL (R16) -/

/-- A CTRL write outside BUSY (R16): START, else CLEAR, else nothing. -/
theorem State.hostAccess_write_ctrl {s : State} (h : s.state ≠ .busy) (v : Reg) :
    s.hostAccess (.write 0x10 32 v) =
      { (if v.getLsbD 0 then s.start else if v.getLsbD 1 then s.clear else s) with reply := some .accepted } := by
  rw [State.hostAccess_write (placeOf_of_regAt rfl), State.writePlace_of_not_busy_ctrl h]

/-- Settles O12: one case for each branch of a CTRL write. -/
theorem ctrlWriteStartsOrClears : Obligations.CtrlWriteStartsOrClears := by
  unfold Obligations.CtrlWriteStartsOrClears
  intro s v
  have hp : placeOf s.params 0x10 32 = some .ctrl := placeOf_of_regAt rfl
  refine ⟨State.hostAccess_read hp, fun hb => ?busy, fun hb h0 => ?start, fun hb h0 h1 => ?clear,
    fun hb h0 h1 => ?nothing⟩
  case busy => exact State.hostAccess_write_ignored hp (State.writePlace_busy hb .ctrl v)
  case start => rw [State.hostAccess_write_ctrl hb, if_pos h0]
  case clear => simp only [State.hostAccess_write_ctrl hb, h0, h1, Bool.false_eq_true, if_true, if_false]
  case nothing => simp only [State.hostAccess_write_ctrl hb, h0, h1, Bool.false_eq_true, if_false]

/-! ### `irq` (R19) -/

theorem State.irq_eq_true_iff (s : State) :
    s.irq = true ↔ s.cfg.getLsbD 1 = true ∧ (s.state = .done ∨ s.state = .error) := by
  simp [State.irq, State.ie]

/-- `irq` is low in IDLE and BUSY. -/
theorem State.irq_eq_false_of_state {s : State} (hd : s.state ≠ .done) (he : s.state ≠ .error) : s.irq = false := by
  simp [State.irq, hd, he]

/-- `irq` is low while interrupts are disabled. -/
theorem State.irq_eq_false_of_ie {s : State} (h : s.ie = false) : s.irq = false := by
  rw [State.irq, h, Bool.false_and]

theorem getLsbD_one_cfgWritten (v : Reg) : (cfgWritten v).getLsbD 1 = v.getLsbD 1 := by
  simp [cfgWritten]

/-- Settles O21: START and CLEAR leave DONE and ERROR, a CFG write replaces IE. -/
theorem irqLevel : Obligations.IrqLevel := by
  unfold Obligations.IrqLevel
  refine ⟨State.irq_eq_true_iff, fun s v hirq => ?_⟩
  obtain ⟨-, hend⟩ := s.irq_eq_true_iff.1 hirq
  have hb : s.state ≠ .busy := by rcases hend with h | h <;> simp [h]
  refine ⟨fun hv => ?_, fun hv => ?_⟩
  · rw [State.hostAccess_write_ctrl hb]
    cases h0 : v.getLsbD 0 with
    | true => exact State.irq_eq_false_of_state (by simp) (by simp)
    | false =>
      have h1 : v.getLsbD 1 = true := hv.resolve_left (Bool.eq_false_iff.1 h0)
      have hidle : s.clear.state = .idle := State.clear_state_of_ended hend
      rw [h1]
      exact State.irq_eq_false_of_state (by simp [hidle]) (by simp [hidle])
  · rw [State.hostAccess_write (placeOf_of_regAt (q := .cfg) rfl)]
    refine State.irq_eq_false_of_ie ?_
    simp only [State.ie, State.writePlace, if_neg hb, getLsbD_one_cfgWritten, hv]

end Sys2Proof.Machine
end

section
/-! CERTIFICATE. Host accesses of 20_memory.md: which are accepted, the lock while BUSY, reads without side effect. -/

namespace Sys2Proof.Machine

/-! ### Which accesses are accepted (R41, R42) -/

/-- The accesses of the address map, said by offset and width (R41, R42). -/
def Mapped (p : Params) (offset width : Nat) : Prop :=
  (width = 32 ∧ offset % 4 = 0 ∧ (offset ≤ 0x18 ∨ (0x40000 ≤ offset ∧ offset < 0x40000 + 4 * p.nmax))) ∨
  (width = 8 ∧ ((0x10000000 ≤ offset ∧ offset < 0x10000000 + p.bufCap) ∨
    (0x20000000 ≤ offset ∧ offset < 0x20000000 + p.bufCap)))

/-- The registers are the aligned words from `0x00` to `0x18`. -/
theorem exists_regAt_iff {offset : Nat} : (∃ q, regAt offset = some q) ↔ offset % 4 = 0 ∧ offset ≤ 0x18 := by
  constructor
  · rintro ⟨q, h⟩
    unfold regAt at h
    split at h
    case h_8 => cases h
    all_goals exact ⟨by decide, by decide⟩
  · rintro ⟨h4, hle⟩
    obtain ⟨k, rfl⟩ := Nat.dvd_of_mod_eq_zero h4
    have hk : k ≤ 6 := by omega
    interval_cases k <;> exact ⟨_, rfl⟩

/-- An access reaches a place exactly when it is one of the address map's. -/
theorem exists_placeOf_iff {p : Params} (hc : p.CapacityOk) {offset width : Nat} :
    (∃ q, placeOf p offset width = some q) ↔ Mapped p offset width := by
  constructor
  · rintro ⟨q, h⟩
    obtain ⟨hw, hreg | ⟨i, hi, rfl, -⟩⟩ | ⟨hw, ⟨i, hi, rfl, -⟩ | ⟨i, hi, rfl, -⟩⟩ := placeOf_cases h
    · obtain ⟨h4, hle⟩ := exists_regAt_iff.1 ⟨q, hreg⟩
      exact .inl ⟨hw, h4, .inl hle⟩
    · exact .inl ⟨hw, by omega, .inr ⟨by omega, by omega⟩⟩
    · exact .inr ⟨hw, .inl ⟨by omega, by omega⟩⟩
    · exact .inr ⟨hw, .inr ⟨by omega, by omega⟩⟩
  · rintro (⟨rfl, h4, hle | ⟨hlo, hhi⟩⟩ | ⟨rfl, ⟨hlo, hhi⟩ | ⟨hlo, hhi⟩⟩)
    · obtain ⟨q, hq⟩ := exists_regAt_iff.2 ⟨h4, hle⟩
      exact ⟨q, placeOf_of_regAt hq⟩
    · obtain ⟨i, rfl⟩ : ∃ i, offset = 0x40000 + 4 * i := ⟨(offset - 0x40000) / 4, by omega⟩
      exact ⟨_, placeOf_slen (by omega)⟩
    · obtain ⟨i, rfl⟩ := Nat.exists_eq_add_of_le hlo
      exact ⟨_, placeOf_inByte (by omega)⟩
    · obtain ⟨i, rfl⟩ := Nat.exists_eq_add_of_le hlo
      exact ⟨_, placeOf_outByte hc (by omega)⟩

/-- A read of a place answers data, neither a bus error nor a write's acceptance. -/
theorem State.readPlace_ne (s : State) (q : Place) : s.readPlace q ≠ .busError ∧ s.readPlace q ≠ .accepted := by
  cases q <;> exact ⟨nofun, nofun⟩

theorem State.hostAccess_read_unmapped {s : State} {offset width : Nat} (h : placeOf s.params offset width = none) :
    s.hostAccess (.read offset width) = { s with reply := some .busError } := by
  simp only [State.hostAccess, h]

theorem State.hostAccess_write_unmapped {s : State} {offset width : Nat} (h : placeOf s.params offset width = none) (v : Reg) :
    s.hostAccess (.write offset width v) = { s with reply := some .busError } := by
  simp only [State.hostAccess, h]

theorem State.hostAccess_write_reply {s : State} {offset width : Nat} {q : Place}
    (h : placeOf s.params offset width = some q) (v : Reg) :
    (s.hostAccess (.write offset width v)).reply = some .accepted := by
  rw [State.hostAccess_write h]

/-- Settles O15: the accesses named are those that reach a place. -/
theorem refusedAccessChangesNothing : Obligations.RefusedAccessChangesNothing := by
  unfold Obligations.RefusedAccessChangesNothing
  intro s offset width hc mapped
  have hmapped : (∃ q, placeOf s.params offset width = some q) ↔ mapped := exists_placeOf_iff hc
  refine ⟨fun hm => ?accepted, fun hm => ?refused⟩
  case accepted =>
    obtain ⟨q, hq⟩ := hmapped.2 hm
    exact ⟨State.hostAccess_write_reply hq, s.readPlace q, State.hostAccess_read hq, s.readPlace_ne q⟩
  case refused =>
    have hnone : placeOf s.params offset width = none :=
      Option.eq_none_iff_forall_ne_some.2 fun q hq => hm (hmapped.1 ⟨q, hq⟩)
    exact ⟨State.hostAccess_write_unmapped hnone, State.hostAccess_read_unmapped hnone⟩

/-! ### While BUSY (R53) -/

theorem State.hostAccess_read_reply {s : State} {offset width : Nat} {q : Place} {r : Reply}
    (h : placeOf s.params offset width = some q) (hr : s.readPlace q = r) :
    (s.hostAccess (.read offset width)).reply = some r := by
  rw [State.hostAccess_read h, hr]

/-- While BUSY no write, mapped or not, changes more than the reply. -/
theorem State.hostAccess_write_busy_frame {s : State} (hb : s.state = .busy) (offset width : Nat) (v : Reg) :
    s.hostAccess (.write offset width v) = { s with reply := (s.hostAccess (.write offset width v)).reply } := by
  cases hq : placeOf s.params offset width with
  | none => rw [State.hostAccess_write_unmapped hq]
  | some q => rw [State.hostAccess_write_ignored hq (State.writePlace_busy hb q v)]

/-- While BUSY there is no output. -/
theorem State.Inv.outLen_of_busy {s : State} (h : s.Inv) (hb : s.state = .busy) : s.outLen = 0 := by
  have hout : s.out = [] := h.output.empty (by simp [hb])
  have hlen : s.outLen.toNat = 0 := by rw [h.output.len, hout, List.length_nil]
  exact BitVec.eq_of_toNat_eq hlen

/-- While BUSY no error is recorded, so STATUS shows BUSY alone (R17). -/
theorem State.Inv.statusWord_of_busy {s : State} (h : s.Inv) (hb : s.state = .busy) : s.statusWord = 0x00000001 := by
  have herr : s.err = .none := by
    by_contra hne
    simp [h.status.err_iff.1 hne] at hb
  rw [State.statusWord, h.status.info_zero herr, herr, hb]
  rfl

/-- Settles O19: no place takes a write while BUSY; the invariant says what STATUS and OUT_LEN hold then. -/
theorem busyLocksTheHostOut : Obligations.BusyLocksTheHostOut := by
  unfold Obligations.BusyLocksTheHostOut
  intro s hinv hb
  have readReg {offset : Nat} {q : Place} {r : Reply} (h : regAt offset = some q) (hr : s.readPlace q = r) :
      (s.hostAccess (.read offset 32)).reply = some r :=
    State.hostAccess_read_reply (placeOf_of_regAt h) hr
  refine ⟨State.hostAccess_write_busy_frame hb, ?registers, ?buffers, ?slots, readReg (q := .cap) rfl rfl,
    readReg (q := .cfg) rfl rfl, readReg (q := .descLo) rfl rfl, readReg (q := .descHi) rfl rfl,
    readReg (q := .status) rfl ?status, readReg (q := .outLen) rfl ?outLen⟩
  case registers =>
    have hregs : ∀ offset ∈ [0x04, 0x08, 0x0C, 0x10], offset % 4 = 0 ∧ offset ≤ 0x18 := by decide
    intro offset v ho
    obtain ⟨q, hq⟩ := exists_regAt_iff.2 (hregs offset ho)
    exact State.hostAccess_write_reply (placeOf_of_regAt hq) v
  case buffers =>
    intro i hi v
    have hin := placeOf_inByte hi
    have hout := placeOf_outByte hinv.capacity hi
    exact ⟨State.hostAccess_write_reply hin v, State.hostAccess_read_reply hin (by simp [State.readPlace, hb]),
      State.hostAccess_read_reply hout (by simp [State.readPlace, hb])⟩
  case slots =>
    intro i hi v
    have hslot := placeOf_slen hi
    exact ⟨State.hostAccess_write_reply hslot v, State.hostAccess_read_reply hslot (by simp [State.readPlace, hb])⟩
  case status => rw [State.readPlace, hinv.statusWord_of_busy hb]
  case outLen => rw [State.readPlace, hinv.outLen_of_busy hb]

/-! ### Reads without side effect (R57) -/

/-- What a read answers: the place's value, or a bus error where there is none. -/
theorem State.hostAccess_read_eq (s : State) (offset width : Nat) :
    s.hostAccess (.read offset width) =
      { s with reply := some ((placeOf s.params offset width).elim .busError s.readPlace) } := by
  cases hq : placeOf s.params offset width with
  | none => exact State.hostAccess_read_unmapped hq
  | some q => exact State.hostAccess_read hq

theorem State.readPlace_environment (s : State) (turns : List Turn) (as : List Answer) (r : Option Reply) :
    State.readPlace { s with agenda := turns, answers := as, reply := r } = s.readPlace := rfl

/-- What is outside the block does not show in a read. -/
theorem State.hostAccess_read_reply_environment (s : State) (turns : List Turn) (as : List Answer) (r : Option Reply)
    (offset width : Nat) :
    (State.hostAccess { s with agenda := turns, answers := as, reply := r } (.read offset width)).reply =
      (s.hostAccess (.read offset width)).reply := by
  simp only [State.hostAccess_read_eq, State.readPlace_environment]

/-- What a waiting command changes does not show in a read (10_state.md R26). -/
theorem Quiet.readPlace {s t : State} (h : Quiet s t) (q : Place) : t.readPlace q = s.readPlace q := by
  cases q with
  | cap => simp only [State.readPlace, capWord_congr h.keeps.params]
  | cfg => simp only [State.readPlace, h.keeps.cfg]
  | descLo => simp only [State.readPlace, h.keeps.descLo]
  | descHi => simp only [State.readPlace, h.keeps.descHi]
  | ctrl => rfl
  | status => simp only [State.readPlace, State.statusWord, h.state, h.err, h.errInfo]
  | outLen => simp only [State.readPlace, h.outLen]
  | slen i => simp only [State.readPlace, h.state, h.keeps.readSlen]
  | inByte i => simp only [State.readPlace, h.state, h.keeps.readIn]
  | outByte i => simp only [State.readPlace, State.readOut, h.state, h.outLen, h.out]

theorem Quiet.hostAccess_read_reply {s t : State} (h : Quiet s t) (offset width : Nat) :
    (t.hostAccess (.read offset width)).reply = (s.hostAccess (.read offset width)).reply := by
  simp only [State.hostAccess_read_eq, h.keeps.params, funext h.readPlace]

/-- A turn of the sequencer that keeps STATUS.STATE ends no command, so it does not show in a read. -/
theorem coreTurn_hostAccess_read_reply {s t : State} (h : coreTurn s = .next t) (hs : t.state = s.state)
    (offset width : Nat) :
    (t.hostAccess (.read offset width)).reply = (s.hostAccess (.read offset width)).reply := by
  obtain rfl | ⟨hb, hq | ⟨_, hd⟩ | ⟨_, he⟩⟩ := coreTurn_cases h
  · rfl
  · exact hq.hostAccess_read_reply offset width
  · simp [hd.state, hb] at hs
  · simp [he.state, hb] at hs

/-- A step that is neither a write nor a reset and keeps STATUS.STATE does not show in a read. -/
theorem step_hostAccess_read_reply {s t : State} (h : step s = .next t) (hs : t.state = s.state)
    (hwrite : ∀ o w v rest, s.agenda ≠ .access (.write o w v) :: rest) (hreset : ∀ rest, s.agenda ≠ .reset :: rest)
    (offset width : Nat) :
    (t.hostAccess (.read offset width)).reply = (s.hostAccess (.read offset width)).reply := by
  obtain ⟨rest, -, hc⟩ | ⟨a, rest, ha, rfl⟩ | ⟨rest, ha, -⟩ | ⟨a, rest, -, rfl⟩ := step_cases h
  · rw [coreTurn_hostAccess_read_reply hc hs]
    exact s.hostAccess_read_reply_environment rest s.answers s.reply offset width
  · cases a with
    | read o w =>
      rw [State.hostAccess_read_eq { s with agenda := rest } o w]
      exact s.hostAccess_read_reply_environment rest s.answers _ offset width
    | write o w v => exact absurd ha (hwrite o w v rest)
  · exact absurd ha (hreset rest)
  · exact s.hostAccess_read_reply_environment rest (s.answers ++ [a]) s.reply offset width

/-! ### Writes to read-only places and reserved bits (R57) -/

theorem State.writePlace_readOnly (s : State) {q : Place}
    (hq : q = .cap ∨ q = .status ∨ q = .outLen ∨ ∃ i, q = .outByte i) (v : Reg) : s.writePlace q v = s := by
  obtain rfl | rfl | rfl | ⟨i, rfl⟩ := hq <;> exact ite_self s

/-- CFG takes bits 1:0 alone (R15). -/
theorem State.writePlace_cfg_and (s : State) (v : Reg) :
    s.writePlace .cfg (v &&& 0x00000003) = s.writePlace .cfg v := by
  simp only [State.writePlace, cfgWritten, BitVec.and_assoc, BitVec.and_self]

/-- CTRL looks at bits 1:0 alone (R16). -/
theorem State.writePlace_ctrl_and (s : State) (v : Reg) :
    s.writePlace .ctrl (v &&& 0x00000003) = s.writePlace .ctrl v := by
  simp [State.writePlace, State.writeCtrl]

/-- Only CTRL does more than store a value: any other write leaves all but the stored registers and buffers (R57). -/
theorem State.hostAccess_write_stores (s : State) {offset : Nat} (h : offset ≠ 0x10) (width : Nat) (v : Reg) :
    let t := s.hostAccess (.write offset width v)
    t = { s with
      cfg := t.cfg, descLo := t.descLo, descHi := t.descHi, slen := t.slen, inBuf := t.inBuf, reply := t.reply } := by
  intro t
  cases hp : placeOf s.params offset width with
  | none =>
    have ht : t = _ := State.hostAccess_write_unmapped hp v
    rw [ht]
  | some q =>
    have ht : t = _ := State.hostAccess_write hp
    have hctrl : q ≠ .ctrl := by
      rintro rfl
      exact h (placeOf_eq_ctrl hp).1
    obtain hw | ⟨-, ⟨-, hw⟩ | ⟨-, hw⟩ | ⟨-, hw⟩ | ⟨i, -, hw⟩ | ⟨i, -, hw⟩ | ⟨hq, -⟩ | ⟨hq, -⟩⟩ := s.writePlace_cases q v
    rotate_right 2
    · exact absurd hq hctrl
    · exact absurd hq hctrl
    all_goals simp only [ht, hw, State.writeSlen, State.writeIn]

/-- Settles O20: what a step can do to a read, and what a write can do to each place. -/
theorem readsHaveNoSideEffect : Obligations.ReadsHaveNoSideEffect := by
  unfold Obligations.ReadsHaveNoSideEffect
  refine ⟨fun s offset width => ?read, fun s t offset width h hs hw hr => step_hostAccess_read_reply h hs hw hr offset width,
    fun s v hc => ⟨?registers, ?out, ?cfg, ?ctrl⟩, fun s offset width v h => s.hostAccess_write_stores h width v⟩
  case read => rw [State.hostAccess_read_eq]
  case registers =>
    have ignored {offset : Nat} {q : Place} (hreg : regAt offset = some q)
        (hq : q = .cap ∨ q = .status ∨ q = .outLen ∨ ∃ i, q = .outByte i) :
        s.hostAccess (.write offset 32 v) = { s with reply := some .accepted } :=
      State.hostAccess_write_ignored (placeOf_of_regAt hreg) (s.writePlace_readOnly hq v)
    intro offset ho
    obtain rfl | rfl | rfl : offset = 0x00 ∨ offset = 0x14 ∨ offset = 0x18 := by simpa using ho
    · exact ignored (q := .cap) rfl (by simp)
    · exact ignored (q := .status) rfl (by simp)
    · exact ignored (q := .outLen) rfl (by simp)
  case out =>
    intro i hi
    exact State.hostAccess_write_ignored (placeOf_outByte hc hi) (s.writePlace_readOnly (by simp) v)
  case cfg =>
    have hp : placeOf s.params 0x04 32 = some .cfg := placeOf_of_regAt rfl
    rw [State.hostAccess_write hp, State.hostAccess_write hp, s.writePlace_cfg_and v]
  case ctrl =>
    have hp : placeOf s.params 0x10 32 = some .ctrl := placeOf_of_regAt rfl
    rw [State.hostAccess_write hp, State.hostAccess_write hp, s.writePlace_ctrl_and v]

end Sys2Proof.Machine
end

section
/-! SUPPORT. The decoder of 30_encoding.md said by the descriptor's fields (R62, R63, R65, R66). -/

namespace Sys2Proof

theorem Opcode.ofCode_code (o : Opcode) : Opcode.ofCode o.code = some o := by
  cases o <;> rfl

/-- The 250 values that name no operation (R63). -/
theorem Opcode.ofCode_eq_none {v : Byte} (h : v ∉ ([0x01, 0x02, 0x10, 0x11, 0x12, 0x13] : List Byte)) :
    Opcode.ofCode v = none := by
  simp only [List.mem_cons, List.not_mem_nil, or_false, not_or] at h
  obtain ⟨hsplit, hcombine, hgenpt, hwsplit, hwcomb, hpeval⟩ := h
  rw [Opcode.ofCode, if_neg hsplit, if_neg hcombine, if_neg hgenpt, if_neg hwsplit, if_neg hwcomb, if_neg hpeval]

/-- FLAGS in every command, and the operands R62 marks "must be 0". -/
theorem Opcode.reservedSet_iff {o : Opcode} {d : Desc} :
    o.reservedSet d = true ↔ d.flags ≠ 0 ∨
      ((o = .combine ∨ o = .genpt ∨ o = .wcomb) ∧ (d.a ≠ 0 ∨ d.c ≠ 0)) ∨ (o = .peval ∧ d.b ≠ 0) := by
  cases o <;> simp [Opcode.reservedSet]

/-- An illegal opcode is found before any other field is looked at (R66). -/
theorem decode_of_op_illegal {d : Desc} (h : d.op ∉ ([0x01, 0x02, 0x10, 0x11, 0x12, 0x13] : List Byte)) :
    decode d = .illegal .opcode := by
  rw [decode, Opcode.ofCode_eq_none h]

/-- With a legal opcode the reserved-field check decides (R66). -/
theorem decode_of_op {d : Desc} {o : Opcode} (h : d.op = o.code) :
    decode d = if o.reservedSet d then .illegal .reserved else .legal (o.build d) := by
  rw [decode, h, Opcode.ofCode_code]

theorem decode_of_reservedSet {d : Desc} {o : Opcode} (h : d.op = o.code) (hr : o.reservedSet d = true) :
    decode d = .illegal .reserved := by
  rw [decode_of_op h, if_pos hr]

end Sys2Proof
end

section
/-! CERTIFICATE. A START with an illegal descriptor (30_encoding.md R63, R65). -/

namespace Sys2Proof.Machine

/-- STATUS after an error entry: ERROR with the error's class and sub-cause (R17, R176). -/
theorem Raised.statusWord {s t : State} {e : Err} (h : Raised s t e) :
    t.statusWord = (0 : BitVec 16) ++ e.info ++ e.cls.code ++ (0 : BitVec 2) ++ RunState.error.code := by
  rw [State.statusWord, h.errInfo, h.err, h.state]

/-- The turn after a START with an illegal descriptor raises its error, and draws nothing (R63, R65). -/
theorem coreTurn_start_illegal {s : State} {why : Illegal} (h : decode s.desc = .illegal why) :
    ∃ t, coreTurn s.start = .next t ∧ Raised s.start t (Err.ofIllegal why) ∧ t.answers = s.answers := by
  have hcmd : s.start.cmd = some (.illegal why) := by rw [State.start_cmd, h]
  exact ⟨_, coreTurn_illegal rfl hcmd, (Quiet.refl _).raised _, rfl⟩

/-- Settles O6: such a descriptor decodes as reserved, and the sequencer's turn raises that. -/
theorem reservedFieldEndsAtOnce : Obligations.ReservedFieldEndsAtOnce := by
  unfold Obligations.ReservedFieldEndsAtOnce
  intro s o _ hop hset
  have hdecode : decode s.desc = .illegal .reserved := decode_of_reservedSet hop (Opcode.reservedSet_iff.2 hset)
  obtain ⟨t, hturn, hraised, hanswers⟩ := coreTurn_start_illegal hdecode
  exact ⟨t, hturn, hraised, hraised.statusWord.trans (by decide), hanswers⟩

/-- Settles O5: such a descriptor decodes as an illegal opcode; the count is of a closed list. -/
theorem illegalOpcodeEndsAtOnce : Obligations.IllegalOpcodeEndsAtOnce := by
  unfold Obligations.IllegalOpcodeEndsAtOnce
  refine ⟨?count, fun s _ hop => ?ends⟩
  case count => decide +kernel
  case ends =>
    obtain ⟨t, hturn, hraised, hanswers⟩ := coreTurn_start_illegal (decode_of_op_illegal hop)
    exact ⟨t, hturn, hraised, hraised.statusWord.trans (by decide), hanswers⟩

end Sys2Proof.Machine
end

section
/-! SUPPORT. The draws of a command answer by answer (40_field_and_random.md R91, R92): what the generator keeps, and the phases
whose draw is unanswered, answered with values only, or answered with an error. -/

namespace Sys2Proof.Machine

/-! ### The candidates kept (41_genpt.md R101) -/

/-- A later candidate never takes a kept one away. -/
theorem kept_append (vs ws : List Word) :
    kept (vs ++ ws) = kept vs ++
      ((ws.filter fun v => decide (v ≠ 0)).removeAll (vs.filter fun v => decide (v ≠ 0))).eraseDups := by
  rw [kept, List.filter_append, List.eraseDups_append, ← kept]

theorem length_kept_le_of_isPrefix {vs ws : List Word} (h : vs <+: ws) : (kept vs).length ≤ (kept ws).length := by
  obtain ⟨later, rfl⟩ := h
  rw [kept_append, List.length_append]
  exact Nat.le_add_right _ _

theorem kept_concat_zero (vs : List Word) : kept (vs ++ [0]) = kept vs := by
  rw [kept_append]
  exact List.append_nil _

/-- A non-zero candidate is kept unless it repeats a kept one. -/
theorem kept_concat_of_ne_zero (vs : List Word) {v : Word} (hv : v ≠ 0) :
    kept (vs ++ [v]) = if v ∈ kept vs then kept vs else kept vs ++ [v] := by
  have hfilter : [v].filter (fun v => decide (v ≠ 0)) = [v] := List.filter_eq_self.2 (by simpa using hv)
  have hmem : v ∈ vs.filter (fun v => decide (v ≠ 0)) ↔ v ∈ kept vs := List.mem_eraseDups.symm
  simp only [kept_append, hfilter, List.cons_removeAll, List.contains_eq_mem, decide_eq_false_iff_not, hmem]
  by_cases h : v ∈ kept vs
  · rw [if_neg (not_not.2 h), if_pos h]
    exact List.append_nil _
  · rw [if_pos h, if_neg h]
    rfl

/-- The generator's loop keeps exactly `kept` of the values answered; SEEN lists them newest first. -/
theorem foldl_takeCandidate (vs : List Word) : vs.foldl takeCandidate ([], []) = (kept vs, (kept vs).reverse) := by
  induction vs using List.reverseRecOn with
  | nil => rfl
  | append_singleton vs v ih =>
    rw [List.foldl_concat, ih]
    by_cases hv : v = 0
    · rw [hv, takeCandidate_zero, kept_concat_zero]
    · rw [takeCandidate, if_neg hv, kept_concat_of_ne_zero vs hv]
      by_cases h : v ∈ kept vs <;> simp [h]

/-- Values answered while points are missing are all consumed (R101). -/
theorem drawPoints_values {n : Nat} {vs : List Word} (h : (kept vs.dropLast).length < n) (rest : List Answer) :
    drawUntil (fun g => decide (n ≤ g.1.length)) takeCandidate (vs.map Answer.value ++ rest) ([], []) =
      drawUntil (fun g => decide (n ≤ g.1.length)) takeCandidate rest (kept vs, (kept vs).reverse) := by
  rw [drawUntil_values, foldl_takeCandidate]
  intro i hi
  have htake : vs.take i <+: vs.dropLast := by
    rw [List.dropLast_eq_take]
    exact List.take_prefix_take_left (by omega)
  rw [foldl_takeCandidate]
  exact decide_eq_false ((length_kept_le_of_isPrefix htake).trans_lt h).not_ge

/-! ### Phases whose draws are answered with values -/

/-- The generator is done at the value that completes the points (R101). -/
theorem collectPoints_ready {s : State} {n : Nat} {vs : List Word} {rest : List Answer}
    (hans : s.answers = vs.map .value ++ rest) (hn : (kept vs).length = n) (hlast : (kept vs.dropLast).length < n) :
    s.beginPoints.collectPoints n = .ready { s with xv := kept vs, seen := (kept vs).reverse, answers := rest } := by
  have hd := drawPoints_values hlast rest
  rw [drawUntil_enough (got := (kept vs, (kept vs).reverse)) (by simp [hn])] at hd
  simp only [State.collectPoints, State.beginPoints_answers, State.beginPoints_xv, State.beginPoints_seen, hans, hd]
  rfl

/-- The coefficients are complete once the missing ones are answered (R113). -/
theorem collectCoefs_ready {s : State} {t : Nat} {cs : List Word} {rest : List Answer}
    (hans : s.answers = cs.map .value ++ rest) (ht : s.coef.length + cs.length = t) :
    s.collectCoefs t = .ready { s with coef := s.coef ++ cs, answers := rest } := by
  simp only [State.collectCoefs, hans, drawCoefs_values t _ _ _ ht]

/-- A word is split once its coefficients are answered (R144): the next row of YV is its values at the points. -/
theorem splitWord_ready {s : State} {t : Nat} {cs : List Word} {rest : List Answer}
    (hans : s.answers = cs.map .value ++ rest) (ht : s.coef.length + cs.length = t) :
    s.splitWord t = .ready { s with
      coef := s.coef ++ cs, answers := rest, yv := s.yv ++ [s.xv.map (polyEval s.field (s.coef ++ cs))] } := by
  rw [State.splitWord, collectCoefs_ready hans ht]
  rfl

/-! ### Phases that meet an error answer (R92) -/

/-- The phase, begun in `s`, ended at an error answer, with `rest` the answers after it. -/
def Phase.FailsFrom (p : Phase) (s : State) (rest : List Answer) : Prop :=
  ∃ u, p = .failed u ∧ Quiet s u ∧ u.answers = rest

namespace Phase.FailsFrom

variable {p : Phase} {s u : State} {rest : List Answer}

/-- A quiet beginning does not change where the phase fails. -/
theorem of_quiet (h : Quiet s u) (hp : p.FailsFrom u rest) : p.FailsFrom s rest := by
  obtain ⟨v, hv, hq, hans⟩ := hp
  exact ⟨v, hv, h.trans hq, hans⟩

/-- What would have come after a failed phase does not run. -/
theorem bind (hp : p.FailsFrom s rest) (next : State → Phase) : (p.bind next).FailsFrom s rest := by
  obtain ⟨v, rfl, hq, hans⟩ := hp
  exact ⟨v, rfl, hq, hans⟩

/-- A phase that is done leaves the failure to the next one. -/
theorem of_ready {next : State → Phase} (hp : p = .ready u) (hq : Quiet s p.state) (hn : (next u).FailsFrom u rest) :
    (p.bind next).FailsFrom s rest := by
  subst hp
  exact hn.of_quiet hq

/-- A command whose phase fails ends with `Err(RNG, 0)` (R92). -/
theorem raised (hp : p.FailsFrom s rest) (next : State → State) :
    Raised s (p.andThen next) .rng ∧ (p.andThen next).answers = rest := by
  obtain ⟨v, rfl, hq, hans⟩ := hp
  exact ⟨hq.raised .rng, hans⟩

end Phase.FailsFrom

/-- What draws collect, and the answers they consume, is a quiet change. -/
theorem quiet_of_draws (s : State) {xv seen coef : List Word} {as : List Answer} :
    Quiet s { s with xv := xv, seen := seen, coef := coef, answers := as } :=
  ⟨⟨rfl, rfl, rfl, rfl, rfl, rfl, rfl, rfl, rfl⟩, rfl, rfl, rfl, rfl, rfl, rfl⟩

/-- An error answer before the points are complete (R104). -/
theorem collectPoints_failsFrom {s : State} {n : Nat} {vs : List Word} {rest : List Answer}
    (hans : s.answers = vs.map .value ++ .error :: rest) (h : (kept vs).length < n) :
    (s.beginPoints.collectPoints n).FailsFrom s rest := by
  have hlast := (length_kept_le_of_isPrefix vs.dropLast_prefix).trans_lt h
  have hd := drawPoints_values hlast (.error :: rest)
  rw [drawUntil_error (by simpa using h)] at hd
  simp only [State.collectPoints, State.beginPoints_answers, State.beginPoints_xv, State.beginPoints_seen, hans, hd]
  exact ⟨_, rfl, quiet_of_draws s, rfl⟩

/-- An error answer before the coefficients are complete (R118). -/
theorem collectCoefs_failsFrom {s : State} {t : Nat} {cs : List Word} {rest : List Answer}
    (hans : s.answers = cs.map .value ++ .error :: rest) (h : s.coef.length + cs.length < t) :
    (s.collectCoefs t).FailsFrom s rest := by
  simp only [State.collectCoefs, hans, drawCoefs_error t _ _ _ h]
  exact ⟨_, rfl, quiet_of_draws s, rfl⟩

/-- An error answer before the last coefficient of the last word of a SPLIT (R147). Each word consumes `t - 1` values. -/
theorem splitWords_failsFrom {t : Nat} (ht : 1 ≤ t) {ws : List Word} {s : State} {cs : List Word} {rest : List Answer}
    (hans : s.answers = cs.map .value ++ .error :: rest) (h : cs.length < ws.length * (t - 1)) :
    (State.splitWords t ws s).FailsFrom s rest := by
  induction ws generalizing s cs with
  | nil => simp at h
  | cons w ws ih =>
    rw [splitWords_cons]
    refine .of_quiet (beginWord_quiet s w) ?_
    by_cases hthis : cs.length < t - 1
    · have hcoef : (s.beginWord w).coef.length + cs.length < t := by
        rw [State.beginWord_coef, List.length_singleton]
        omega
      exact ((collectCoefs_failsFrom (s := s.beginWord w) hans hcoef).bind _).bind _
    · obtain ⟨now, later, rfl, hnow⟩ : ∃ now later, cs = now ++ later ∧ now.length = t - 1 :=
        ⟨cs.take (t - 1), cs.drop (t - 1), (List.take_append_drop _ _).symm, List.length_take_of_le (by omega)⟩
      have hcoef : (s.beginWord w).coef.length + now.length = t := by
        rw [State.beginWord_coef, List.length_singleton]
        omega
      have hlater : later.length < ws.length * (t - 1) := by
        rw [List.length_append, List.length_cons, Nat.succ_mul] at h
        omega
      rw [List.map_append, List.append_assoc] at hans
      exact .of_ready (splitWord_ready (s := s.beginWord w) hans hcoef) (splitWord_quiet _ t) (ih rfl hlater)

/-! ### Phases at an unanswered draw (R91) -/

/-- At a draw of the generator with no answer, the generator waits where it is. -/
theorem collectPoints_unanswered {s : State} {n : Nat} (hpos : s.pos = .points) (hans : s.answers = []) (h : s.xv.length < n) :
    s.collectPoints n = .waiting s := by
  rw [State.collectPoints, hans, drawUntil_nil, if_neg (by simpa using h), ← hans, ← hpos]

/-- At a draw of a coefficient with no answer, the command waits where it is. -/
theorem collectCoefs_unanswered {s : State} {t : Nat} (hpos : s.pos = .coeffs) (hans : s.answers = []) (h : s.coef.length < t) :
    s.collectCoefs t = .waiting s := by
  rw [State.collectCoefs, hans, drawUntil_nil, if_neg (by simpa using h), ← hans, ← hpos]

/-! ### Commands from their beginning -/

theorem execGenpt_start {s : State} {n : Nat} (hpos : s.pos = .start) (hok : genptError s.params n = none) :
    execGenpt n s = .next (s.beginPoints.genptRun n) := by
  rw [execGenpt, if_neg (by simp [hpos]), hok]

theorem execWsplit_start {s : State} {t n : Nat} {w : Word} (hpos : s.pos = .start) (hok : wsplitError s.params t n = none) :
    execWsplit t n w s = .next (State.wsplitRun (State.beginWord { s with xv := s.pointXs n } w) t) := by
  rw [execWsplit, if_neg (by simp [hpos]), hok]

theorem execSplit_start {s : State} {t n len : Nat} (hpos : s.pos = .start) (hok : splitError s.params t n len = none) :
    execSplit t n len s =
      .next (State.splitFromPoints (State.beginPoints { s with sw := s.secretWords (len / 2) }) t n) := by
  rw [execSplit, if_neg (by simp [hpos]), if_neg (by simp [hpos]), hok]

end Sys2Proof.Machine
end

section
/-! CERTIFICATE. The random-source port (40_field_and_random.md R91, R92). -/

namespace Sys2Proof.Machine

/-! ### An unanswered draw (R91) -/

/-- A command at a draw of the generator goes no further without an answer. -/
theorem State.AtPoints.coreTurn_unanswered {s : State} (h : s.AtPoints) (hb : s.state = .busy) (hans : s.answers = []) :
    coreTurn s = .next s := by
  obtain ⟨hpos, -, ⟨n, hcmd, -, hlen⟩ | ⟨t, n, len, hcmd, -, hlen, -⟩⟩ := h <;> rw [coreTurn, if_pos hb, hcmd]
  · change execGenpt n s = _
    rw [execGenpt, if_pos hpos, State.genptRun, collectPoints_unanswered hpos hans hlen, Phase.andThen]
  · change execSplit t n len s = _
    rw [execSplit, if_pos hpos, State.splitFromPoints, collectPoints_unanswered hpos hans hlen, Phase.bind, Phase.andThen]

/-- A command at a draw of a coefficient goes no further without an answer. -/
theorem State.AtCoefs.coreTurn_unanswered {s : State} (h : s.AtCoefs) (hb : s.state = .busy) (hans : s.answers = []) :
    coreTurn s = .next s := by
  obtain ⟨hpos, ⟨t, n, w, hcmd, -, -, hlen⟩ | ⟨t, n, len, hcmd, -, -, -, -, -, -, hlen⟩⟩ := h <;>
    rw [coreTurn, if_pos hb, hcmd]
  · change execWsplit t n w s = _
    rw [execWsplit, if_pos hpos, State.wsplitRun, collectCoefs_unanswered hpos hans hlen, Phase.andThen]
  · change execSplit t n len s = _
    rw [execSplit, if_neg (by simp [hpos]), if_pos hpos, State.splitFromCoefs, State.splitWord,
      collectCoefs_unanswered hpos hans hlen, Phase.bind, Phase.bind, Phase.andThen]

/-- While BUSY no host access, read or write, changes more than the reply. -/
theorem State.hostAccess_busy_frame {s : State} (hb : s.state = .busy) (a : Access) :
    s.hostAccess a = { s with reply := (s.hostAccess a).reply } := by
  cases a with
  | read offset width => rw [State.hostAccess_read_eq]
  | write offset width v => exact State.hostAccess_write_busy_frame hb offset width v

/-- Settles O32: under the invariant a BUSY block past its beginning is at a draw, of a point or of a coefficient. -/
theorem unansweredDrawStaysBusy : Obligations.UnansweredDrawStaysBusy := by
  unfold Obligations.UnansweredDrawStaysBusy
  intro s hinv hb hstart hans
  refine ⟨?turn, State.hostAccess_busy_frame hb, rfl⟩
  obtain hpos | hpoints | hcoefs := hinv.sequencer.place hb
  · exact absurd hpos hstart
  · exact hpoints.coreTurn_unanswered hb hans
  · exact hcoefs.coreTurn_unanswered hb hans

/-! ### The first error answer (R92) -/

/-- GENPT: an error answer before the `n`-th point (R104). -/
theorem execGenpt_error_answer {s : State} {n : Nat} {vs : List Word} {rest : List Answer} (hpos : s.pos = .start)
    (hok : genptError s.params n = none) (hans : s.answers = vs.map .value ++ .error :: rest) (h : (kept vs).length < n) :
    ∃ t, execGenpt n s = .next t ∧ Raised s t .rng ∧ t.answers = rest :=
  ⟨_, execGenpt_start hpos hok, (collectPoints_failsFrom hans h).raised _⟩

/-- WSPLIT: an error answer before the last coefficient (R118). -/
theorem execWsplit_error_answer {s : State} {t n : Nat} {w : Word} {vs : List Word} {rest : List Answer}
    (hpos : s.pos = .start) (hok : wsplitError s.params t n = none) (hans : s.answers = vs.map .value ++ .error :: rest)
    (h : 1 + vs.length < t) : ∃ u, execWsplit t n w s = .next u ∧ Raised s u .rng ∧ u.answers = rest :=
  ⟨_, execWsplit_start hpos hok,
    ((collectCoefs_failsFrom (s := State.beginWord { s with xv := s.pointXs n } w) hans h).of_quiet
      (quiet_of_scratch s)).raised _⟩

/-- SPLIT: an error answer in the generator (R147). -/
theorem execSplit_error_answer_points {s : State} {t n len : Nat} {vs : List Word} {rest : List Answer}
    (hpos : s.pos = .start) (hok : splitError s.params t n len = none)
    (hans : s.answers = vs.map .value ++ .error :: rest) (h : (kept vs).length < n) :
    ∃ u, execSplit t n len s = .next u ∧ Raised s u .rng ∧ u.answers = rest :=
  ⟨_, execSplit_start hpos hok,
    (((collectPoints_failsFrom (s := { s with sw := s.secretWords (len / 2) }) hans h).bind _).of_quiet
      (quiet_of_scratch s)).raised _⟩

/-- SPLIT: an error answer at a coefficient of any word (R147). -/
theorem execSplit_error_answer_coefs {s : State} {t n len : Nat} {vs cs : List Word} {rest : List Answer}
    (hpos : s.pos = .start) (hok : splitError s.params t n len = none)
    (hans : s.answers = vs.map .value ++ (cs.map .value ++ .error :: rest)) (hn : (kept vs).length = n)
    (hlast : (kept vs.dropLast).length < n) (h : cs.length < len / 2 * (t - 1)) :
    ∃ u, execSplit t n len s = .next u ∧ Raised s u .rng ∧ u.answers = rest := by
  have ht : 1 ≤ t := Nat.one_le_iff_ne_zero.2 (splitError_eq_none.1 hok).1
  have hwords : cs.length < (s.secretWords (len / 2)).length * (t - 1) := by
    rwa [State.secretWords, length_readWords]
  refine ⟨_, execSplit_start hpos hok, Phase.FailsFrom.raised ?_ _⟩
  refine .of_quiet (quiet_of_scratch s) (.of_ready
    (collectPoints_ready (s := { s with sw := s.secretWords (len / 2) }) hans hn hlast) (collectPoints_quiet _ n) ?_)
  exact .of_quiet (quiet_of_scratch _) (splitWords_failsFrom ht rfl hwords)

/-- Settles O34: the phase that meets the error answer fails, and the command raises RNG there. -/
theorem firstErrorAnswerEndsTheCommand : Obligations.FirstErrorAnswerEndsTheCommand := by
  unfold Obligations.FirstErrorAnswerEndsTheCommand
  refine ⟨?genpt, ?wsplit, ?splitPoints, ?splitCoefs⟩
  case genpt =>
    intro n s vs rest hpos hn hcap hans h
    exact execGenpt_error_answer hpos (genptError_eq_none.2 ⟨by omega, hcap⟩) hans h
  case wsplit =>
    intro t n w s vs rest hpos ht hn htcap hncap hans h
    exact execWsplit_error_answer hpos (wsplitError_eq_none.2 ⟨by omega, by omega, htcap, hncap⟩) hans (by omega)
  case splitPoints =>
    intro t n len s vs rest hpos ht htn hlen heven hncap hmcap hans h
    have hok : splitError s.params t n len = none :=
      splitError_eq_none.2 ⟨by omega, by omega, htn, by omega, heven, hncap, hmcap⟩
    exact execSplit_error_answer_points hpos hok hans h
  case splitCoefs =>
    intro t n len s vs cs rest hpos ht htn hlen heven hncap hmcap hans hn hlast h
    have hok : splitError s.params t n len = none :=
      splitError_eq_none.2 ⟨by omega, by omega, htn, by omega, heven, hncap, hmcap⟩
    rw [List.append_assoc] at hans
    exact execSplit_error_answer_coefs hpos hok hans hn hlast h

end Sys2Proof.Machine
end

section
/-! SUPPORT. A threshold of 1 (42_wsplit_peval.md R113, R116): the polynomial is a constant and a word needs no draw. SPLIT from
its words on, and the bytes it outputs (44_split_combine.md R144, R145). -/

namespace Sys2Proof.Machine

/-! ### The constant polynomial -/

/-- The polynomial of one coefficient is constant, under every lawful Field (R116). -/
theorem polyEval_singleton {F : FieldOps} (hF : F.Lawful) (c x : Word) : polyEval F [c] x = c := by
  change F.add 0 (F.mul c F.one) = c
  rw [hF.mul_one, hF.add_comm, hF.add_zero]

/-- The y-values of a word that is its only coefficient. -/
theorem map_polyEval_singleton {F : FieldOps} (hF : F.Lawful) (c : Word) (xs : List Word) :
    xs.map (polyEval F [c]) = xs.map fun _ => c :=
  List.map_congr_left fun x _ => polyEval_singleton hF c x

/-! ### No coefficient is drawn -/

/-- With threshold 1 a word's coefficients are complete at once. -/
theorem collectCoefs_one {s : State} {w : Word} (h : s.coef = [w]) : s.collectCoefs 1 = .ready s := by
  rw [collectCoefs_ready (cs := []) rfl (by simp [h]), List.append_nil]

/-- With threshold 1 the Word-Split Engine repeats the word at every point. -/
theorem wsplitRun_one {s : State} {w : Word} (hF : s.field.Lawful) (h : s.coef = [w]) :
    s.wsplitRun 1 = s.complete (wordsToBytes s.bo (s.xv.map fun _ => w)) := by
  rw [State.wsplitRun, collectCoefs_one h, Phase.andThen, State.yValues, h, map_polyEval_singleton hF]

/-- With threshold 1 a word is split at once: the next row of YV repeats it at every point. -/
theorem splitWord_one {s : State} {w : Word} (hF : s.field.Lawful) (h : s.coef = [w]) :
    s.splitWord 1 = .ready { s with yv := s.yv ++ [s.xv.map fun _ => w] } := by
  rw [State.splitWord, collectCoefs_one h, Phase.bind, State.yValues, h, map_polyEval_singleton hF]

/-- With threshold 1 all words are split at once, each row of YV repeating its word; COEF holds the last of them. -/
theorem splitWords_one {s : State} (hF : s.field.Lawful) (ws : List Word) :
    ∃ coef, State.splitWords 1 ws s =
      .ready { s with coef := coef, yv := s.yv ++ ws.map fun w => s.xv.map fun _ => w } := by
  induction ws generalizing s with
  | nil => exact ⟨s.coef, by simp⟩
  | cons w ws ih =>
    obtain ⟨coef, hrest⟩ := ih (s := { s.beginWord w with yv := s.yv ++ [s.xv.map fun _ => w] }) hF
    refine ⟨coef, ?_⟩
    rw [splitWords_cons, splitWord_one (s := s.beginWord w) hF rfl, Phase.bind, List.map_cons, List.append_cons s.yv]
    exact hrest

/-! ### SPLIT from the words on -/

/-- SPLIT once its points are complete (R143), before its first word. -/
def State.pointsComplete (s : State) (m : Nat) (points : List Word) (rest : List Answer) : State :=
  { s with sw := s.secretWords m, xv := points, seen := points.reverse, answers := rest, yv := [] }

theorem pointsComplete_quiet (s : State) (m : Nat) (points : List Word) (rest : List Answer) :
    Quiet s (s.pointsComplete m points rest) :=
  ⟨⟨rfl, rfl, rfl, rfl, rfl, rfl, rfl, rfl, rfl⟩, rfl, rfl, rfl, rfl, rfl, rfl⟩

/-- A SPLIT whose points are answered serialises what its words leave (R144 to R146). -/
theorem execSplit_of_words_ready {s u : State} {t n len : Nat} {vs : List Word} {rest : List Answer} (hpos : s.pos = .start)
    (hok : splitError s.params t n len = none) (hans : s.answers = vs.map .value ++ rest) (hn : (kept vs).length = n)
    (hlast : (kept vs.dropLast).length < n)
    (hwords : State.splitWords t (s.secretWords (len / 2)) (s.pointsComplete (len / 2) (kept vs) rest) = .ready u) :
    execSplit t n len s = .next u.splitFinish ∧ Quiet s u := by
  have hpoints := collectPoints_ready (s := { s with sw := s.secretWords (len / 2) }) hans hn hlast
  have hquiet := splitWords_quiet t (s.secretWords (len / 2)) (s.pointsComplete (len / 2) (kept vs) rest)
  rw [hwords] at hquiet
  refine ⟨?_, (pointsComplete_quiet ..).trans hquiet⟩
  rw [execSplit_start hpos hok, State.splitFromPoints, hpoints]
  change Host.Outcome.next ((State.splitWords t _ (s.pointsComplete _ _ _)).andThen _) = _
  rw [hwords, Phase.andThen]

/-! ### The bytes output -/

/-- A word read from two bytes is written back as those bytes (20_memory.md R44, R45). -/
theorem w2b_b2w (b0 b1 : Byte) (bo : Bool) : w2b (b2w b0 b1 bo) bo = [b0, b1] := by
  have hhigh (hi lo : Byte) : (hi ++ lo : Word).extractLsb' 8 8 = hi := BitVec.extractLsb'_append_eq_left
  have hlow (hi lo : Byte) : (hi ++ lo : Word).extractLsb' 0 8 = lo := BitVec.extractLsb'_append_eq_right
  cases bo <;> simp [w2b, b2w, hhigh, hlow]

/-- The words of the secret, serialised, are its bytes (R47). -/
theorem wordsToBytes_secretWords (s : State) (m : Nat) :
    wordsToBytes s.bo (s.secretWords m) = (List.range (2 * m)).map s.readIn := by
  induction m with
  | zero => rfl
  | succ m ih =>
    have hlast : s.secretWords (m + 1) = s.secretWords m ++ [s.readWord (2 * m)] := by
      simp [State.secretWords, State.readWords, List.range_succ]
    rw [hlast, wordsToBytes_append, ih, wordsToBytes_cons, wordsToBytes_nil, State.readWord, w2b_b2w, Nat.mul_succ,
      List.range_succ, List.range_succ]
    simp

/-- When each row of YV holds a function's values at the points, the record of a point is its values (R145). -/
theorem sharesBytes_of_rows {α : Type} (bo : Bool) (xs : List Word) (rows : List α) (value : α → Word → Word) :
    sharesBytes bo xs (rows.map fun r => xs.map (value r)) = xs.flatMap fun x => shareBytes bo x (rows.map (value · x)) := by
  have hrecord : ∀ i ∈ List.range xs.length,
      shareBytes bo (xs.getD i 0) ((rows.map fun r => xs.map (value r)).map fun row => row.getD i 0) =
        shareBytes bo (xs.getD i 0) (rows.map (value · (xs.getD i 0))) := by
    intro i hi
    have hlt : i < xs.length := List.mem_range.1 hi
    simp [Function.comp_def, hlt]
  have hxs : (List.range xs.length).map (fun i => xs.getD i 0) = xs := by
    apply List.ext_getElem <;> simp +contextual
  calc sharesBytes bo xs (rows.map fun r => xs.map (value r))
      = (List.range xs.length).flatMap fun i => shareBytes bo (xs.getD i 0) (rows.map (value · (xs.getD i 0))) :=
        List.flatMap_congr hrecord
    _ = ((List.range xs.length).map fun i => xs.getD i 0).flatMap fun x => shareBytes bo x (rows.map (value · x)) := by
        rw [List.flatMap_map]
    _ = xs.flatMap fun x => shareBytes bo x (rows.map (value · x)) := by rw [hxs]

end Sys2Proof.Machine
end

section
/-! CERTIFICATE. WSPLIT and SPLIT with a threshold of 1 (42_wsplit_peval.md R116). -/

namespace Sys2Proof.Machine

/-- WSPLIT with `t = 1` outputs its word at every point and draws nothing. -/
theorem execWsplit_one {s : State} {n : Nat} (w : Word) (hF : s.field.Lawful) (hpos : s.pos = .start)
    (hok : wsplitError s.params 1 n = none) :
    ∃ u, execWsplit 1 n w s = .next u ∧ u.answers = s.answers ∧
      Completed s u ((List.range n).flatMap fun _ => w2b w s.bo) := by
  have hbytes : wordsToBytes s.bo ((s.pointXs n).map fun _ => w) = (List.range n).flatMap fun _ => w2b w s.bo := by
    simp [wordsToBytes, State.pointXs, State.readWords, List.flatMap_map]
  have hrun := wsplitRun_one (s := State.beginWord { s with xv := s.pointXs n } w) hF rfl
  rw [← hbytes, execWsplit_start hpos hok, hrun]
  exact ⟨_, rfl, rfl, (quiet_of_scratch s).completed _⟩

/-- SPLIT with `t = 1`: every share is a point followed by the secret in clear, and only the points are drawn. -/
theorem execSplit_one {s : State} {n len : Nat} {vs : List Word} {rest : List Answer} (hF : s.field.Lawful)
    (hpos : s.pos = .start) (hok : splitError s.params 1 n len = none) (hans : s.answers = vs.map .value ++ rest)
    (hn : (kept vs).length = n) (hlast : (kept vs.dropLast).length < n) :
    ∃ u, execSplit 1 n len s = .next u ∧ u.answers = rest ∧
      Completed s u ((kept vs).flatMap fun x => w2b x s.bo ++ (List.range len).map s.readIn) := by
  obtain ⟨-, -, -, -, heven, -⟩ := splitError_eq_none.1 hok
  obtain ⟨coef, hwords⟩ := splitWords_one (s := s.pointsComplete (len / 2) (kept vs) rest) hF (s.secretWords (len / 2))
  obtain ⟨hrun, hquiet⟩ := execSplit_of_words_ready hpos hok hans hn hlast hwords
  have hbytes : sharesBytes s.bo (kept vs) ((s.secretWords (len / 2)).map fun w => (kept vs).map fun _ => w) =
      (kept vs).flatMap fun x => w2b x s.bo ++ (List.range len).map s.readIn := by
    rw [sharesBytes_of_rows]
    simp only [List.map_id', shareBytes, wordsToBytes_cons, wordsToBytes_secretWords,
      Nat.mul_div_cancel' (Nat.dvd_of_mod_eq_zero heven)]
  rw [← hbytes]
  exact ⟨_, hrun, rfl, hquiet.completed _⟩

/-- Settles O44: the polynomials are constant, so their values are the words of the secret. -/
theorem thresholdOneSharesTheSecretInClear : Obligations.ThresholdOneSharesTheSecretInClear := by
  unfold Obligations.ThresholdOneSharesTheSecretInClear
  refine ⟨?wsplit, ?split⟩
  case wsplit =>
    intro n w s hF hpos hn hcap
    exact execWsplit_one w hF hpos (wsplitError_eq_none.2 ⟨by omega, by omega, by omega, hcap⟩)
  case split =>
    intro n len s vs rest hF hpos hn hcap hlen heven hmcap hans hkept hlast
    have hok : splitError s.params 1 n len = none :=
      splitError_eq_none.2 ⟨by omega, by omega, hn, by omega, heven, hcap, hmcap⟩
    exact execSplit_one hF hpos hok hans hkept hlast

end Sys2Proof.Machine
end

section
/-! SUPPORT. The algebra of a lawful Field (40_field_and_random.md R82 to R85): the laws make it a commutative ring without zero
divisors, so that a polynomial's coefficients are bounded by its zeros; and the polynomial's value in nested form. -/

namespace Sys2Proof

/-- The words, as the elements of the Field `F`. -/
def FieldOps.Carrier (_ : FieldOps) : Type := Word

namespace FieldOps.Lawful

variable {F : FieldOps} (h : F.Lawful)
include h

theorem zero_add (a : Word) : F.add 0 a = a := by rw [h.add_comm, h.add_zero]

theorem zero_mul (a : Word) : F.mul 0 a = 0 := by rw [h.mul_comm, h.mul_zero]

theorem one_mul (a : Word) : F.mul F.one a = a := by rw [h.mul_comm, h.mul_one]

theorem add_mul (a b c : Word) : F.mul (F.add a b) c = F.add (F.mul a c) (F.mul b c) := by
  rw [h.mul_comm, h.mul_add, h.mul_comm c a, h.mul_comm c b]

/-- In characteristic 2 a sum is zero exactly when its terms are equal. -/
theorem add_eq_zero_iff {a b : Word} : F.add a b = 0 ↔ a = b := by
  constructor
  · intro hab
    rw [← h.add_zero a, ← h.add_self b, ← h.add_assoc, hab, h.zero_add]
  · rintro rfl
    exact h.add_self a

theorem mul_eq_zero_iff {a b : Word} (hb : b ≠ 0) : F.mul a b = 0 ↔ a = 0 := by
  refine ⟨fun hab => (h.no_zero_divisors a b hab).resolve_right hb, ?_⟩
  rintro rfl
  exact h.zero_mul b

/-- There is more than one word, so one is not zero. -/
theorem one_ne_zero : F.one ≠ 0 := by
  intro hone
  have hzero (a : Word) : a = 0 := by rw [← h.mul_one a, hone, h.mul_zero]
  exact absurd (hzero 1) (by decide)

theorem inv_ne_zero {a : Word} (ha : a ≠ 0) : F.inv a ≠ 0 := by
  intro hinv
  have hone := h.mul_inv a ha
  rw [hinv, h.mul_zero] at hone
  exact h.one_ne_zero hone.symm

/-- A lawful Field is a commutative ring in Mathlib's sense; subtraction is addition. -/
@[reducible] def commRing : CommRing F.Carrier where
  add := F.add
  mul := F.mul
  zero := (0 : Word)
  one := F.one
  neg a := a
  add_assoc := h.add_assoc
  add_comm := h.add_comm
  zero_add := h.zero_add
  add_zero := h.add_zero
  neg_add_cancel := h.add_self
  mul_assoc := h.mul_assoc
  mul_comm := h.mul_comm
  one_mul := h.one_mul
  mul_one := h.mul_one
  zero_mul := h.zero_mul
  mul_zero := h.mul_zero
  left_distrib := h.mul_add
  right_distrib := h.add_mul
  nsmul := @nsmulRec F.Carrier ⟨(0 : Word)⟩ ⟨F.add⟩
  zsmul := @zsmulRec F.Carrier ⟨(0 : Word)⟩ ⟨F.add⟩ ⟨id⟩ (@nsmulRec F.Carrier ⟨(0 : Word)⟩ ⟨F.add⟩)

theorem isDomain : @IsDomain F.Carrier h.commRing.toSemiring :=
  letI := h.commRing
  haveI : Nontrivial F.Carrier := ⟨F.one, (0 : Word), h.one_ne_zero⟩
  haveI : NoZeroDivisors F.Carrier := ⟨fun {a b} => h.no_zero_divisors a b⟩
  NoZeroDivisors.to_isDomain F.Carrier

end FieldOps.Lawful

namespace Machine

/-! ### Polynomials in nested form -/

@[simp] theorem nested_nil (F : FieldOps) (x : Word) : nested F [] x = 0 := rfl

@[simp] theorem nested_cons (F : FieldOps) (c : Word) (cs : List Word) (x : Word) :
    nested F (c :: cs) x = F.add c (F.mul x (nested F cs x)) := rfl

variable {F : FieldOps} (hF : F.Lawful)
include hF

/-- At zero the value is the constant term. -/
theorem nested_zero (c : List Word) : nested F c 0 = c.headD 0 := by
  cases c with
  | nil => rfl
  | cons c cs => rw [nested_cons, hF.zero_mul, hF.add_zero, List.headD_cons]

/-- A polynomial of one coefficient is constant. -/
theorem nested_singleton (c x : Word) : nested F [c] x = c := by
  rw [nested_cons, nested_nil, hF.mul_zero, hF.add_zero]

/-- The nested form is the sum of the powers with their coefficients. -/
theorem nested_eq_sum (c : List F.Carrier) (x : F.Carrier) :
    letI := hF.commRing
    nested F c x = ∑ i : Fin c.length, x ^ (i : ℕ) * c.get i := by
  let := hF.commRing
  induction c with
  | nil => rfl
  | cons c cs ih =>
    refine (congrArg (fun v : F.Carrier => c + x * v) ih).trans (.trans ?_ (Fin.sum_univ_succ _).symm)
    simp [Finset.mul_sum, pow_succ', mul_assoc]

/-- A polynomial with at least as many distinct zeros as coefficients is zero: the Vandermonde determinant of its zeros is not
zero. -/
theorem eq_zero_of_nested_eq_zero {c xs : List Word} (hxs : xs.Nodup) (hlen : c.length ≤ xs.length)
    (hzero : ∀ x ∈ xs, nested F c x = 0) : ∀ a ∈ c, a = 0 := by
  let := hF.commRing
  have := hF.isDomain
  intro a ha
  obtain ⟨i, hi, rfl⟩ := List.getElem_of_mem ha
  have hinj : Function.Injective fun j : Fin c.length => (xs.get (j.castLE hlen) : F.Carrier) :=
    (List.nodup_iff_injective_get.1 hxs).comp (Fin.castLE_injective hlen)
  have hcoef := Matrix.eq_zero_of_forall_index_sum_pow_mul_eq_zero (R := F.Carrier) (v := c.get) hinj
    fun j => (nested_eq_sum hF c _).symm.trans (hzero _ (List.get_mem ..))
  exact congrFun hcoef ⟨i, hi⟩

end Machine
end Sys2Proof
end

section
/-! SUPPORT. The matrix of the Word-Combine Engine (43_wcomb.md R126 to R130): what each row operation leaves in each row, and a
row read as a linear form, under which the equations of R125 are common zeros of the rows. -/

namespace Sys2Proof.Machine

/-! ### Rows as linear forms -/

/-- The linear form with the coefficients of a row, at a vector: an equation of R125 holds for the unknowns `a` when its row
takes the value zero at `a` followed by one. -/
def rowForm (F : FieldOps) : List Word → List Word → Word
  | _, [] => 0
  | row, v :: vs => F.add (F.mul (row.getD 0 0) v) (rowForm F row.tail vs)

@[simp] theorem rowForm_nil (F : FieldOps) (row : List Word) : rowForm F row [] = 0 := rfl

@[simp] theorem rowForm_cons (F : FieldOps) (row : List Word) (v : Word) (vs : List Word) :
    rowForm F row (v :: vs) = F.add (F.mul (row.getD 0 0) v) (rowForm F row.tail vs) := rfl

/-- The rows of `m` vanish at `v`. -/
def Matrix.Vanishes (F : FieldOps) (m : Matrix) (v : List Word) : Prop := ∀ i, rowForm F (m.getD i []) v = 0

theorem length_powersFrom (F : FieldOps) (x : Word) (n : Nat) (p : Word) : (powersFrom F x n p).length = n := by
  induction n generalizing p with
  | zero => rfl
  | succ n ih => rw [powersFrom, List.length_cons, ih]

/-! ### The row operations, row by row -/

theorem row_swapRows (m : Matrix) {r q : Nat} (hr : r < m.length) (hq : q < m.length) (i : Nat) :
    (m.swapRows r q).getD i [] = m.getD (Equiv.swap r q i) [] := by
  simp only [Matrix.swapRows, List.getD_eq_getElem?_getD, List.getElem?_set, List.length_set, Equiv.swap_apply_def]
  by_cases hiq : i = q
  · subst hiq
    by_cases hir : i = r
    · simp [← hir, hq]
    · simp [hir, hq]
  · by_cases hir : i = r
    · subst hir
      simp [hr, Ne.symm hiq]
    · simp [hir, hiq, Ne.symm hiq, Ne.symm hir]

theorem row_scalePivot (F : FieldOps) (r : Nat) (m : Matrix) (i : Nat) :
    (scalePivot F r m).getD i [] =
      if i = r then scaleRow F (F.inv (m.entry r r)) (m.getD r []) else m.getD i [] := by
  simp only [scalePivot, List.getD_eq_getElem?_getD, List.getElem?_set]
  by_cases hir : i = r
  · subst hir
    by_cases hi : i < m.length
    · simp [hi]
    · simp [hi, scaleRow]
  · simp [hir, Ne.symm hir]

theorem row_eliminateBelow (F : FieldOps) (r : Nat) (m : Matrix) (i : Nat) :
    (eliminateBelow F r m).getD i [] =
      if r < i then eliminateRow F r (m.getD r []) (m.getD i []) else m.getD i [] := by
  simp only [eliminateBelow, List.getD_eq_getElem?_getD, List.getElem?_mapIdx]
  cases m[i]? with
  | none => simp [eliminateRow]
  | some row => rfl

theorem row_backStep (F : FieldOps) (m : Matrix) {r : Nat} (hr : r ≠ 0) (hlen : r < m.length) (i : Nat) :
    (backStep F m r).getD i [] =
      if i = 0 then List.zipWith F.add (m.getD 0 []) (scaleRow F (m.entry 0 r) (m.getD r []))
      else if i = r then scaleRow F (m.entry 0 r) (m.getD r []) else m.getD i [] := by
  have h0 : 0 < m.length := by omega
  simp only [backStep, List.getD_eq_getElem?_getD, List.getElem?_set, List.length_set]
  by_cases hi : i = 0
  · simp [hi, h0, hr, hlen]
  · by_cases hir : i = r
    · simp [hir, hlen, hr, Ne.symm hr]
    · simp [hi, hir, Ne.symm hi, Ne.symm hir]

@[simp] theorem length_scalePivot (F : FieldOps) (r : Nat) (m : Matrix) : (scalePivot F r m).length = m.length := by
  simp [scalePivot]

@[simp] theorem length_eliminateBelow (F : FieldOps) (r : Nat) (m : Matrix) :
    (eliminateBelow F r m).length = m.length := by
  simp [eliminateBelow]

@[simp] theorem length_backStep (F : FieldOps) (m : Matrix) (r : Nat) : (backStep F m r).length = m.length := by
  simp [backStep]

@[simp] theorem length_scaleRow (F : FieldOps) (v : Word) (row : List Word) : (scaleRow F v row).length = row.length := by
  simp [scaleRow]

@[simp] theorem length_swapRows (m : Matrix) (r q : Nat) : (m.swapRows r q).length = m.length := by
  simp [Matrix.swapRows]

theorem getD_zipWith_add {F : FieldOps} (hF : F.Lawful) {row row' : List Word} (hlen : row.length = row'.length) (c : Nat) :
    (List.zipWith F.add row row').getD c 0 = F.add (row.getD c 0) (row'.getD c 0) := by
  simp only [List.getD_eq_getElem?_getD, List.getElem?_zipWith]
  by_cases hc : c < row.length
  · simp [hc, hlen ▸ hc]
  · have hc' : ¬ c < row'.length := hlen ▸ hc
    simpa [hc, hc'] using (hF.add_zero 0).symm

theorem getD_tail (row : List Word) (c : Nat) : row.tail.getD c 0 = row.getD (c + 1) 0 := by
  rw [List.getD_eq_getElem?_getD, List.getElem?_tail, List.getD_eq_getElem?_getD]

theorem getD_scaleRow {F : FieldOps} (hF : F.Lawful) (v : Word) (row : List Word) (c : Nat) :
    (scaleRow F v row).getD c 0 = F.mul (row.getD c 0) v := by
  simp only [scaleRow, List.getD_eq_getElem?_getD, List.getElem?_map]
  cases row[c]? with
  | none => exact (hF.zero_mul v).symm
  | some e => rfl

section
variable {F : FieldOps} (hF : F.Lawful)
include hF

/-- A row below the pivot gets the pivot row, scaled by its own entry in the pivot column, added (R129). -/
theorem eliminateRow_eq (r : Nat) (pivotRow row : List Word) :
    eliminateRow F r pivotRow row = List.zipWith F.add row (scaleRow F (row.getD r 0) pivotRow) := by
  simp only [eliminateRow, scaleRow, List.zipWith_map_right, hF.mul_comm]

/-! ### The linear form of a row computed -/

theorem rowForm_zipWith_add {row row' : List Word} (hlen : row.length = row'.length) (vs : List Word) :
    rowForm F (List.zipWith F.add row row') vs = F.add (rowForm F row vs) (rowForm F row' vs) := by
  let := hF.commRing
  induction vs generalizing row row' with
  | nil => exact (hF.add_zero 0).symm
  | cons v vs ih =>
    rw [rowForm_cons, rowForm_cons, rowForm_cons, getD_zipWith_add hF hlen, List.tail_zipWith, ih (by simp [hlen]), hF.add_mul]
    exact add_add_add_comm (G := F.Carrier) ..

theorem rowForm_scaleRow (a : Word) (row vs : List Word) : rowForm F (scaleRow F a row) vs = F.mul (rowForm F row vs) a := by
  let := hF.commRing
  induction vs generalizing row with
  | nil => exact (hF.zero_mul a).symm
  | cons v vs ih =>
    have htail : (scaleRow F a row).tail = scaleRow F a row.tail := List.map_tail.symm
    rw [rowForm_cons, rowForm_cons, getD_scaleRow hF, htail, ih, hF.add_mul]
    exact congrArg (F.add · _) (mul_right_comm (G := F.Carrier) ..)

theorem rowForm_of_nil (vs : List Word) : rowForm F [] vs = 0 := by
  induction vs with
  | nil => rfl
  | cons v vs ih => rw [rowForm_cons, List.getD_nil, hF.zero_mul, List.tail_nil, ih, hF.add_zero]

/-- Only the places from the first entry on that may be non-zero count. -/
theorem rowForm_append {row e : List Word} (hzero : ∀ c < e.length, row.getD c 0 = 0) (v : Word) (vs : List Word) :
    rowForm F row (e ++ v :: vs) =
      F.add (F.mul (row.getD e.length 0) v) (rowForm F (row.drop (e.length + 1)) vs) := by
  induction e generalizing row with
  | nil => rw [List.nil_append, rowForm_cons, List.length_nil, List.drop_one]
  | cons a e ih =>
    have hrest : ∀ c < e.length, row.tail.getD c 0 = 0 := fun c hc => by
      rw [getD_tail]
      exact hzero (c + 1) (Nat.succ_lt_succ hc)
    rw [List.cons_append, rowForm_cons, hzero 0 (Nat.zero_lt_succ _), hF.zero_mul, hF.zero_add, ih hrest, getD_tail,
      List.drop_tail, List.length_cons]

/-- A row of the built matrix at coefficients and a last component (R126). -/
theorem rowForm_powersFrom {n : Nat} {c : List Word} (hc : c.length = n) (x p y z : Word) :
    rowForm F (powersFrom F x n p ++ [y]) (c ++ [z]) = F.add (F.mul p (nested F c x)) (F.mul y z) := by
  induction c generalizing n p with
  | nil =>
    subst hc
    rw [List.nil_append, rowForm_cons, rowForm_nil, nested_nil, hF.mul_zero, hF.zero_add, hF.add_zero]
    rfl
  | cons a c ih =>
    subst hc
    simp only [List.length_cons, powersFrom, List.cons_append, rowForm_cons, List.getD_cons_zero, List.tail_cons, ih rfl,
      nested_cons, hF.mul_add, hF.mul_assoc, hF.add_assoc]

end
end Sys2Proof.Machine
end

section
/-! SUPPORT. Forward elimination (43_wcomb.md R127 to R129): it keeps the common zeros of the rows, and the shape it ends in decides
which those are. -/

namespace Sys2Proof.Machine

/-! ### The pivot, and one column -/

/-- The shape before column `r` of `k` is taken: left of the diagonal the columns taken are zero, on it they hold one. -/
structure Echelon (F : FieldOps) (k r : Nat) (m : Matrix) : Prop where
  length : m.length = k
  width : ∀ i < k, (m.getD i []).length = k + 1
  left : ∀ i < k, ∀ c < i, c < r → m.entry i c = 0
  diag : ∀ i < r, m.entry i i = F.one

/-- The pivot choice of R127: no row from `r` on has an entry in the column, or one of them becomes the pivot row. -/
theorem choosePivot_cases (m : Matrix) {k r : Nat} (hlen : m.length = k) (hr : r < k) :
    (choosePivot k r m = none ∧ ∀ i < k, r ≤ i → m.entry i r = 0) ∨
    ∃ m' q, choosePivot k r m = some m' ∧ r ≤ q ∧ q < k ∧ m'.length = k ∧
      (∀ i, m'.getD i [] = m.getD (Equiv.swap r q i) []) ∧ m'.entry r r ≠ 0 := by
  by_cases hp : m.entry r r = 0
  · simp only [choosePivot, hp, ne_eq, not_true_eq_false, if_false]
    cases hfind : (List.range' (r + 1) (k - (r + 1))).find? fun q => decide (m.entry q r ≠ 0) with
    | none =>
      refine .inl ⟨rfl, fun i hi hri => ?_⟩
      obtain rfl | hlt := Nat.eq_or_lt_of_le hri
      · exact hp
      · simpa using List.find?_eq_none.1 hfind i (List.mem_range'_1.2 ⟨hlt, by omega⟩)
    | some q =>
      have hq := List.mem_range'_1.1 (List.mem_of_find?_eq_some hfind)
      have hrow := row_swapRows m (r := r) (q := q) (by omega) (by omega)
      have hentry : m.entry q r ≠ 0 := by simpa using List.find?_some hfind
      refine .inr ⟨m.swapRows r q, q, rfl, by omega, by omega, by simp [hlen], hrow, ?_⟩
      rwa [Matrix.entry, hrow, Equiv.swap_apply_left]
  · exact .inr ⟨m, r, if_pos hp, le_rfl, hr, hlen, fun i => by rw [Equiv.swap_self, Equiv.refl_apply], hp⟩

theorem Matrix.vanishes_of_rows_swapped {F : FieldOps} {m m' : Matrix} {r q : Nat}
    (hrow : ∀ i, m'.getD i [] = m.getD (Equiv.swap r q i) []) (v : List Word) : m'.Vanishes F v ↔ m.Vanishes F v := by
  simp only [Matrix.Vanishes, hrow]
  exact (Equiv.swap r q).forall_congr_right (q := fun i => rowForm F (m.getD i []) v = 0)

/-- Exchanging rows none of which is done keeps the shape. -/
theorem Echelon.of_rows_swapped {F : FieldOps} {k r q : Nat} {m m' : Matrix} (h : Echelon F k r m) (hr : r ≤ q) (hq : q < k)
    (hlen : m'.length = k) (hrow : ∀ i, m'.getD i [] = m.getD (Equiv.swap r q i) []) : Echelon F k r m' := by
  have hdone : ∀ i < r, Equiv.swap r q i = i := fun i hi => Equiv.swap_apply_of_ne_of_ne (by omega) (by omega)
  have hbelow : ∀ i < k, r ≤ i → r ≤ Equiv.swap r q i ∧ Equiv.swap r q i < k := by
    intro i hi hri
    rw [Equiv.swap_apply_def]
    split_ifs <;> omega
  have hentry (i c : Nat) : m'.entry i c = m.entry (Equiv.swap r q i) c := by
    rw [Matrix.entry, hrow, Matrix.entry]
  refine ⟨hlen, ?width, ?left, ?diag⟩
  case width =>
    intro i hi
    rw [hrow]
    obtain hir | hri := Nat.lt_or_ge i r
    · rw [hdone i hir]
      exact h.width i hi
    · exact h.width _ (hbelow i hi hri).2
  case left =>
    intro i hi c hci hcr
    rw [hentry]
    obtain hir | hri := Nat.lt_or_ge i r
    · rw [hdone i hir]
      exact h.left i hi c hci hcr
    · obtain ⟨hge, hlt⟩ := hbelow i hi hri
      exact h.left _ hlt c (by omega) hcr
  case diag =>
    intro i hi
    rw [hentry, hdone i hi]
    exact h.diag i hi

section
variable {F : FieldOps} (hF : F.Lawful) {k r n : Nat} {m : Matrix}
include hF

theorem entry_scalePivot (i c : Nat) :
    (scalePivot F r m).entry i c = if i = r then F.mul (m.entry r c) (F.inv (m.entry r r)) else m.entry i c := by
  rw [Matrix.entry, row_scalePivot]
  split
  · exact getD_scaleRow hF ..
  · rfl

theorem entry_eliminateBelow {i : Nat} (hwidth : (m.getD i []).length = (m.getD r []).length) (c : Nat) :
    (eliminateBelow F r m).entry i c =
      if r < i then F.add (m.entry i c) (F.mul (m.entry r c) (m.entry i r)) else m.entry i c := by
  rw [Matrix.entry, row_eliminateBelow]
  split
  · rw [eliminateRow_eq hF, getD_zipWith_add hF (by rw [hwidth, length_scaleRow]), getD_scaleRow hF]
    rfl
  · rfl

/-- Scaling the pivot row keeps the common zeros, as the pivot's inverse is not zero. -/
theorem vanishes_scalePivot (hp : m.entry r r ≠ 0) (v : List Word) :
    (scalePivot F r m).Vanishes F v ↔ m.Vanishes F v := by
  refine forall_congr' fun i => ?_
  rw [row_scalePivot]
  split
  · next hi => rw [rowForm_scaleRow hF, hF.mul_eq_zero_iff (hF.inv_ne_zero hp), hi]
  · rfl

/-- Adding multiples of the pivot row to rows below keeps the common zeros. -/
theorem vanishes_eliminateBelow (hr : r < k) (hlen : m.length = k) (hwidth : ∀ i < k, (m.getD i []).length = k + 1)
    (v : List Word) : (eliminateBelow F r m).Vanishes F v ↔ m.Vanishes F v := by
  have hrow (i : Nat) (hpivot : rowForm F (m.getD r []) v = 0) :
      rowForm F ((eliminateBelow F r m).getD i []) v = rowForm F (m.getD i []) v := by
    rw [row_eliminateBelow]
    split
    · obtain hi | hi := Nat.lt_or_ge i k
      · rw [eliminateRow_eq hF, rowForm_zipWith_add hF (by rw [length_scaleRow, hwidth i hi, hwidth r hr]),
          rowForm_scaleRow hF, hpivot, hF.zero_mul, hF.add_zero]
      · have hnil : m.getD i [] = [] := List.getD_eq_default _ _ (by omega)
        rw [hnil, eliminateRow, List.zipWith_nil_left]
    · rfl
  have hpivotRow : (eliminateBelow F r m).getD r [] = m.getD r [] := by
    rw [row_eliminateBelow, if_neg (Nat.lt_irrefl r)]
  constructor
  · intro hv i
    rw [← hrow i (hpivotRow ▸ hv r)]
    exact hv i
  · intro hv i
    rw [hrow i (hv r)]
    exact hv i

/-- Scaling by the pivot's inverse puts one on the diagonal (R128). -/
theorem Echelon.after_scalePivot (h : Echelon F k r m) (hp : m.entry r r ≠ 0) (hr : r < k) :
    Echelon F k r (scalePivot F r m) ∧ (scalePivot F r m).entry r r = F.one := by
  refine ⟨⟨?length, ?width, ?left, ?diag⟩, ?pivot⟩
  case length => rw [length_scalePivot, h.length]
  case width =>
    intro i hi
    rw [row_scalePivot]
    split
    · rw [length_scaleRow, h.width r hr]
    · exact h.width i hi
  case left =>
    intro i hi c hci hcr
    rw [entry_scalePivot hF]
    split
    · rw [h.left r hr c hcr hcr, hF.zero_mul]
    · exact h.left i hi c hci hcr
  case diag =>
    intro i hi
    rw [entry_scalePivot hF, if_neg (Nat.ne_of_lt hi)]
    exact h.diag i hi
  case pivot => rw [entry_scalePivot hF, if_pos rfl, hF.mul_inv _ hp]

/-- Elimination clears the column below a pivot of one (R129). -/
theorem Echelon.after_eliminateBelow (h : Echelon F k r m) (hp : m.entry r r = F.one) (hr : r < k) :
    Echelon F k (r + 1) (eliminateBelow F r m) := by
  have hentry : ∀ i < k, ∀ c, (eliminateBelow F r m).entry i c =
      if r < i then F.add (m.entry i c) (F.mul (m.entry r c) (m.entry i r)) else m.entry i c := fun i hi c =>
    entry_eliminateBelow hF (by rw [h.width i hi, h.width r hr]) c
  refine ⟨?length, ?width, ?left, ?diag⟩
  case length => rw [length_eliminateBelow, h.length]
  case width =>
    intro i hi
    rw [row_eliminateBelow]
    split
    · rw [eliminateRow, List.length_zipWith, h.width i hi, h.width r hr, Nat.min_self]
    · exact h.width i hi
  case left =>
    intro i hi c hci hcr
    rw [hentry i hi]
    obtain hcr | rfl := Nat.lt_succ_iff_lt_or_eq.1 hcr
    · rw [h.left r hr c hcr hcr, h.left i hi c hci hcr, hF.zero_mul, hF.add_zero, ite_self]
    · rw [if_pos hci, hp, hF.one_mul, hF.add_self]
  case diag =>
    intro i hi
    rw [hentry i (by omega), if_neg (by omega)]
    obtain hir | rfl := Nat.lt_succ_iff_lt_or_eq.1 hi
    · exact h.diag i hir
    · exact hp

/-- Forward elimination ends regular, all columns taken, or singular, at a column `p` with no entry from row `p` on. The common
zeros of the rows are those there were before. -/
theorem forward_cases (h : Echelon F k r m) (hn : r + n = k) :
    (∃ m', forward F k (List.range' r n) m = .regular m' ∧ Echelon F k k m' ∧ ∀ v, m'.Vanishes F v ↔ m.Vanishes F v) ∨
    ∃ m' p, forward F k (List.range' r n) m = .singular m' ∧ p < k ∧ Echelon F k p m' ∧
      (∀ i < k, p ≤ i → m'.entry i p = 0) ∧ ∀ v, m'.Vanishes F v ↔ m.Vanishes F v := by
  induction n generalizing r m with
  | zero =>
    obtain rfl : r = k := hn
    exact .inl ⟨m, rfl, h, fun _ => .rfl⟩
  | succ n ih =>
    have hr : r < k := by omega
    rw [List.range'_succ, forward]
    obtain ⟨hnone, hcol⟩ | ⟨m', q, hsome, hrq, hq, hlen, hrow, hp⟩ := choosePivot_cases m h.length hr
    · rw [hnone]
      exact .inr ⟨m, r, rfl, hr, h, hcol, fun _ => .rfl⟩
    · rw [hsome]
      obtain ⟨hscaled, hone⟩ := (h.of_rows_swapped hrq hq hlen hrow).after_scalePivot hF hp hr
      have hzeros (v : List Word) :
          (eliminateBelow F r (scalePivot F r m')).Vanishes F v ↔ m.Vanishes F v :=
        (vanishes_eliminateBelow hF hr hscaled.length hscaled.width v).trans
          ((vanishes_scalePivot hF hp v).trans (Matrix.vanishes_of_rows_swapped hrow v))
      simpa only [hzeros] using ih (hscaled.after_eliminateBelow hF hone hr) (by omega)

/-! ### The common zeros of an eliminated matrix -/

/-- The unknowns of the columns taken can be solved for, whatever the others are. -/
theorem Echelon.exists_rows_vanish (h : Echelon F k r m) (hr : r ≤ k) {p : Nat} (hp : p ≤ r) (vs : List Word) :
    ∃ e : List Word, e.length = p ∧ ∀ i < p, rowForm F (m.getD i []) (e ++ vs) = 0 := by
  induction p generalizing vs with
  | zero => exact ⟨[], rfl, fun i hi => absurd hi (Nat.not_lt_zero i)⟩
  | succ p ih =>
    obtain ⟨e, he, hrows⟩ := ih (by omega) (rowForm F ((m.getD p []).drop (p + 1)) vs :: vs)
    refine ⟨e ++ [rowForm F ((m.getD p []).drop (p + 1)) vs], by simp [he], fun i hi => ?_⟩
    rw [List.append_assoc, List.singleton_append]
    obtain hip | rfl := Nat.lt_succ_iff_lt_or_eq.1 hi
    · exact hrows i hip
    · have hdiag : (m.getD i []).getD e.length 0 = F.one := he ▸ h.diag i (by omega)
      rw [rowForm_append hF fun c hc => h.left i (by omega) c (by omega) (by omega), hdiag, he, hF.one_mul, hF.add_self]

/-- When all columns are taken the rows have a common zero whose last component is one. -/
theorem Echelon.exists_vanishes (h : Echelon F k k m) : ∃ e : List Word, e.length = k ∧ m.Vanishes F (e ++ [F.one]) := by
  obtain ⟨e, he, hrows⟩ := h.exists_rows_vanish hF le_rfl le_rfl [F.one]
  refine ⟨e, he, fun i => ?_⟩
  obtain hi | hi := Nat.lt_or_ge i k
  · exact hrows i hi
  · rw [List.getD_eq_default _ _ (by rwa [h.length]), rowForm_of_nil hF]

theorem rowForm_replicate_zero (row : List Word) (n : Nat) : rowForm F row (List.replicate n 0) = 0 := by
  induction n generalizing row with
  | zero => rfl
  | succ n ih => rw [List.replicate_succ, rowForm_cons, hF.mul_zero, ih, hF.add_zero]

/-- Where no pivot is found the rows have a common zero that is not zero, and whose last component is zero. -/
theorem Echelon.exists_vanishes_of_column_zero (h : Echelon F k r m) (hr : r < k) (hcol : ∀ i < k, r ≤ i → m.entry i r = 0) :
    ∃ e : List Word, e.length = k ∧ F.one ∈ e ∧ m.Vanishes F (e ++ [0]) := by
  obtain ⟨e, he, hrows⟩ := h.exists_rows_vanish hF hr.le le_rfl (F.one :: List.replicate (k - r) 0)
  have hsplit : e ++ F.one :: List.replicate (k - (r + 1)) 0 ++ [0] = e ++ F.one :: List.replicate (k - r) 0 := by
    rw [List.append_assoc, List.cons_append, ← List.replicate_succ', show k - (r + 1) + 1 = k - r by omega]
  refine ⟨e ++ F.one :: List.replicate (k - (r + 1)) 0, by simp [he]; omega, by simp, fun i => ?_⟩
  rw [hsplit]
  obtain hi | hi := Nat.lt_or_ge i k
  · obtain hir | hri := Nat.lt_or_ge i r
    · exact hrows i hir
    · have hentry : (m.getD i []).getD e.length 0 = 0 := he ▸ hcol i hi hri
      rw [rowForm_append hF fun c hc => h.left i hi c (by omega) (by omega), hentry, hF.zero_mul, hF.zero_add,
        rowForm_replicate_zero hF]
  · rw [List.getD_eq_default _ _ (by rwa [h.length]), rowForm_of_nil hF]

end
end Sys2Proof.Machine
end

section
/-! SUPPORT. Back-substitution into row 0 (43_wcomb.md R130), and what the Word-Combine Engine returns for distinct x-coordinates
(R125, R132). -/

namespace Sys2Proof.Machine

/-! ### Row 0, column by column -/

/-- The shape before row `r` is added into row 0: row 0 is cleared between its first column and column `r`, the rows from `r` on
are as forward elimination left them, and all rows vanish at `v`. -/
structure BackReduced (F : FieldOps) (k r : Nat) (v : List Word) (m : Matrix) : Prop where
  length : m.length = k
  width : ∀ i < k, (m.getD i []).length = k + 1
  vanishes : m.Vanishes F v
  left : ∀ i < k, r ≤ i → ∀ c < i, m.entry i c = 0
  diag : ∀ i < k, r ≤ i → m.entry i i = F.one
  first : m.entry 0 0 = F.one
  cleared : ∀ c, 1 ≤ c → c < r → m.entry 0 c = 0

theorem Echelon.backReduced {F : FieldOps} {k : Nat} {v : List Word} {m : Matrix} (h : Echelon F k k m) (hk : 0 < k)
    (hv : m.Vanishes F v) : BackReduced F k 1 v m where
  length := h.length
  width := h.width
  vanishes := hv
  left i hi _ c hc := h.left i hi c hc (hc.trans hi)
  diag i hi _ := h.diag i hi
  first := h.diag 0 hk
  cleared _ h1 hc := absurd h1 (Nat.not_le_of_lt hc)

section
variable {F : FieldOps} (hF : F.Lawful) {k r n : Nat} {v : List Word} {m : Matrix}
include hF

/-- One step clears one more column of row 0. -/
theorem BackReduced.after_backStep (h : BackReduced F k r v m) (h1 : 1 ≤ r) (hr : r < k) :
    BackReduced F k (r + 1) v (backStep F m r) := by
  have hrow := row_backStep F m (Nat.ne_of_gt h1) (by rwa [h.length])
  have hwidth : (m.getD 0 []).length = (scaleRow F (m.entry 0 r) (m.getD r [])).length := by
    rw [length_scaleRow, h.width 0 (by omega), h.width r hr]
  have hbelow : ∀ i, r + 1 ≤ i → (backStep F m r).getD i [] = m.getD i [] := fun i hi => by
    rw [hrow, if_neg (by omega), if_neg (by omega)]
  have hfirst (c : Nat) :
      (backStep F m r).entry 0 c = F.add (m.entry 0 c) (F.mul (m.entry r c) (m.entry 0 r)) := by
    rw [Matrix.entry, hrow, if_pos rfl, getD_zipWith_add hF hwidth, getD_scaleRow hF]
    rfl
  refine ⟨?length, ?width, ?vanishes, ?left, ?diag, ?first, ?cleared⟩
  case length => rw [length_backStep, h.length]
  case width =>
    intro i hi
    rw [hrow]
    split
    · rw [List.length_zipWith, ← hwidth, h.width 0 (by omega), Nat.min_self]
    · split
      · rw [length_scaleRow, h.width r hr]
      · exact h.width i hi
  case vanishes =>
    intro i
    have hscaled : rowForm F (scaleRow F (m.entry 0 r) (m.getD r [])) v = 0 := by
      rw [rowForm_scaleRow hF, h.vanishes, hF.zero_mul]
    rw [hrow]
    split
    · rw [rowForm_zipWith_add hF hwidth, hscaled, h.vanishes, hF.add_zero]
    · split
      · exact hscaled
      · exact h.vanishes i
  case left =>
    intro i hi hri c hc
    rw [Matrix.entry, hbelow i hri]
    exact h.left i hi (by omega) c hc
  case diag =>
    intro i hi hri
    rw [Matrix.entry, hbelow i hri]
    exact h.diag i hi (by omega)
  case first => rw [hfirst, h.left r hr le_rfl 0 h1, hF.zero_mul, hF.add_zero, h.first]
  case cleared =>
    intro c hc hcr
    rw [hfirst]
    obtain hcr | rfl := Nat.lt_succ_iff_lt_or_eq.1 hcr
    · rw [h.left r hr le_rfl c hcr, hF.zero_mul, hF.add_zero, h.cleared c hc hcr]
    · rw [h.diag c hr le_rfl, hF.one_mul, hF.add_self]

theorem BackReduced.foldl (h : BackReduced F k r v m) (h1 : 1 ≤ r) (hn : r + n = k) :
    BackReduced F k k v ((List.range' r n).foldl (backStep F) m) := by
  induction n generalizing r m with
  | zero => exact hn ▸ h
  | succ n ih =>
    rw [List.range'_succ, List.foldl_cons]
    exact ih (h.after_backStep hF h1 (by omega)) (by omega) (by omega)

/-- When only its first and last columns are left, row 0 solves for the first unknown. -/
theorem BackReduced.entry_last {c : List Word} (h : BackReduced F k k (c ++ [F.one]) m) (hk : 0 < k) (hc : c.length = k) :
    m.entry 0 k = c.headD 0 := by
  obtain ⟨a, e, rfl⟩ := List.exists_cons_of_length_pos (by omega : 0 < c.length)
  have htail (j : Nat) : (m.getD 0 []).tail.getD j 0 = m.entry 0 (j + 1) := getD_tail ..
  have he : e.length + 1 = k := hc
  have hcleared : ∀ j < e.length, (m.getD 0 []).tail.getD j 0 = 0 := fun j hj => by
    rw [htail]
    exact h.cleared (j + 1) (by omega) (by omega)
  have hrow := h.vanishes 0
  rw [List.cons_append, rowForm_cons, show (m.getD 0 []).getD 0 0 = F.one from h.first, hF.one_mul,
    rowForm_append hF hcleared, htail, he, rowForm_nil, hF.mul_one, hF.add_zero, hF.add_eq_zero_iff] at hrow
  exact hrow.symm

/-! ### The equations built (R126), and the engine -/

omit hF in
theorem row_buildMatrix {xs ys : List Word} (hlen : ys.length = xs.length) {i : Nat} (hi : i < xs.length) :
    (buildMatrix F xs ys).getD i [] = powersFrom F xs[i] xs.length F.one ++ [ys[i]] := by
  simp [buildMatrix, List.getD_eq_getElem?_getD, hi, hlen]

omit hF in
theorem echelon_buildMatrix {xs ys : List Word} (hlen : ys.length = xs.length) :
    Echelon F xs.length 0 (buildMatrix F xs ys) where
  length := by simp [buildMatrix, hlen]
  width i hi := by rw [row_buildMatrix hlen hi, List.length_append, length_powersFrom, List.length_singleton]
  left _ _ c _ hc := absurd hc (Nat.not_lt_zero c)
  diag i hi := absurd hi (Nat.not_lt_zero i)

/-- The equations of R125: a common zero of the built rows gives a polynomial whose value at each point is the y-value times the
last component. -/
theorem nested_of_vanishes_buildMatrix {xs ys c : List Word} {z : Word} (hlen : ys.length = xs.length)
    (hc : c.length = xs.length) (hv : (buildMatrix F xs ys).Vanishes F (c ++ [z])) {i : Nat} (hi : i < xs.length) :
    nested F c xs[i] = F.mul ys[i] z := by
  have hrow := hv i
  rwa [row_buildMatrix hlen hi, rowForm_powersFrom hF hc, hF.one_mul, hF.add_eq_zero_iff] at hrow

/-- The word-combine of the pairs is solved by the word `w`. -/
def Combines (F : FieldOps) (xs ys : List Word) (w : Word) : Prop := ∃ m, wordCombine F xs ys = .solved w m

/-- For distinct x-coordinates the engine solves: its word is the constant term of a polynomial, with as many coefficients as
there are pairs, through all pairs (R125, R132). -/
theorem combines_of_nodup {xs ys : List Word} (hlen : ys.length = xs.length) (hxs : xs.Nodup) (hk : 0 < xs.length) :
    ∃ c : List Word, c.length = xs.length ∧ xs.map (nested F c) = ys ∧ Combines F xs ys (c.headD 0) := by
  have hforward := forward_cases hF (echelon_buildMatrix (F := F) hlen) (Nat.zero_add xs.length)
  rw [← List.range_eq_range'] at hforward
  obtain ⟨m, hregular, hm, hzeros⟩ | ⟨m, p, -, hp, hm, hcol, hzeros⟩ := hforward
  · obtain ⟨c, hc, hv⟩ := hm.exists_vanishes hF
    have hreduced := (hm.backReduced hk hv).foldl hF le_rfl (by omega : 1 + (xs.length - 1) = xs.length)
    refine ⟨c, hc, ?_, backSubstitute F xs.length m, ?_⟩
    · refine List.ext_getElem (by rw [List.length_map, hlen]) fun i hi _ => ?_
      rw [List.getElem_map, nested_of_vanishes_buildMatrix hF hlen hc ((hzeros _).1 hv) (by simpa using hi), hF.mul_one]
    · rw [wordCombine, hregular]
      exact congrArg (Combined.solved · _) (hreduced.entry_last hF hk hc)
  · obtain ⟨c, hc, hone, hv⟩ := hm.exists_vanishes_of_column_zero hF hp hcol
    have hroots : ∀ x ∈ xs, nested F c x = 0 := by
      intro x hx
      obtain ⟨i, hi, rfl⟩ := List.getElem_of_mem hx
      rw [nested_of_vanishes_buildMatrix hF hlen hc ((hzeros _).1 hv) hi, hF.mul_zero]
    exact absurd (eq_zero_of_nested_eq_zero hF hxs hc.le hroots _ hone) hF.one_ne_zero

end
end Sys2Proof.Machine
end

section
/-! SUPPORT. WCOMB and COMBINE from what the Word-Combine Engine returns (43_wcomb.md R131; 44_split_combine.md R152 to R154), and
the bytes of successive words (20_memory.md R44, R45). -/

namespace Sys2Proof.Machine

/-- WCOMB whose system is solved completes with the solved word. -/
theorem execWcomb_of_solved {s : State} {k : Nat} {w : Word} (hok : wcombError s.params k = none)
    (hsolved : Combines s.field (s.pairXs k) (s.pairYs k) w) :
    ∃ t, execWcomb k s = .next t ∧ t.answers = s.answers ∧ Completed s t (w2b w s.bo) := by
  obtain ⟨m, hword⟩ := hsolved
  rw [execWcomb, hok, State.wcombRun, hword]
  exact ⟨_, rfl, rfl, (quiet_of_scratch s).completed _⟩

/-- Columns that are all solved: their words are concatenated (R153, R154). -/
theorem combineColumns_of_solved {cols : List (List Word)} {ws : List Word} {s : State}
    (hsolved : List.Forall₂ (Combines s.field s.xv) cols ws) :
    ∃ u, State.combineColumns cols s = u.complete (wordsToBytes s.bo (s.sw ++ ws)) ∧ Quiet s u ∧ u.answers = s.answers := by
  induction cols generalizing ws s with
  | nil =>
    cases hsolved
    exact ⟨s, by rw [combineColumns_nil, List.append_nil], .refl s, rfl⟩
  | cons ys cols ih =>
    obtain _ | ⟨⟨m, hword⟩, hrest⟩ := hsolved
    next w ws =>
      obtain ⟨u, hrun, hquiet, hans⟩ := ih (s := { s with sw := s.sw ++ [w], mat := m }) hrest
      refine ⟨u, ?_, (quiet_of_scratch s).trans hquiet, hans⟩
      rw [combineColumns_cons, hword, List.append_cons]
      exact hrun

/-- COMBINE whose columns are all solved completes with their words. -/
theorem execCombine_of_solved {s : State} {k : Nat} {ws : List Word} (hok : s.combineError k = none)
    (hsolved : List.Forall₂ (Combines s.field (s.shareXs k s.shareLen))
      ((List.range s.shareWords).map fun j => s.shareYs k s.shareLen j) ws) :
    ∃ t, execCombine k s = .next t ∧ t.answers = s.answers ∧ Completed s t (wordsToBytes s.bo ws) := by
  obtain ⟨u, hrun, hquiet, hans⟩ := combineColumns_of_solved (s := s.parseShares k) hsolved
  refine ⟨u.complete (wordsToBytes s.bo ws), ?_, hans, ((quiet_of_scratch s).trans hquiet).completed _⟩
  rw [execCombine, hok]
  exact congrArg Host.Outcome.next hrun

/-- Successive words of IN, serialised, are its bytes. -/
theorem wordsToBytes_readWords (s : State) (base m : Nat) :
    wordsToBytes s.bo (s.readWords base 2 m) = (List.range (2 * m)).map fun i => s.readIn (base + i) := by
  induction m with
  | zero => rfl
  | succ m ih =>
    have hlast : s.readWords base 2 (m + 1) = s.readWords base 2 m ++ [s.readWord (base + 2 * m)] := by
      simp [State.readWords, List.range_succ]
    rw [hlast, wordsToBytes_append, ih, wordsToBytes_cons, wordsToBytes_nil, State.readWord, w2b_b2w, Nat.mul_succ,
      List.range_succ, List.range_succ]
    simp [Nat.add_assoc]

/-- A single pair combines to its y-value (R133). -/
theorem combines_singleton {F : FieldOps} (hF : F.Lawful) (x y : Word) : Combines F [x] [y] y := by
  obtain ⟨c, hc, hvalues, hsolved⟩ := combines_of_nodup hF (xs := [x]) (ys := [y]) rfl (List.nodup_singleton x) Nat.one_pos
  obtain ⟨a, rfl⟩ := List.length_eq_one_iff.1 hc
  obtain rfl : a = y := by simpa [nested_singleton hF] using hvalues
  exact hsolved

/-- Distinct points one of which is zero combine to the y-value there (R134). -/
theorem combines_of_zero {F : FieldOps} (hF : F.Lawful) {xs ys : List Word} (hlen : ys.length = xs.length) (hxs : xs.Nodup)
    {i : Nat} (hi : i < xs.length) (hzero : xs[i] = 0) : Combines F xs ys ys[i] := by
  obtain ⟨c, -, rfl, hsolved⟩ := combines_of_nodup hF hlen hxs (Nat.zero_lt_of_lt hi)
  rw [List.getElem_map, hzero, nested_zero hF]
  exact hsolved

/-- The points of pairs that are pairwise distinct. -/
theorem nodup_pairXs {s : State} {k : Nat} (h : ∀ i < k, ∀ j < k, s.readWord (4 * i) = s.readWord (4 * j) → i = j) :
    (s.pairXs k).Nodup := by
  refine List.Nodup.map_on (fun i hi j hj hij => ?_) List.nodup_range
  simp only [Nat.zero_add] at hij
  exact h i (List.mem_range.1 hi) j (List.mem_range.1 hj) hij

end Sys2Proof.Machine
end

section
/-! CERTIFICATE. Corner cases of combining (43_wcomb.md R133, R134). -/

namespace Sys2Proof.Machine

/-- COMBINE of one share: every column is a single pair, so the words are the share's y-values. -/
theorem execCombine_one {s : State} (hF : s.field.Lawful) (hok : s.combineError 1 = none) :
    ∃ t, execCombine 1 s = .next t ∧
      Completed s t ((List.range (2 * s.shareWords)).map fun i => s.readIn (2 + i)) := by
  have hcolumns : List.Forall₂ (Combines s.field (s.shareXs 1 s.shareLen))
      ((List.range s.shareWords).map fun j => s.shareYs 1 s.shareLen j) (s.readWords 2 2 s.shareWords) := by
    rw [State.readWords, List.forall₂_map_left_iff, List.forall₂_map_right_iff, List.forall₂_same]
    exact fun j _ => combines_singleton hF _ _
  obtain ⟨t, hrun, -, hcompleted⟩ := execCombine_of_solved hok hcolumns
  exact ⟨t, hrun, wordsToBytes_readWords s 2 _ ▸ hcompleted⟩

/-- Settles O49: one pair is a system of one equation, for WCOMB and for each column of COMBINE. -/
theorem singleShareReturnsItsValues : Obligations.SingleShareReturnsItsValues := by
  unfold Obligations.SingleShareReturnsItsValues
  refine ⟨?wcomb, ?combine⟩
  case wcomb =>
    intro s hF hcap
    obtain ⟨t, hrun, -, hcompleted⟩ :=
      execWcomb_of_solved (wcombError_eq_none.2 ⟨Nat.one_ne_zero, hcap⟩) (combines_singleton hF (s.readWord 0) (s.readWord 2))
    exact ⟨t, hrun, hcompleted⟩
  case combine =>
    intro s hF hcap hlen heven hmcap
    have hok : s.combineError 1 = none :=
      combineError_eq_none.2 ⟨Nat.one_ne_zero, hcap, fun i h1 hi => by omega, heven, hlen, hmcap⟩
    have hbytes : 2 * s.shareWords = (s.readSlen 0).toNat - 2 := by
      rw [State.shareWords, State.shareLen]
      omega
    obtain ⟨t, hrun, hcompleted⟩ := execCombine_one hF hok
    rw [hbytes] at hcompleted
    exact ⟨t, hrun, by simpa only [Nat.add_comm 2] using hcompleted⟩

/-- Settles O50: the word solved for is the constant term of a polynomial through the pairs, which is its value at zero. -/
theorem wcombAtZeroReturnsThatValue : Obligations.WcombAtZeroReturnsThatValue := by
  unfold Obligations.WcombAtZeroReturnsThatValue
  intro k i s hF hcap hi hzero hdistinct
  have hlen : (s.pairYs k).length = (s.pairXs k).length := by rw [State.pairYs, State.pairXs, length_readWords, length_readWords]
  have hlt : i < (s.pairXs k).length := by rwa [State.pairXs, length_readWords]
  have hx : (s.pairXs k)[i] = 0 := by simpa [State.pairXs] using hzero
  have hy : (s.pairYs k)[i] = s.readWord (4 * i + 2) := by simp [State.pairYs, Nat.add_comm]
  have hsolved := combines_of_zero hF hlen (nodup_pairXs hdistinct) hlt hx
  obtain ⟨t, hrun, -, hcompleted⟩ := execWcomb_of_solved (wcombError_eq_none.2 ⟨by omega, hcap⟩) hsolved
  exact ⟨t, hrun, hy ▸ hcompleted⟩

end Sys2Proof.Machine
end

section
/-! CERTIFICATE. The validations of SPLIT and COMBINE (44_split_combine.md R141, R151). -/

namespace Sys2Proof.Machine

/-- A SPLIT at its beginning whose validation fails raises what the validation found, and draws nothing (R141, R175). -/
theorem execSplit_of_splitError {s : State} {t n len : Nat} {e : Err} (hpos : s.pos = .start)
    (herr : splitError s.params t n len = some e) :
    ∃ u, execSplit t n len s = .next u ∧ Raised s u e ∧ u.answers = s.answers := by
  rw [execSplit, if_neg (by simp [hpos]), if_neg (by simp [hpos]), herr]
  exact ⟨s.raise e, rfl, (Quiet.refl s).raised e, rfl⟩

/-- A COMBINE whose validation fails raises what the validation found (R151, R175). -/
theorem execCombine_of_combineError {s : State} {k : Nat} {e : Err} (herr : s.combineError k = some e) :
    ∃ t, execCombine k s = .next t ∧ Raised s t e ∧ t.answers = s.answers := by
  rw [execCombine, herr]
  exact ⟨s.raise e, rfl, (Quiet.refl s).raised e, rfl⟩

/-- COMBINE's test of the lengths finds an entry that differs from the first (R151). -/
theorem any_readSlen_ne_iff {s : State} {k : Nat} :
    ((List.range' 1 (k - 1)).any fun i => s.readSlen i ≠ s.readSlen 0) = true ↔
      ∃ i, 1 ≤ i ∧ i < k ∧ s.readSlen i ≠ s.readSlen 0 := by
  simp only [List.any_eq_true, List.mem_range'_1, decide_eq_true_eq]
  refine exists_congr fun i => ?_
  rw [and_assoc]
  exact and_congr_right fun h1 => and_congr_left fun _ => by omega

/-- Settles O52: the tests are made in the order written, and the first that fails is raised. -/
theorem splitValidation : Obligations.SplitValidation := by
  unfold Obligations.SplitValidation
  intro t n len s hpos ends
  have raises {e : Err} (herr : splitError s.params t n len = some e) : ends e := execSplit_of_splitError hpos herr
  refine ⟨fun ht => raises ?noThreshold, fun ht hn => raises ?noShare, fun ht hn htn => raises ?tooFewShares,
    fun ht hn htn hlen => raises ?empty, fun ht hn htn hlen hodd => raises ?oddLength,
    fun ht hn htn hlen heven hcap => raises ?tooLarge⟩
  case noThreshold => simp [splitError, firstError, ht]
  case noShare => simp [splitError, firstError, ht, hn]
  case tooFewShares => simp [splitError, firstError, ht, hn, htn]
  case empty => simp [splitError, firstError, ht, hn, htn.not_gt, hlen]
  case oddLength => simp [splitError, firstError, ht, hn, htn.not_gt, hlen, hodd]
  case tooLarge => simp [splitError, firstError, ht, hn, htn.not_gt, hlen, heven, hcap]

/-- Settles O55: the tests are made in the order written, and the first that fails is raised. -/
theorem combineValidation : Obligations.CombineValidation := by
  unfold Obligations.CombineValidation
  intro k s S unequal ends
  have raises {e : Err} (herr : s.combineError k = some e) : ends e := execCombine_of_combineError herr
  have hany : ((List.range' 1 (k - 1)).any fun i => s.readSlen i ≠ s.readSlen 0) = true ↔ unequal := any_readSlen_ne_iff
  refine ⟨fun hk => raises ?noShare, fun hk hcap => raises ?tooMany, fun hk hcap hne => raises ?mismatch,
    fun hk hcap heq hbad => raises ?badLength, fun hk hcap heq heven hlen hwords => raises ?tooLong⟩
  case noShare => simp [State.combineError, firstError, hk]
  case tooMany => simp [State.combineError, firstError, hk, State.nmax, hcap]
  case mismatch =>
    rw [State.combineError, hany.2 hne]
    simp [firstError, hk, State.nmax, hcap.not_gt]
  case badLength =>
    rw [State.combineError, Bool.eq_false_iff.2 (mt hany.1 heq)]
    simp [firstError, hk, State.nmax, hcap.not_gt, State.shareLen, hbad, S]
  case tooLong =>
    rw [State.combineError, Bool.eq_false_iff.2 (mt hany.1 heq)]
    simp [firstError, hk, State.nmax, hcap.not_gt, State.shareLen, heven, hlen.not_gt, State.mmax, State.shareWords, hwords, S]

end Sys2Proof.Machine
end

section
/-! SUPPORT. When the Word-Combine Engine solves and what it then returns (43_wcomb.md R132, R136): a system with two equal
x-coordinates is singular, and any polynomial with at most as many coefficients as there are pairs gives its constant term. -/

namespace Sys2Proof.Machine

variable {F : FieldOps} (hF : F.Lawful)
include hF

/-! ### Equal x-coordinates (R132) -/

/-- The nested form of a polynomial given by a vector of coefficients. -/
theorem nested_ofFn {n : Nat} (v : Fin n → F.Carrier) (x : F.Carrier) :
    letI := hF.commRing
    nested F (List.ofFn v) x = ∑ i : Fin n, x ^ (i : ℕ) * v i := by
  let := hF.commRing
  refine (nested_eq_sum hF (List.ofFn v) x).trans ?_
  refine Fintype.sum_equiv (M := F.Carrier) (finCongr List.length_ofFn) _ _ fun i => ?_
  rw [List.get_ofFn]
  rfl

/-- Points two of which are equal have a polynomial that is not zero, with as many coefficients, and is zero at all of them:
their Vandermonde determinant is zero. -/
theorem exists_nested_eq_zero_of_not_nodup {xs : List Word} (hxs : ¬ xs.Nodup) :
    ∃ c : List Word, c.length = xs.length ∧ (∃ a ∈ c, a ≠ 0) ∧ ∀ x ∈ xs, nested F c x = 0 := by
  let := hF.commRing
  have := hF.isDomain
  have hdet : (Matrix.vandermonde (R := F.Carrier) xs.get).det = 0 := by
    rw [List.nodup_iff_injective_get, Function.not_injective_iff] at hxs
    exact Matrix.det_vandermonde_eq_zero_iff.2 hxs
  obtain ⟨v, hv, hzero⟩ := Matrix.exists_mulVec_eq_zero_iff.2 hdet
  obtain ⟨j, hj⟩ := Function.ne_iff.1 hv
  refine ⟨List.ofFn v, List.length_ofFn, ⟨v j, List.mem_ofFn.2 ⟨j, rfl⟩, hj⟩, fun x hx => ?_⟩
  obtain ⟨i, rfl⟩ := List.mem_iff_get.1 hx
  exact (nested_ofFn hF v _).trans (congrFun hzero i)

/-- When all columns are taken, a common zero of the rows whose last components are zero is zero (R127). -/
theorem Echelon.eq_zero_of_vanishes {k : Nat} {m : Matrix} (h : Echelon F k k m) {e : List Word} (he : e.length ≤ k) {n : Nat}
    (hv : m.Vanishes F (e ++ List.replicate n 0)) : ∀ a ∈ e, a = 0 := by
  induction e using List.reverseRecOn generalizing n with
  | nil => exact fun _ ha => absurd ha List.not_mem_nil
  | append_singleton e a ih =>
    rw [List.length_append, List.length_singleton] at he
    have hrow := hv e.length
    rw [List.append_assoc, List.singleton_append,
      rowForm_append hF fun c hc => h.left _ (by omega) c hc (by omega), rowForm_replicate_zero hF, hF.add_zero,
      show (m.getD e.length []).getD e.length 0 = F.one from h.diag _ (by omega), hF.one_mul] at hrow
    subst hrow
    rw [List.append_assoc, List.singleton_append, ← List.replicate_succ] at hv
    simpa [or_imp, forall_and] using ih (by omega) hv

/-- The engine does not solve a system with two equal x-coordinates, whatever the y-values (R132). -/
theorem exists_singular_of_not_nodup {xs ys : List Word} (hlen : ys.length = xs.length) (hxs : ¬ xs.Nodup) :
    ∃ m, wordCombine F xs ys = .singular m := by
  have hforward := forward_cases hF (echelon_buildMatrix (F := F) hlen) (Nat.zero_add xs.length)
  rw [← List.range_eq_range'] at hforward
  obtain ⟨m, -, hm, hzeros⟩ | ⟨m, -, hsingular, -⟩ := hforward
  · obtain ⟨c, hc, ⟨a, ha, hne⟩, hroots⟩ := exists_nested_eq_zero_of_not_nodup hF hxs
    have hv : (buildMatrix F xs ys).Vanishes F (c ++ List.replicate 1 0) := by
      intro i
      obtain hi | hi := Nat.lt_or_ge i xs.length
      · rw [row_buildMatrix hlen hi, List.replicate_one, rowForm_powersFrom hF hc, hroots _ (List.getElem_mem hi), hF.mul_zero,
          hF.mul_zero, hF.add_zero]
      · rw [List.getD_eq_default _ _ (by rwa [(echelon_buildMatrix (F := F) hlen).length]), rowForm_of_nil hF]
    exact absurd (hm.eq_zero_of_vanishes hF hc.le ((hzeros _).2 hv) a ha) hne
  · exact ⟨m, by rw [wordCombine, hsingular]⟩

/-! ### The constant term is determined (R136) -/

theorem nested_eq_zero_of_coefs_zero {c : List Word} (hc : ∀ a ∈ c, a = 0) (x : Word) : nested F c x = 0 := by
  induction c with
  | nil => rfl
  | cons a c ih =>
    obtain ⟨rfl, hrest⟩ := List.forall_mem_cons.1 hc
    rw [nested_cons, ih hrest, hF.mul_zero, hF.add_zero]

/-- Leading coefficients of zero do not count. -/
theorem nested_append_replicate_zero (c : List Word) (n : Nat) (x : Word) :
    nested F (c ++ List.replicate n 0) x = nested F c x := by
  have hzeros := nested_eq_zero_of_coefs_zero hF (c := List.replicate n 0) (fun _ ha => List.eq_of_mem_replicate ha) x
  rw [nested] at hzeros
  rw [nested, List.foldr_append, hzeros, nested]

theorem nested_zipWith_add {c d : List Word} (hlen : c.length = d.length) (x : Word) :
    nested F (List.zipWith F.add c d) x = F.add (nested F c x) (nested F d x) := by
  let := hF.commRing
  induction c generalizing d with
  | nil =>
    obtain rfl := List.length_eq_zero_iff.1 hlen.symm
    exact (hF.add_zero 0).symm
  | cons a c ih =>
    obtain ⟨b, d, rfl⟩ := List.exists_cons_of_length_eq_add_one hlen.symm
    rw [List.zipWith_cons_cons, nested_cons, ih (by simpa using hlen), hF.mul_add]
    exact add_add_add_comm (G := F.Carrier) ..

/-- Polynomials with one number of coefficients, at most that of the distinct points, are equal when they are equal at the
points: their sum has too many zeros. -/
theorem nested_eq_of_length_eq {c d xs : List Word} (hxs : xs.Nodup) (hlen : c.length = d.length) (hc : c.length ≤ xs.length)
    (hvalues : ∀ x ∈ xs, nested F c x = nested F d x) (x : Word) : nested F c x = nested F d x := by
  have hcoefs : ∀ a ∈ List.zipWith F.add c d, a = 0 :=
    eq_zero_of_nested_eq_zero hF hxs (by simp [← hlen, hc]) fun y hy => by
      rw [nested_zipWith_add hF hlen, hF.add_eq_zero_iff, hvalues y hy]
  rw [← hF.add_eq_zero_iff, ← nested_zipWith_add hF hlen, nested_eq_zero_of_coefs_zero hF hcoefs]

/-- Polynomials with at most as many coefficients as there are distinct points are equal when they are equal at the points. -/
theorem nested_eq_of_length_le {c d xs : List Word} (hxs : xs.Nodup) (hc : c.length ≤ xs.length) (hd : d.length ≤ xs.length)
    (hvalues : ∀ x ∈ xs, nested F c x = nested F d x) (x : Word) : nested F c x = nested F d x := by
  have hpadded := nested_eq_of_length_eq hF (c := c ++ List.replicate (xs.length - c.length) 0)
    (d := d ++ List.replicate (xs.length - d.length) 0) hxs (by simp; omega) (by simp; omega)
  simp only [nested_append_replicate_zero hF] at hpadded
  exact hpadded hvalues x

/-- The word solved for is the constant term of any polynomial through the pairs with at most as many coefficients (R136). -/
theorem combines_of_values {xs c : List Word} (hxs : xs.Nodup) (hk : 0 < xs.length) (hc : c.length ≤ xs.length) :
    Combines F xs (xs.map (nested F c)) (c.headD 0) := by
  obtain ⟨d, hd, hvalues, hsolved⟩ := combines_of_nodup hF (List.length_map _) hxs hk
  have hhead := nested_eq_of_length_le hF hxs hd.le hc (List.map_inj_left.1 hvalues) 0
  rw [nested_zero hF, nested_zero hF] at hhead
  exact hhead ▸ hsolved

end Sys2Proof.Machine
end

section
/-! SUPPORT. COMBINE when a column is singular, and on share slots in another order (44_split_combine.md R153, R159, R160). -/

namespace Sys2Proof.Machine

/-! ### The x- and y-values of the shares (R48) -/

theorem shareXs_eq_map (s : State) (k S : Nat) : s.shareXs k S = (List.range k).map fun i => s.readWord (i * S) := by
  simp [State.shareXs, State.readWords, Nat.mul_comm]

theorem shareYs_eq_map (s : State) (k S j : Nat) :
    s.shareYs k S j = (List.range k).map fun i => s.readWord (i * S + 2 + 2 * j) := by
  simp [State.shareYs, State.readWords, Nat.mul_comm, Nat.add_comm, Nat.add_assoc]

@[simp] theorem length_shareXs (s : State) (k S : Nat) : (s.shareXs k S).length = k := length_readWords ..

@[simp] theorem length_shareYs (s : State) (k S j : Nat) : (s.shareYs k S j).length = k := length_readWords ..

theorem nodup_shareXs_iff {s : State} {k S : Nat} :
    (s.shareXs k S).Nodup ↔ ∀ i < k, ∀ j < k, s.readWord (i * S) = s.readWord (j * S) → i = j := by
  simp only [shareXs_eq_map, List.nodup_map_iff_inj_on List.nodup_range, List.mem_range]

/-! ### The columns, one by one -/

/-- COMBINE whose every column is solved completes with the columns' words (R153, R154). -/
theorem execCombine_of_column_words {s : State} {k : Nat} {word : Nat → Word} (hok : s.combineError k = none)
    (hword : ∀ j < s.shareWords, Combines s.field (s.shareXs k s.shareLen) (s.shareYs k s.shareLen j) (word j)) :
    ∃ t, execCombine k s = .next t ∧ Completed s t (wordsToBytes s.bo ((List.range s.shareWords).map word)) := by
  obtain ⟨t, hrun, -, hcompleted⟩ := execCombine_of_solved (ws := (List.range s.shareWords).map word) hok (by
    rw [List.forall₂_map_left_iff, List.forall₂_map_right_iff, List.forall₂_same]
    exact fun j hj => hword j (List.mem_range.1 hj))
  exact ⟨t, hrun, hcompleted⟩

/-- COMBINE whose word-column 0 is singular ends in SINGULAR there (R153). -/
theorem execCombine_of_singular {s : State} {k : Nat} {m : Matrix} (hok : s.combineError k = none)
    (hsingular : wordCombine s.field (s.shareXs k s.shareLen) (s.shareYs k s.shareLen 0) = .singular m) :
    ∃ t, execCombine k s = .next t ∧ Raised s t .singular := by
  have hwords : ∃ n, s.shareWords = n + 1 := by
    obtain ⟨-, -, -, -, hlen, -⟩ := combineError_eq_none.1 hok
    exact ⟨s.shareWords - 1, by rw [State.shareWords]; omega⟩
  obtain ⟨n, hn⟩ := hwords
  have hyv : (s.parseShares k).yv = s.shareYs k s.shareLen 0 ::
      ((List.range n).map Nat.succ).map fun j => s.shareYs k s.shareLen j := by
    rw [State.parseShares_yv, hn, List.range_succ_eq_map, List.map_cons]
  refine ⟨State.raise { s.parseShares k with mat := m } .singular, ?_, (quiet_of_scratch s).raised .singular⟩
  have hfirst : wordCombine (s.parseShares k).field (s.parseShares k).xv (s.shareYs k s.shareLen 0) = .singular m := hsingular
  rw [execCombine, hok, State.combineRun, hyv, combineColumns_cons, hfirst]

/-- Two shares with one x-coordinate make word-column 0 singular, and COMBINE ends there (R132, R160). -/
theorem execCombine_of_not_nodup {s : State} {k : Nat} (hF : s.field.Lawful) (hok : s.combineError k = none)
    (hxs : ¬ (s.shareXs k s.shareLen).Nodup) : ∃ t, execCombine k s = .next t ∧ Raised s t .singular := by
  obtain ⟨m, hm⟩ := exists_singular_of_not_nodup hF (ys := s.shareYs k s.shareLen 0) (by simp) hxs
  exact execCombine_of_singular hok hm

/-! ### Share slots in another order -/

/-- The `k` share slots of `S` bytes in `u` are those of `s` in the order `perm` (R159). -/
structure SlotsPermuted (s u : State) (k S : Nat) (perm : Nat → Nat) : Prop where
  bo : u.bo = s.bo
  lt : ∀ i < k, perm i < k
  inj : ∀ i < k, ∀ j < k, perm i = perm j → i = j
  readIn : ∀ i < k, ∀ b < S, u.readIn (i * S + b) = s.readIn (perm i * S + b)

namespace SlotsPermuted

variable {s u : State} {k S : Nat} {perm : Nat → Nat} (h : SlotsPermuted s u k S perm)
include h

theorem readWord {i b : Nat} (hi : i < k) (hb : b + 1 < S) : u.readWord (i * S + b) = s.readWord (perm i * S + b) := by
  rw [State.readWord, State.readWord, Nat.add_assoc, Nat.add_assoc, h.readIn i hi b (by omega), h.readIn i hi (b + 1) hb, h.bo]

theorem perm_range : ((List.range k).map perm).Perm (List.range k) := by
  have hnodup : ((List.range k).map perm).Nodup :=
    List.nodup_range.map_on fun i hi j hj => h.inj i (List.mem_range.1 hi) j (List.mem_range.1 hj)
  have hsub : (List.range k).map perm ⊆ List.range k := by
    intro x hx
    obtain ⟨i, hi, rfl⟩ := List.mem_map.1 hx
    exact List.mem_range.2 (h.lt i (List.mem_range.1 hi))
  exact (hnodup.subperm hsub).perm_of_length_le (by simp)

theorem shareXs_perm (hS : 2 ≤ S) : (u.shareXs k S).Perm (s.shareXs k S) := by
  have hxs : u.shareXs k S = ((List.range k).map perm).map fun i => s.readWord (i * S) := by
    rw [shareXs_eq_map, List.map_map]
    exact List.map_congr_left fun i hi => h.readWord (b := 0) (List.mem_range.1 hi) (by omega)
  rw [hxs, shareXs_eq_map]
  exact h.perm_range.map _

/-- One polynomial goes through the pairs of a column in either order, so both orders combine to one word. -/
theorem combines_same {F : FieldOps} (hF : F.Lawful) (hk : 0 < k) (hxs : (s.shareXs k S).Nodup) {j : Nat}
    (hj : 2 * j + 4 ≤ S) :
    ∃ w, Combines F (s.shareXs k S) (s.shareYs k S j) w ∧ Combines F (u.shareXs k S) (u.shareYs k S j) w := by
  obtain ⟨c, hc, hvalues, hsolved⟩ := combines_of_nodup hF (ys := s.shareYs k S j) (by simp) hxs (by simpa using hk)
  refine ⟨c.headD 0, hsolved, ?_⟩
  rw [shareXs_eq_map, shareYs_eq_map, List.map_map, List.map_inj_left] at hvalues
  have hys : u.shareYs k S j = (u.shareXs k S).map (nested F c) := by
    rw [shareXs_eq_map, shareYs_eq_map, List.map_map]
    refine List.map_congr_left fun i hi => ?_
    have hi := List.mem_range.1 hi
    have hx : u.readWord (i * S) = s.readWord (perm i * S) := h.readWord (b := 0) hi (by omega)
    have hy : u.readWord (i * S + (2 + 2 * j)) = s.readWord (perm i * S + (2 + 2 * j)) := h.readWord hi (by omega)
    rw [Nat.add_assoc, hy, Function.comp_apply, hx, ← Nat.add_assoc]
    exact (hvalues _ (List.mem_range.2 (h.lt i hi))).symm
  rw [hys]
  exact combines_of_values hF ((h.shareXs_perm (by omega)).nodup_iff.2 hxs) (by simpa using hk) (by simp [hc])

end SlotsPermuted

/-- Two commands that end with the same error show the host the same. -/
theorem shown_of_raised {s t u v : State} {e : Err} (ht : Raised s t e) (hv : Raised u v e) :
    v.statusWord = t.statusWord ∧ v.outLen = t.outLen ∧ v.out = t.out :=
  ⟨hv.statusWord.trans ht.statusWord.symm, hv.outLen.trans ht.outLen.symm, hv.out.trans ht.out.symm⟩

/-- Two commands that complete with the same output show the host the same, when their STARTs left the same error fields. -/
theorem shown_of_completed {s t u v : State} {b : List Byte} (ht : Completed s t b) (hv : Completed u v b)
    (herr : u.err = s.err) (hinfo : u.errInfo = s.errInfo) :
    v.statusWord = t.statusWord ∧ v.outLen = t.outLen ∧ v.out = t.out := by
  refine ⟨?_, hv.outLen.trans ht.outLen.symm, hv.out.trans ht.out.symm⟩
  rw [State.statusWord, State.statusWord, hv.state, hv.err, hv.errInfo, ht.state, ht.err, ht.errInfo, herr, hinfo]

/-- Past its validation a COMBINE of permuted slots ends the same way: in SINGULAR, or with the same bytes. -/
theorem execCombine_slots_permuted {s u : State} {k : Nat} {perm : Nat → Nat} (hF : s.field.Lawful)
    (hfield : u.field = s.field) (hS : u.shareLen = s.shareLen) (hok : s.combineError k = none) (hok' : u.combineError k = none)
    (h : SlotsPermuted s u k s.shareLen perm) :
    ∃ t v, execCombine k s = .next t ∧ execCombine k u = .next v ∧
      ((Raised s t .singular ∧ Raised u v .singular) ∨ ∃ b, Completed s t b ∧ Completed u v b) := by
  obtain ⟨hk, -, -, -, hlen, -⟩ := combineError_eq_none.1 hok
  have hperm := h.shareXs_perm (by omega)
  have hwords := shareWords_congr hS
  by_cases hxs : (s.shareXs k s.shareLen).Nodup
  · have hcolumn : ∀ j < s.shareWords, ∃ w, Combines s.field (s.shareXs k s.shareLen) (s.shareYs k s.shareLen j) w ∧
        Combines u.field (u.shareXs k u.shareLen) (u.shareYs k u.shareLen j) w := by
      intro j hj
      rw [State.shareWords] at hj
      rw [hfield, hS]
      exact h.combines_same hF (Nat.pos_of_ne_zero hk) hxs (by omega)
    choose! word hword using hcolumn
    obtain ⟨t, ht, hcompleted⟩ := execCombine_of_column_words hok fun j hj => (hword j hj).1
    obtain ⟨v, hv, hcompleted'⟩ := execCombine_of_column_words hok' fun j hj => (hword j (hwords ▸ hj)).2
    rw [h.bo, hwords] at hcompleted'
    exact ⟨t, v, ht, hv, .inr ⟨_, hcompleted, hcompleted'⟩⟩
  · obtain ⟨t, ht, hraised⟩ := execCombine_of_not_nodup hF hok hxs
    obtain ⟨v, hv, hraised'⟩ := execCombine_of_not_nodup (hfield ▸ hF) hok' (by rwa [hS, hperm.nodup_iff])
    exact ⟨t, v, ht, hv, .inl ⟨hraised, hraised'⟩⟩

end Sys2Proof.Machine
end

section
/-! CERTIFICATE. Shares with one x-coordinate, and shares in another order (44_split_combine.md R159, R160). -/

namespace Sys2Proof.Machine

/-- Settles O57: the x-coordinates are not distinct, so the first word-combine is singular. -/
theorem combineDuplicateIsSingular : Obligations.CombineDuplicateIsSingular := by
  unfold Obligations.CombineDuplicateIsSingular
  intro k a b s hF hcap heq heven hlen hwords hab hb hx
  have hok : s.combineError k = none :=
    combineError_eq_none.2 ⟨by omega, hcap, fun i _ hi => heq i hi, heven, hlen, hwords⟩
  have hxs : ¬ (s.shareXs k s.shareLen).Nodup := fun h =>
    absurd (nodup_shareXs_iff.1 h a (by omega) b hb hx) (Nat.ne_of_lt hab)
  refine ⟨execCombine_of_not_nodup hF hok hxs, ?_⟩
  exact exists_singular_of_not_nodup hF (ys := s.shareYs k s.shareLen 0) (by simp) hxs

/-- Settles O58: the validation looks at the lengths alone, and the columns combine alike in either order. -/
theorem combineIgnoresShareOrder : Obligations.CombineIgnoresShareOrder := by
  unfold Obligations.CombineIgnoresShareOrder
  intro k s u perm hF hparams hbo _ _ herr hinfo hslen hlt hinj hreadIn
  have hvalidation : u.combineError k = s.combineError k := combineError_congr hparams hslen
  cases hok : s.combineError k with
  | some e =>
    obtain ⟨t, ht, hraised, -⟩ := execCombine_of_combineError hok
    obtain ⟨v, hv, hraised', -⟩ := execCombine_of_combineError (hvalidation.trans hok)
    exact ⟨t, v, ht, hv, shown_of_raised hraised hraised'⟩
  | none =>
    have hk : 0 < k := Nat.pos_of_ne_zero (combineError_eq_none.1 hok).1
    have hS : u.shareLen = s.shareLen := congrArg BitVec.toNat (hslen 0 hk)
    have hfield : u.field = s.field := congrArg (fun p : Params => fieldOf p.field) hparams
    obtain ⟨t, v, ht, hv, ⟨hraised, hraised'⟩ | ⟨b, hcompleted, hcompleted'⟩⟩ :=
      execCombine_slots_permuted hF hfield hS hok (hvalidation.trans hok) ⟨hbo, hlt, hinj, hreadIn⟩
    · exact ⟨t, v, ht, hv, shown_of_raised hraised hraised'⟩
    · exact ⟨t, v, ht, hv, shown_of_completed hcompleted hcompleted' herr hinfo⟩

end Sys2Proof.Machine
end

section
/-! SUPPORT. Words read back from the bytes output: a word written by W2B, and the words of a share record (20_memory.md R44,
R45, R48, R49). -/

namespace Sys2Proof.Machine

/-- A word written as two bytes is read back as that word. -/
theorem b2w_w2b (w : Word) (bo : Bool) : b2w ((w2b w bo).getD 0 0) ((w2b w bo).getD 1 0) bo = w := by
  have hword : (w.extractLsb' 8 8 ++ w.extractLsb' 0 8 : Word) = w := by
    rw [BitVec.extractLsb'_append_extractLsb'_eq_extractLsb' (by rfl), BitVec.extractLsb'_eq_self]
  rw [w2b_getD_zero, w2b_getD_one]
  cases bo <;> exact hword

/-- A word inside record `i` of records of one length, back to back. -/
theorem wordAt_flatMap_const {α : Type} (l : List α) (f : α → List Byte) {c : Nat} (hc : ∀ a ∈ l, (f a).length = c)
    {i b : Nat} (hi : i < l.length) (hb : b + 1 < c) (bo : Bool) :
    wordAt (l.flatMap f) (i * c + b) bo = wordAt (f l[i]) b bo := by
  rw [wordAt, wordAt, Nat.add_assoc, getD_flatMap_const l f c 0 hc hi (by omega), getD_flatMap_const l f c 0 hc hi hb]

theorem wordAt_wordsToBytes (bo : Bool) {ws : List Word} {j : Nat} (hj : j < ws.length) :
    wordAt (wordsToBytes bo ws) (2 * j) bo = ws[j] := by
  rw [Nat.mul_comm]
  exact (wordAt_flatMap_const ws _ (fun w _ => length_w2b w bo) hj (b := 0) (by omega) bo).trans (b2w_w2b _ bo)

/-- Word `j` of share `i`: the point, then the share's y-values (R48). -/
theorem wordAt_sharesBytes (bo : Bool) {xs : List Word} {yv : List (List Word)} {i j : Nat} (hi : i < xs.length)
    (hj : j < yv.length + 1) :
    wordAt (sharesBytes bo xs yv) (i * (2 * yv.length + 2) + 2 * j) bo =
      (xs.getD i 0 :: yv.map fun row => row.getD i 0)[j]'(by simpa using hj) := by
  rw [sharesBytes, wordAt_flatMap_const _ _ (by simp) (by simpa using hi) (by omega), List.getElem_range]
  exact wordAt_wordsToBytes bo _

theorem wordAt_sharesBytes_point (bo : Bool) {xs : List Word} (yv : List (List Word)) {i : Nat} (hi : i < xs.length) :
    wordAt (sharesBytes bo xs yv) (i * (2 * yv.length + 2)) bo = xs[i] := by
  rw [← Nat.add_zero (i * _), wordAt_sharesBytes bo hi (j := 0) (by omega)]
  simp [hi]

theorem wordAt_sharesBytes_value (bo : Bool) {xs : List Word} {yv : List (List Word)} {i j : Nat} (hi : i < xs.length)
    (hj : j < yv.length) :
    wordAt (sharesBytes bo xs yv) (i * (2 * yv.length + 2) + 2 + 2 * j) bo = yv[j].getD i 0 := by
  rw [Nat.add_assoc, show 2 + 2 * j = 2 * (j + 1) by omega, wordAt_sharesBytes bo hi (by omega)]
  simp

end Sys2Proof.Machine
end

section
/-! SUPPORT. What a SPLIT that completes has output (44_split_combine.md R142 to R146): the points and rows it serialises. -/

namespace Sys2Proof.Machine

/-! ### Phases that are done -/

theorem Phase.bind_eq_ready {p : Phase} {next : State → Phase} {u : State} (h : p.bind next = .ready u) :
    ∃ v, p = .ready v ∧ next v = .ready u := by
  cases p with
  | ready v => exact ⟨v, rfl, h⟩
  | failed v => cases h
  | waiting v => cases h

/-- A command in DONE after a phase is one whose phase is done: otherwise it is in ERROR, or BUSY as before. -/
theorem Phase.ready_of_andThen_done {s : State} {p : Phase} {next : State → State} (hq : Quiet s p.state)
    (hb : s.state = .busy) (hd : (p.andThen next).state = .done) :
    ∃ u, p = .ready u ∧ Quiet s u ∧ p.andThen next = next u := by
  cases p with
  | ready u => exact ⟨u, rfl, hq, rfl⟩
  | failed u => cases hd
  | waiting u => cases (hq.state.trans hb).symm.trans hd

theorem collectPoints_eq_ready {s u : State} {n : Nat} (h : s.collectPoints n = .ready u) (hp : PointsPair (s.xv, s.seen))
    (hlen : s.xv.length ≤ n) :
    ∃ xv seen rest, u = { s with xv := xv, seen := seen, answers := rest } ∧ PointsPair (xv, seen) ∧ xv.length = n := by
  obtain ⟨xv, seen, rest, hpair, -, hle, ⟨hr, hge⟩ | ⟨hr, -⟩ | ⟨hr, -, -⟩⟩ := collectPoints_cases s n <;>
    cases h.symm.trans hr
  exact ⟨xv, seen, rest, rfl, hpair hp, (hle hlen).antisymm hge⟩

/-- A row of YV: the values at the points of a polynomial with `t` coefficients whose constant term is the word (R113). -/
def IsRow (F : FieldOps) (xs : List Word) (t : Nat) (w : Word) (row : List Word) : Prop :=
  ∃ c : List Word, c.length + 1 = t ∧ row = xs.map (polyEval F (w :: c))

theorem splitWord_eq_ready {s u : State} {t : Nat} (h : s.splitWord t = .ready u) (hlen : s.coef.length ≤ t) :
    ∃ vs rest, s.coef.length + vs.length = t ∧ u = { s with
      coef := s.coef ++ vs, answers := rest, yv := s.yv ++ [s.xv.map (polyEval s.field (s.coef ++ vs))] } := by
  obtain ⟨v, hv, hu⟩ := Phase.bind_eq_ready h
  obtain ⟨vs, rest, hle, ⟨hr, hge⟩ | ⟨hr, -⟩ | ⟨hr, -⟩⟩ := collectCoefs_cases s t <;> cases hv.symm.trans hr
  cases hu
  exact ⟨vs, rest, (hle hlen).antisymm hge, rfl⟩

/-- Words that are all split leave a row each, after the rows there were (R144). -/
theorem splitWords_eq_ready {s u : State} {t : Nat} {ws : List Word} (h : State.splitWords t ws s = .ready u) (ht : 1 ≤ t) :
    u.xv = s.xv ∧ ∃ rows, u.yv = s.yv ++ rows ∧ List.Forall₂ (IsRow s.field s.xv t) ws rows := by
  induction ws generalizing s with
  | nil =>
    cases h
    exact ⟨rfl, [], (List.append_nil _).symm, .nil⟩
  | cons w ws ih =>
    rw [splitWords_cons] at h
    obtain ⟨v, hv, hrest⟩ := Phase.bind_eq_ready h
    obtain ⟨vs, rest, hlen, rfl⟩ := splitWord_eq_ready hv ht
    obtain ⟨hxv, rows, hyv, hrows⟩ := ih hrest
    refine ⟨hxv, _ :: rows, hyv.trans (List.append_assoc ..), .cons ⟨vs, ?_, rfl⟩ hrows⟩
    rw [← hlen, Nat.add_comm]
    rfl

/-! ### The commands -/

/-- The SPLIT from `s` completed in `t` with the records of the points `xs` and the rows `yv`. -/
structure Dealt (s t : State) (xs : List Word) (yv : List (List Word)) : Prop where
  nodup : xs.Nodup
  nonzero : (0 : Word) ∉ xs
  completed : Completed s t (sharesBytes s.bo xs yv)

theorem Dealt.of_finish {s u : State} (hq : Quiet s u) (hnodup : u.xv.Nodup) (hnonzero : (0 : Word) ∉ u.xv) :
    Dealt s u.splitFinish u.xv u.yv :=
  ⟨hnodup, hnonzero, by rw [← hq.keeps.bo]; exact hq.completed _⟩

/-- A quiet beginning does not change what is dealt. -/
theorem Dealt.of_quiet {s u t : State} {xs : List Word} {yv : List (List Word)} (hq : Quiet s u) (h : Dealt u t xs yv) :
    Dealt s t xs yv := by
  refine ⟨h.nodup, h.nonzero, ?_⟩
  have hc := h.completed
  rw [hq.keeps.bo] at hc
  exact { hc with
    err := hc.err.trans hq.err, errInfo := hc.errInfo.trans hq.errInfo, keeps := hq.keeps.trans hc.keeps }

/-- A SPLIT that completes from the points on: a row for each word of the secret (R143 to R146). -/
theorem splitFromPoints_dealt {s : State} {t n : Nat} (hb : s.state = .busy) (ht : 1 ≤ t) (hp : PointsPair (s.xv, s.seen))
    (hlen : s.xv.length ≤ n) (hd : (s.splitFromPoints t n).state = .done) :
    ∃ xs yv, Dealt s (s.splitFromPoints t n) xs yv ∧ xs.length = n ∧ List.Forall₂ (IsRow s.field xs t) s.sw yv := by
  have hq := Phase.bind_quiet (collectPoints_quiet s n) fun u =>
    (quiet_of_scratch u).trans (splitWords_quiet t u.sw { u with yv := [] })
  obtain ⟨u, hphase, hquiet, (hrun : s.splitFromPoints t n = u.splitFinish)⟩ := Phase.ready_of_andThen_done hq hb hd
  obtain ⟨v, hv, hwords⟩ := Phase.bind_eq_ready hphase
  obtain ⟨xv, seen, rest, rfl, hpoints, hn⟩ := collectPoints_eq_ready hv hp hlen
  obtain ⟨hxv, rows, hyv, hrows⟩ := splitWords_eq_ready hwords ht
  have hdealt := Dealt.of_finish hquiet (hxv ▸ hpoints.nodup) (hxv ▸ hpoints.nonzero)
  refine ⟨u.xv, u.yv, hrun ▸ hdealt, hxv ▸ hn, ?_⟩
  rw [hxv, hyv]
  exact hrows

/-- A SPLIT that completes from a coefficient draw on: the points it had, and a row for each word of the secret. -/
theorem splitFromCoefs_dealt {s : State} {t : Nat} (hb : s.state = .busy) (ht : 1 ≤ t) (hp : s.PointsOk)
    (hcoef : s.coef.length ≤ t) (hyv : s.yv.length < s.sw.length) (hd : (s.splitFromCoefs t).state = .done) :
    ∃ yv, Dealt s (s.splitFromCoefs t) s.xv yv ∧ yv.length = s.sw.length := by
  have hq := Phase.bind_quiet (splitWord_quiet s t) fun u => splitWords_quiet t (u.sw.drop u.yv.length) u
  obtain ⟨u, hphase, hquiet, (hrun : s.splitFromCoefs t = u.splitFinish)⟩ := Phase.ready_of_andThen_done hq hb hd
  obtain ⟨v, hv, hwords⟩ := Phase.bind_eq_ready hphase
  obtain ⟨vs, rest, -, rfl⟩ := splitWord_eq_ready hv hcoef
  obtain ⟨hxv, rows, hrows, hall⟩ := splitWords_eq_ready hwords ht
  have hdealt := Dealt.of_finish hquiet (hxv ▸ hp.nodup) (hxv ▸ hp.nonzero)
  refine ⟨u.yv, ?_, ?_⟩
  · rw [hxv] at hdealt
    exact hrun ▸ hdealt
  · have hlen := hall.length_eq
    simp only [List.length_drop, List.length_append, List.length_singleton] at hlen
    rw [hrows, List.length_append, ← hlen, List.length_append, List.length_singleton]
    omega

/-- A SPLIT that completes from its beginning passed its validation, and dealt every word of the secret. -/
theorem execSplit_start_dealt {s r : State} {t n len : Nat} (hpos : s.pos = .start) (hb : s.state = .busy)
    (hrun : execSplit t n len s = .next r) (hd : r.state = .done) :
    splitError s.params t n len = none ∧
      ∃ xs yv, Dealt s r xs yv ∧ xs.length = n ∧ List.Forall₂ (IsRow s.field xs t) (s.secretWords (len / 2)) yv := by
  cases hok : splitError s.params t n len with
  | some e =>
    obtain ⟨u, hu, hraised, -⟩ := execSplit_of_splitError hpos hok
    cases hrun.symm.trans hu
    cases hraised.state.symm.trans hd
  | none =>
    cases hrun.symm.trans (execSplit_start hpos hok)
    obtain ⟨xs, yv, hdealt, hlen, hrows⟩ := splitFromPoints_dealt
      (s := State.beginPoints { s with sw := s.secretWords (len / 2) })
      hb (Nat.one_le_iff_ne_zero.2 (splitError_eq_none.1 hok).1) .empty (Nat.zero_le n) hd
    exact ⟨rfl, xs, yv, hdealt.of_quiet (quiet_of_scratch s), hlen, hrows⟩

/-- Whenever a SPLIT completes, also after waiting, it dealt `len / 2` words to `n` points. -/
theorem coreTurn_split_dealt {s r : State} {t n len : Nat} (hinv : s.Inv) (hb : s.state = .busy)
    (hcmd : s.cmd = some (.legal (.split t n len))) (hrun : coreTurn s = .next r) (hd : r.state = .done) :
    splitError s.params t n len = none ∧ ∃ xs yv, Dealt s r xs yv ∧ xs.length = n ∧ yv.length = len / 2 := by
  rw [coreTurn, if_pos hb, hcmd] at hrun
  change execSplit t n len s = .next r at hrun
  obtain hpos | ⟨hpos, hp, ⟨n', hc, -⟩ | ⟨t', n', len', hc, hok, hlen, hsw⟩⟩ |
    ⟨hpos, ⟨t', n', w, hc, -⟩ | ⟨t', n', len', hc, hok, hp, hn, hsw, hyv, -, hcoef⟩⟩ := hinv.sequencer.place hb
  · obtain ⟨hok, xs, yv, hdealt, hn, hrows⟩ := execSplit_start_dealt hpos hb hrun hd
    exact ⟨hok, xs, yv, hdealt, hn, by rw [← hrows.length_eq, State.secretWords, length_readWords]⟩
  all_goals cases hcmd.symm.trans hc
  · have ht := Nat.one_le_iff_ne_zero.2 (splitError_eq_none.1 hok).1
    rw [execSplit, if_pos hpos] at hrun
    cases hrun
    obtain ⟨xs, yv, hdealt, hn, hrows⟩ := splitFromPoints_dealt hb ht ⟨hp.nodup, hp.nonzero, hp.seen⟩ hlen.le hd
    exact ⟨hok, xs, yv, hdealt, hn, by rw [← hrows.length_eq, hsw]⟩
  · have ht := Nat.one_le_iff_ne_zero.2 (splitError_eq_none.1 hok).1
    rw [execSplit, if_neg (by simp [hpos]), if_pos hpos] at hrun
    cases hrun
    obtain ⟨yv, hdealt, hlen⟩ := splitFromCoefs_dealt hb ht hp hcoef.le (hsw ▸ hyv) hd
    exact ⟨hok, s.xv, yv, hdealt, hn, hlen.trans hsw⟩

end Sys2Proof.Machine
end

section
/-! SUPPORT. Shares of a SPLIT handed to COMBINE (44_split_combine.md R156). -/

namespace Sys2Proof.Machine

/-- The running-power loop of R111 computes the nested form (90_conflicts.md C1). -/
theorem polyEvalFrom_eq {F : FieldOps} (hF : F.Lawful) (x : Word) (c : List Word) (result p : Word) :
    polyEvalFrom F x c result p = F.add result (F.mul p (nested F c x)) := by
  induction c generalizing result p with
  | nil => rw [polyEvalFrom, nested_nil, hF.mul_zero, hF.add_zero]
  | cons a c ih => rw [polyEvalFrom, ih, nested_cons, hF.mul_add, hF.mul_assoc, hF.add_assoc, hF.mul_comm a p]

theorem polyEval_eq_nested {F : FieldOps} (hF : F.Lawful) (c : List Word) : polyEval F c = nested F c := by
  funext x
  rw [polyEval, polyEvalFrom_eq hF, hF.zero_add, hF.one_mul]

/-- The `k` share slots of `u` hold records of the points `xs` and rows `yv`, those of the places `pick`. -/
structure HoldsShares (u : State) (k : Nat) (pick : Nat → Nat) (xs : List Word) (yv : List (List Word)) : Prop where
  lt : ∀ i < k, pick i < xs.length
  inj : ∀ i < k, ∀ j < k, pick i = pick j → i = j
  word : ∀ i < k, ∀ b, b + 1 < 2 * yv.length + 2 →
    u.readWord (i * (2 * yv.length + 2) + b) = wordAt (sharesBytes u.bo xs yv) (pick i * (2 * yv.length + 2) + b) u.bo

namespace HoldsShares

variable {u : State} {k : Nat} {pick : Nat → Nat} {xs : List Word} {yv : List (List Word)} (h : HoldsShares u k pick xs yv)
include h

theorem readWord_point {i : Nat} (hi : i < k) : u.readWord (i * (2 * yv.length + 2)) = xs[pick i]'(h.lt i hi) :=
  (h.word i hi 0 (by omega)).trans (wordAt_sharesBytes_point u.bo yv (h.lt i hi))

theorem readWord_value {i j : Nat} (hi : i < k) (hj : j < yv.length) :
    u.readWord (i * (2 * yv.length + 2) + 2 + 2 * j) = yv[j].getD (pick i) 0 := by
  rw [← wordAt_sharesBytes_value u.bo (h.lt i hi) hj, Nat.add_assoc, Nat.add_assoc]
  exact h.word i hi _ (by omega)

theorem nodup_shareXs (hxs : xs.Nodup) : (u.shareXs k (2 * yv.length + 2)).Nodup := by
  refine nodup_shareXs_iff.2 fun i hi j hj hij => h.inj i hi j hj ?_
  rwa [h.readWord_point hi, h.readWord_point hj, hxs.getElem_inj_iff] at hij

/-- At least `t` shares of a word split with threshold `t` combine to it: they lie on its polynomial. -/
theorem combines {F : FieldOps} (hF : F.Lawful) {t : Nat} {w : Word} {j : Nat} (hxs : xs.Nodup) (hj : j < yv.length)
    (hrow : IsRow F xs t w yv[j]) (htk : t ≤ k) :
    Combines F (u.shareXs k (2 * yv.length + 2)) (u.shareYs k (2 * yv.length + 2) j) w := by
  obtain ⟨c, hc, hrow⟩ := hrow
  have hys : u.shareYs k (2 * yv.length + 2) j = (u.shareXs k (2 * yv.length + 2)).map (nested F (w :: c)) := by
    rw [shareXs_eq_map, shareYs_eq_map, List.map_map]
    refine List.map_congr_left fun i hi => ?_
    have hi := List.mem_range.1 hi
    rw [h.readWord_value hi hj, Function.comp_apply, h.readWord_point hi, hrow, polyEval_eq_nested hF]
    simp [h.lt i hi]
  rw [hys]
  exact combines_of_values hF (h.nodup_shareXs hxs) (by rw [length_shareXs]; omega)
    (by rw [length_shareXs, List.length_cons]; omega)

/-- COMBINE of at least `t` distinct shares of words split with threshold `t` completes with those words. -/
theorem execCombine_completed (hF : u.field.Lawful) {t : Nat} {ws : List Word} (hok : u.combineError k = none)
    (hS : u.shareLen = 2 * yv.length + 2) (hxs : xs.Nodup) (htk : t ≤ k)
    (hrows : List.Forall₂ (IsRow u.field xs t) ws yv) :
    ∃ v, execCombine k u = .next v ∧ Completed u v (wordsToBytes u.bo ws) := by
  have hwords : u.shareWords = ws.length := by rw [State.shareWords, hS, hrows.length_eq]; omega
  have hws : (List.range u.shareWords).map (fun j => ws.getD j 0) = ws := by
    rw [hwords]
    apply List.ext_getElem <;> simp +contextual
  have hsolved : ∀ j < u.shareWords,
      Combines u.field (u.shareXs k u.shareLen) (u.shareYs k u.shareLen j) (ws.getD j 0) := by
    intro j hj
    rw [hwords] at hj
    have hj' : j < yv.length := hrows.length_eq ▸ hj
    rw [hS, List.getD_eq_getElem _ _ hj]
    exact h.combines hF hxs hj' (hrows.get hj hj') htk
  obtain ⟨v, hv, hcompleted⟩ := execCombine_of_column_words hok hsolved
  exact ⟨v, hv, hws ▸ hcompleted⟩

end HoldsShares

/-- Shares of one length, for `m` words, pass COMBINE's validation within the capacity (R151). -/
theorem combineError_eq_none_of_shares {u : State} {k m : Nat} (hk : k ≠ 0) (hcap : k ≤ u.params.nmax) (hm : m ≠ 0)
    (hmcap : m ≤ u.params.mmax) (hslen : ∀ i < k, (u.readSlen i).toNat = 2 * m + 2) : u.combineError k = none := by
  have hS : u.shareLen = 2 * m + 2 := hslen 0 (Nat.pos_of_ne_zero hk)
  have hwords : u.shareWords = m := by rw [State.shareWords, hS]; omega
  exact combineError_eq_none.2 ⟨hk, hcap, fun i _ hi => BitVec.eq_of_toNat_eq ((hslen i hi).trans hS.symm),
    by omega, by omega, hwords ▸ hmcap⟩

end Sys2Proof.Machine
end

section
/-! CERTIFICATE. The output of SPLIT, and its way back through COMBINE (44_split_combine.md R146, R156). -/

namespace Sys2Proof.Machine

/-- What a SPLIT outputs fits OUT (00_scope.md R6). -/
theorem split_output_le {p : Params} (hp : p.CapacityOk) {t n len : Nat} (hok : splitError p t n len = none) :
    n * (len + 2) ≤ 2 ^ 28 := by
  obtain ⟨-, -, -, -, heven, hn, hm⟩ := splitError_eq_none.1 hok
  calc n * (len + 2) ≤ p.nmax * (2 * p.mmax + 2) := Nat.mul_le_mul hn (by omega)
    _ ≤ 2 ^ 28 := Params.CapacityOk.bufCap_le hp

/-- Settles O54: the output is the records of distinct, non-zero points, each with a y-value for every word. -/
theorem splitOutputInvariants : Obligations.SplitOutputInvariants := by
  unfold Obligations.SplitOutputInvariants
  intro t n len s r hinv hb hcmd hrun hd
  obtain ⟨hok, xs, yv, hdealt, rfl, hyv⟩ := coreTurn_split_dealt hinv hb hcmd hrun hd
  obtain ⟨-, -, -, -, heven, -⟩ := splitError_eq_none.1 hok
  have hcap := split_output_le hinv.capacity hok
  have hrecord : 2 * yv.length + 2 = len + 2 := by omega
  have hlen : (sharesBytes s.bo xs yv).length = xs.length * (len + 2) := by rw [length_sharesBytes, hrecord]
  have hpoint (i : Nat) (hi : i < xs.length) : wordAt r.out (i * (len + 2)) s.bo = xs[i] := by
    rw [hdealt.completed.out, ← hrecord, wordAt_sharesBytes_point s.bo yv hi]
  refine ⟨?outLen, by rw [hdealt.completed.out, hlen], fun i hi => ?nonzero, fun i hi j hj hij => ?distinct,
    hdealt.completed.keeps.readIn⟩
  case outLen => rw [hdealt.completed.outLen, hlen, BitVec.toNat_ofNat, Nat.mod_eq_of_lt (by omega)]
  case nonzero =>
    rw [hpoint i hi]
    exact ne_of_mem_of_not_mem (List.getElem_mem hi) hdealt.nonzero
  case distinct => rwa [hpoint i hi, hpoint j hj, hdealt.nodup.getElem_inj_iff] at hij

/-- Settles O59: the shares lie on polynomials with at most `k` coefficients, whose constant terms are the secret's words. -/
theorem splitThenCombineReturnsTheSecret : Obligations.SplitThenCombineReturnsTheSecret := by
  unfold Obligations.SplitThenCombineReturnsTheSecret
  intro t n len k s r u pick hF hpos hb hrun hd htk hkn hlt hinj hparams hbo hslen hreadIn
  obtain ⟨hok, xs, yv, hdealt, rfl, hrows⟩ := execSplit_start_dealt hpos hb hrun hd
  obtain ⟨ht, -, -, hlen, heven, hncap, hmcap⟩ := splitError_eq_none.1 hok
  have hyv : yv.length = len / 2 := by rw [← hrows.length_eq, State.secretWords, length_readWords]
  have hrecord : len + 2 = 2 * yv.length + 2 := by omega
  rw [hrecord] at hslen hreadIn
  have hok' : u.combineError k = none :=
    combineError_eq_none_of_shares (by omega) (hparams ▸ hkn.trans hncap) (by omega) (by rw [hyv, hparams]; exact hmcap) hslen
  have hshares : HoldsShares u k pick xs yv := by
    refine ⟨hlt, hinj, fun i hi b hb => ?_⟩
    rw [hdealt.completed.out, ← hbo] at hreadIn
    rw [State.readWord, wordAt, Nat.add_assoc, Nat.add_assoc, hreadIn i hi b (by omega), hreadIn i hi (b + 1) hb]
  have hfield : u.field = s.field := congrArg (fun p : Params => fieldOf p.field) hparams
  obtain ⟨v, hv, hcompleted⟩ := hshares.execCombine_completed (hfield ▸ hF) hok' (hslen 0 (by omega)) hdealt.nodup htk
    (hfield ▸ hrows)
  rw [hbo, wordsToBytes_secretWords, Nat.mul_div_cancel' (Nat.dvd_of_mod_eq_zero heven)] at hcompleted
  exact ⟨v, hv, hcompleted⟩

end Sys2Proof.Machine
end

section
/-! SUPPORT. The answers a command that ends with an error has consumed (60_exceptions.md R177; 40_field_and_random.md R92): an
error answer is the last one drawn, and every other error comes without a draw. -/

namespace Sys2Proof.Machine

/-! ### Phases -/

/-- The phase, begun with the answers `as`, consumed a run of values, and after them an error answer if it failed. -/
inductive Phase.Draws (as : List Answer) : Phase → Prop where
  | ready {u : State} (vs : List Word) (h : as = vs.map .value ++ u.answers) : Phase.Draws as (.ready u)
  | failed {u : State} (vs : List Word) (h : as = vs.map .value ++ .error :: u.answers) : Phase.Draws as (.failed u)
  | waiting {u : State} (vs : List Word) (h : as = vs.map .value ++ u.answers) : Phase.Draws as (.waiting u)

/-- Values drawn before a phase count among the values drawn. -/
theorem Phase.Draws.after_values {as : List Answer} {p : Phase} (hp : p.Draws as) (vs : List Word) :
    p.Draws (vs.map .value ++ as) := by
  cases hp with
  | ready ws h => exact .ready (vs ++ ws) (by rw [h, List.map_append, List.append_assoc])
  | failed ws h => exact .failed (vs ++ ws) (by rw [h, List.map_append, List.append_assoc])
  | waiting ws h => exact .waiting (vs ++ ws) (by rw [h, List.map_append, List.append_assoc])

theorem Phase.Draws.bind {as : List Answer} {p : Phase} {next : State → Phase} (hp : p.Draws as)
    (hn : ∀ u, (next u).Draws u.answers) : (p.bind next).Draws as := by
  cases hp with
  | ready vs h => exact h ▸ (hn _).after_values vs
  | failed vs h => exact .failed vs h
  | waiting vs h => exact .waiting vs h

theorem collectPoints_draws (s : State) (n : Nat) : (s.collectPoints n).Draws s.answers := by
  obtain ⟨vs, rest, hans, -, ⟨-, hd⟩ | ⟨-, rest', rfl, hd⟩ | ⟨-, rfl, hd⟩⟩ :=
    drawUntil_cases (enough := fun g => decide (n ≤ g.1.length)) (take := takeCandidate) s.answers (s.xv, s.seen) <;>
    simp only [State.collectPoints, hd]
  · exact .ready vs hans
  · exact .failed vs hans
  · exact .waiting vs hans

theorem collectCoefs_draws (s : State) (t : Nat) : (s.collectCoefs t).Draws s.answers := by
  obtain ⟨vs, rest, hans, -, ⟨-, hd⟩ | ⟨-, rest', rfl, hd⟩ | ⟨-, rfl, hd⟩⟩ :=
    drawUntil_cases (enough := fun c => decide (t ≤ c.length)) (take := fun (c : List Word) v => c ++ [v]) s.answers s.coef <;>
    simp only [State.collectCoefs, hd]
  · exact .ready vs hans
  · exact .failed vs hans
  · exact .waiting vs hans

theorem splitWord_draws (s : State) (t : Nat) : (s.splitWord t).Draws s.answers :=
  (collectCoefs_draws s t).bind fun _ => .ready [] rfl

theorem splitWords_draws (t : Nat) (ws : List Word) (s : State) : (State.splitWords t ws s).Draws s.answers := by
  induction ws generalizing s with
  | nil => exact .ready [] rfl
  | cons w ws ih => exact (splitWord_draws (s.beginWord w) t).bind ih

/-! ### Commands -/

/-- What a command that had the answers `as` and left the state `t` consumed, if it ended with an error (R177). -/
inductive ErrorConsumes (as : List Answer) (t : State) : Prop where
  | noError (h : t.state ≠ .error)
  | nothing (hne : t.err ≠ .rng) (h : t.answers = as)
  | upToError (hrng : t.err = .rng) (vs : List Word) (h : as = vs.map .value ++ .error :: t.answers)

/-- Only an error answer has the class RNG (R173). -/
theorem Err.cls_ne_rng {e : Err} (h : e ≠ .rng) : e.cls ≠ .rng := by
  cases e with
  | rng => exact absurd rfl h
  | _ => exact nofun

theorem State.complete_errorConsumes (as : List Answer) (s : State) (b : List Byte) : ErrorConsumes as (s.complete b) :=
  .noError (by simp)

/-- A command that completes once its draws are done ends with an error at an error answer only. -/
theorem Phase.Draws.errorConsumes {as : List Answer} {s : State} {p : Phase} {next : State → State} (hp : p.Draws as)
    (hq : Quiet s p.state) (hb : s.state = .busy) (hn : ∀ u, (next u).state = .done) :
    ErrorConsumes as (p.andThen next) := by
  cases hp with
  | @ready u vs h => exact .noError (by simp [Phase.andThen, hn u])
  | failed vs h => exact .upToError rfl vs h
  | @waiting u vs h =>
    have hbusy : u.state = .busy := hq.state.trans hb
    exact .noError (by simp [Phase.andThen, hbusy])

theorem genptRun_errorConsumes {s : State} (hb : s.state = .busy) (n : Nat) : ErrorConsumes s.answers (s.genptRun n) :=
  (collectPoints_draws s n).errorConsumes (collectPoints_quiet s n) hb fun _ => rfl

theorem wsplitRun_errorConsumes {s : State} (hb : s.state = .busy) (t : Nat) : ErrorConsumes s.answers (s.wsplitRun t) :=
  (collectCoefs_draws s t).errorConsumes (collectCoefs_quiet s t) hb fun _ => rfl

theorem splitFromPoints_errorConsumes {s : State} (hb : s.state = .busy) (t n : Nat) :
    ErrorConsumes s.answers (s.splitFromPoints t n) :=
  ((collectPoints_draws s n).bind fun u => splitWords_draws t u.sw { u with yv := [] }).errorConsumes
    (Phase.bind_quiet (collectPoints_quiet s n) fun u => (quiet_of_scratch u).trans (splitWords_quiet t _ _)) hb fun _ => rfl

theorem splitFromCoefs_errorConsumes {s : State} (hb : s.state = .busy) (t : Nat) :
    ErrorConsumes s.answers (s.splitFromCoefs t) :=
  ((splitWord_draws s t).bind fun u => splitWords_draws t (u.sw.drop u.yv.length) u).errorConsumes
    (Phase.bind_quiet (splitWord_quiet s t) fun _ => splitWords_quiet t _ _) hb fun _ => rfl

theorem wcombRun_errorConsumes (s : State) (k : Nat) : ErrorConsumes s.answers (s.wcombRun k) := by
  unfold State.wcombRun
  split
  · exact State.complete_errorConsumes _ _ _
  · exact .nothing nofun rfl

theorem combineColumns_errorConsumes {as : List Answer} (cols : List (List Word)) {s : State} (hans : s.answers = as) :
    ErrorConsumes as (State.combineColumns cols s) := by
  induction cols generalizing s with
  | nil => exact State.complete_errorConsumes _ _ _
  | cons ys rest ih =>
    rw [combineColumns_cons]
    split
    · exact ih hans
    · exact .nothing nofun hans

/-! ### Validation (R175) -/

/-- A validation reports one of the errors it tests for. -/
theorem ne_of_firstError {l : List (Bool × Err)} {e e' : Err} (h : firstError l = some e) (he' : e' ∉ l.map Prod.snd) :
    e ≠ e' := by
  obtain ⟨before, after, rfl, -⟩ := firstError_eq_some h
  exact ne_of_mem_of_not_mem (by simp) he'

/-- A command that validates first draws nothing before its validation is passed. -/
theorem errorConsumes_of_validation {s run : State} {l : List (Bool × Err)} (hl : Err.rng ∉ l.map Prod.snd)
    (h : ErrorConsumes s.answers run) :
    ErrorConsumes s.answers (match firstError l with
      | some e => s.raise e
      | none => run) := by
  cases hv : firstError l with
  | some e => exact .nothing (Err.cls_ne_rng (ne_of_firstError hv hl)) rfl
  | none => exact h

/-- No command consumes an answer before an error of its own, nor one after an error answer. -/
theorem exec_errorConsumes (i : Instr) {s : State} (hb : s.state = .busy) :
    ∃ t, exec i s = .next t ∧ ErrorConsumes s.answers t := by
  cases i with
  | split t n len =>
    refine ⟨_, rfl, ?_⟩
    split
    · exact splitFromPoints_errorConsumes hb t n
    · split
      · exact splitFromCoefs_errorConsumes hb t
      · exact errorConsumes_of_validation (by simp)
          (splitFromPoints_errorConsumes (s := State.beginPoints { s with sw := s.secretWords (len / 2) }) hb t n)
  | combine k =>
    exact ⟨_, rfl, errorConsumes_of_validation (by simp) (combineColumns_errorConsumes _ rfl)⟩
  | genpt n =>
    refine ⟨_, rfl, ?_⟩
    split
    · exact genptRun_errorConsumes hb n
    · exact errorConsumes_of_validation (by simp) (genptRun_errorConsumes (s := s.beginPoints) hb n)
  | wsplit t n w =>
    refine ⟨_, rfl, ?_⟩
    split
    · exact wsplitRun_errorConsumes hb t
    · exact errorConsumes_of_validation (by simp)
        (wsplitRun_errorConsumes (s := State.beginWord { s with xv := s.pointXs n } w) hb t)
  | wcomb k => exact ⟨_, rfl, errorConsumes_of_validation (by simp) (wcombRun_errorConsumes s k)⟩
  | peval t x =>
    exact ⟨_, rfl, errorConsumes_of_validation (by simp) (State.complete_errorConsumes _ _ _)⟩

end Sys2Proof.Machine
end

section
/-! CERTIFICATE. The life cycle of a command in 60_exceptions.md: START, error entry and CLEAR. -/

namespace Sys2Proof.Machine

/-! ### Error entry (R176, R177) -/

/-- The sequencer waits for START outside BUSY (R20). -/
theorem coreTurn_of_not_busy {s : State} (h : s.state ≠ .busy) : coreTurn s = .next s := by
  rw [coreTurn, if_neg h]

theorem coreTurn_errorConsumes {s t : State} (hb : s.state = .busy) (h : coreTurn s = .next t) :
    ErrorConsumes s.answers t := by
  match hc : s.cmd with
  | some (.legal i) =>
    rw [coreTurn, if_pos hb, hc] at h
    obtain ⟨u, hu, hcons⟩ := exec_errorConsumes i hb
    cases h.symm.trans hu
    exact hcons
  | some (.illegal why) =>
    cases h.symm.trans (coreTurn_illegal hb hc)
    exact .nothing (Err.cls_ne_rng (by cases why <;> decide)) rfl
  | none =>
    rw [coreTurn, if_pos hb, hc] at h
    cases h
    exact .noError (by simp [hb])

/-- The sequencer reaches ERROR from BUSY by error entry alone. -/
theorem coreTurn_raised {s t : State} (hb : s.state = .busy) (h : coreTurn s = .next t) (he : t.state = .error) :
    ∃ e, Raised s t e := by
  obtain rfl | ⟨-, hl⟩ := coreTurn_cases h
  · cases hb.symm.trans he
  · cases hl with
    | waiting hq => cases (hq.state.trans hb).symm.trans he
    | completed bytes hc => cases hc.state.symm.trans he
    | raised e hr => exact ⟨e, hr⟩

theorem Keeps.ie {s t : State} (h : Keeps s t) : t.ie = s.ie := by simp [State.ie, h.cfg]

/-- In ERROR `irq` is up exactly if `CFG.IE` is set (R19). -/
theorem Raised.irq {s t : State} {e : Err} (h : Raised s t e) : t.irq = s.ie := by
  simp [State.irq, h.state, h.keeps.ie]

/-- Settles O30: the turn is an error entry, and only an error answer is raised after a draw. -/
theorem errorEntry : Obligations.ErrorEntry := by
  unfold Obligations.ErrorEntry
  intro s t hb hturn he
  obtain ⟨e, hr⟩ := coreTurn_raised hb hturn he
  have hidles : coreTurn t = .next t := coreTurn_of_not_busy (by simp [he])
  refine ⟨⟨e, hr, hr.irq, hr.keeps.readIn, hr.keeps.readSlen, hr.keeps.cfg, hr.keeps.desc, hidles⟩, ?_⟩
  cases coreTurn_errorConsumes hb hturn with
  | noError h => exact absurd he h
  | nothing hne h => exact ⟨fun _ => h, fun hrng => absurd hrng hne⟩
  | upToError hrng vs h => exact ⟨fun hne => absurd hrng hne, fun _ => ⟨vs, h⟩⟩

/-! ### START (R170) -/

theorem State.start_statusWord (s : State) : s.start.statusWord = 0x00000001 := by
  simp [State.statusWord, ErrClass.code, RunState.code]

/-- Settles O13: what START writes, and a write of CTRL while BUSY. -/
theorem startEffect : Obligations.StartEffect := by
  unfold Obligations.StartEffect
  intro s v h0
  obtain ⟨-, hignored, hstart, -⟩ := ctrlWriteStartsOrClears s v
  refine ⟨fun hs => ?_, hignored⟩
  have hb : s.state ≠ .busy := by rcases hs with h | h | h <;> simp [h]
  rw [hstart hb h0]
  exact ⟨rfl, rfl, rfl, s.start_statusWord, rfl, rfl, rfl, rfl, State.irq_eq_false_of_state nofun nofun, rfl, rfl, rfl, rfl,
    fun _ => rfl, fun _ => rfl, rfl⟩

/-! ### CLEAR (R178) -/

theorem State.clear_of_ended {s : State} (h : s.state = .done ∨ s.state = .error) :
    s.clear = { s with state := .idle, err := .none, errInfo := 0, outLen := 0, out := [] } := if_pos h

theorem State.clear_of_idle {s : State} (h : s.state = .idle) : s.clear = s := if_neg (by simp [h])

/-- OUT reads as zeros once OUT_LEN is zero (R24). -/
theorem State.readOut_of_outLen_zero {s : State} (h : s.outLen = 0) (i : Nat) : s.readOut i = 0 := by
  simp [State.readOut, h]

/-- Settles O14: CLEAR in DONE and ERROR, then in IDLE and BUSY. -/
theorem clearEffect : Obligations.ClearEffect := by
  unfold Obligations.ClearEffect
  intro s v h0 h1
  obtain ⟨-, hignored, -, hclear, -⟩ := ctrlWriteStartsOrClears s v
  refine ⟨fun hend => ?ended, fun hs => ?unchanged⟩
  case ended =>
    have hb : s.state ≠ .busy := by rcases hend with h | h <;> simp [h]
    rw [hclear hb h0 h1, State.clear_of_ended hend]
    exact ⟨rfl, rfl, rfl, rfl, State.readOut_of_outLen_zero rfl, State.irq_eq_false_of_state nofun nofun, fun _ => rfl,
      fun _ => rfl, rfl, rfl, rfl⟩
  case unchanged =>
    obtain hidle | hb := hs
    · rw [hclear (by simp [hidle]) h0 h1, State.clear_of_idle hidle]
    · exact hignored hb

end Sys2Proof.Machine
end

section
/-! SUPPORT. The fields of a packed descriptor (30_encoding.md R60), and the decoder's three answers said by the fields and by the
rows of opcode_table.json (R62, R63, R65, R66). -/

namespace Sys2Proof

/-! ### Fields and packing (R60) -/

namespace Desc

variable (op flags : Byte) (a b c : Word)

@[simp] theorem op_pack : (pack op flags a b c).op = op := BitVec.extractLsb'_append_eq_right

@[simp] theorem flags_pack : (pack op flags a b c).flags = flags :=
  (BitVec.extractLsb'_append_eq_of_le (by decide)).trans BitVec.extractLsb'_append_eq_right

@[simp] theorem a_pack : (pack op flags a b c).a = a :=
  (BitVec.extractLsb'_append_eq_of_le (by decide)).trans
    ((BitVec.extractLsb'_append_eq_of_le (by decide)).trans BitVec.extractLsb'_append_eq_right)

@[simp] theorem b_pack : (pack op flags a b c).b = b :=
  (BitVec.extractLsb'_append_eq_of_le (by decide)).trans
    ((BitVec.extractLsb'_append_eq_of_le (by decide)).trans
      ((BitVec.extractLsb'_append_eq_of_le (by decide)).trans BitVec.extractLsb'_append_eq_right))

@[simp] theorem c_pack : (pack op flags a b c).c = c :=
  (BitVec.extractLsb'_append_eq_of_le (by decide)).trans
    ((BitVec.extractLsb'_append_eq_of_le (by decide)).trans
      ((BitVec.extractLsb'_append_eq_of_le (by decide)).trans BitVec.extractLsb'_append_eq_left))

/-- A descriptor is nothing but its five fields. -/
theorem pack_fields (d : Desc) : pack d.op d.flags d.a d.b d.c = d := by
  simp only [pack, op, flags, a, b, c]
  rw [BitVec.extractLsb'_append_extractLsb'_eq_extractLsb' (by rfl), BitVec.extractLsb'_append_extractLsb'_eq_extractLsb' (by rfl),
    BitVec.extractLsb'_append_extractLsb'_eq_extractLsb' (by rfl), BitVec.extractLsb'_append_extractLsb'_eq_extractLsb' (by rfl)]
  exact BitVec.extractLsb'_eq_self

variable {op flags a b c}

theorem pack_inj {op' flags' : Byte} {a' b' c' : Word} :
    pack op flags a b c = pack op' flags' a' b' c' ↔ op = op' ∧ flags = flags' ∧ a = a' ∧ b = b' ∧ c = c' := by
  refine ⟨fun h => ?_, fun ⟨hop, hflags, ha, hb, hc⟩ => by rw [hop, hflags, ha, hb, hc]⟩
  have hop := congrArg Desc.op h
  have hflags := congrArg Desc.flags h
  have ha := congrArg Desc.a h
  have hb := congrArg Desc.b h
  have hc := congrArg Desc.c h
  simp only [op_pack, flags_pack, a_pack, b_pack, c_pack] at hop hflags ha hb hc
  exact ⟨hop, hflags, ha, hb, hc⟩

end Desc

/-! ### The decoder's answers (R66) -/

/-- An `OP` value names at most one operation. -/
theorem Opcode.ofCode_eq_some_iff {v : Byte} {o : Opcode} : Opcode.ofCode v = some o ↔ v = o.code := by
  refine ⟨fun h => ?_, fun h => h ▸ o.ofCode_code⟩
  unfold Opcode.ofCode at h
  split_ifs at h <;> cases h <;> assumption

theorem Opcode.ofCode_eq_none_iff {v : Byte} : Opcode.ofCode v = none ↔ ∀ o : Opcode, v ≠ o.code := by
  simp only [Option.eq_none_iff_forall_ne_some, ne_eq, Opcode.ofCode_eq_some_iff]

theorem decode_of_op_ne {d : Desc} (h : ∀ o : Opcode, d.op ≠ o.code) : decode d = .illegal .opcode := by
  rw [decode, Opcode.ofCode_eq_none_iff.2 h]

/-- A descriptor's `OP` is that of one of the six operations, or of none. -/
theorem Desc.op_cases (d : Desc) : (∃ o : Opcode, d.op = o.code) ∨ ∀ o : Opcode, d.op ≠ o.code := by
  rw [← not_exists]
  exact em _

theorem decode_eq_legal_iff {d : Desc} {i : Instr} :
    decode d = .legal i ↔ ∃ o : Opcode, d.op = o.code ∧ o.reservedSet d = false ∧ o.build d = i := by
  refine ⟨fun h => ?_, fun ⟨o, hop, hres, hi⟩ => by simp [decode_of_op hop, hres, hi]⟩
  obtain ⟨o, hop⟩ | hop := d.op_cases
  · rw [decode_of_op hop] at h
    cases hres : o.reservedSet d with
    | true => simp [hres] at h
    | false => exact ⟨o, hop, hres, by simpa [hres] using h⟩
  · rw [decode_of_op_ne hop] at h
    cases h

theorem decode_eq_reserved_iff {d : Desc} :
    decode d = .illegal .reserved ↔ ∃ o : Opcode, d.op = o.code ∧ o.reservedSet d = true := by
  refine ⟨fun h => ?_, fun ⟨o, hop, hres⟩ => decode_of_reservedSet hop hres⟩
  obtain ⟨o, hop⟩ | hop := d.op_cases
  · rw [decode_of_op hop] at h
    cases hres : o.reservedSet d with
    | true => exact ⟨o, hop, hres⟩
    | false => simp [hres] at h
  · rw [decode_of_op_ne hop] at h
    cases h

theorem decode_eq_opcode_iff {d : Desc} : decode d = .illegal .opcode ↔ ∀ o : Opcode, d.op ≠ o.code := by
  refine ⟨fun h o hop => ?_, decode_of_op_ne⟩
  rw [decode_of_op hop] at h
  split at h <;> cases h

@[simp] theorem Opcode.opcode_build (o : Opcode) (d : Desc) : (o.build d).opcode = o := by cases o <;> rfl

theorem Opcode.code_injective : Function.Injective Opcode.code := by
  intro o o' h
  exact Option.some.inj (o.ofCode_code.symm.trans ((congrArg Opcode.ofCode h).trans o'.ofCode_code))

/-! ### The encoder (R60, R62) -/

theorem toNat_operandField {v : Nat} (h : fitsOperand v = true) : (operandField v).toNat = v := by
  rw [operandField, BitVec.toNat_ofNat, Nat.mod_eq_of_lt (of_decide_eq_true h)]

theorem fitsOperand_toNat (w : Word) : fitsOperand w.toNat = true := decide_eq_true w.isLt

@[simp] theorem operandField_toNat (w : Word) : operandField w.toNat = w := BitVec.eq_of_toNat_eq (toNat_operandField (fitsOperand_toNat w))

theorem op_encode (i : Instr) : (encode i).op = i.opcode.code := by cases i <;> exact Desc.op_pack ..

/-- The encoder leaves FLAGS and every operand that must be zero at zero (R62, R65). -/
theorem reservedSet_encode (i : Instr) : i.opcode.reservedSet (encode i) = false := by
  cases i <;> simp [Instr.opcode, Opcode.reservedSet, encode]

/-- The operand fields hold the operands (R61). -/
theorem build_encode {i : Instr} (h : i.wf = true) : i.opcode.build (encode i) = i := by
  cases i <;> simp only [Instr.wf, Bool.and_eq_true] at h <;>
    simp [Instr.opcode, Opcode.build, encode, toNat_operandField, h]

theorem decode_encode {i : Instr} (h : i.wf = true) : decode (encode i) = .legal i :=
  decode_eq_legal_iff.2 ⟨i.opcode, op_encode i, reservedSet_encode i, build_encode h⟩

theorem wf_build (o : Opcode) (d : Desc) : (o.build d).wf = true := by
  cases o <;> simp [Opcode.build, Instr.wf, fitsOperand_toNat]

/-- With no reserved field set, the command built of a descriptor's operands is encoded as that descriptor. -/
theorem encode_build {o : Opcode} {d : Desc} (hop : d.op = o.code) (hres : o.reservedSet d = false) : encode (o.build d) = d := by
  conv_rhs => rw [← d.pack_fields, hop]
  cases o <;> simp [Opcode.reservedSet] at hres <;> simp [Opcode.build, encode, Instr.opcode, hres]

/-! ### The rows of the opcode table (R66) -/

/-- The fields a row of the table fixes: OP, FLAGS and the operands that must be zero (R62). -/
def Opcode.fixedMask : Opcode → Desc
  | .split | .wsplit => Desc.pack (.allOnes 8) (.allOnes 8) 0 0 0
  | .combine | .genpt | .wcomb => Desc.pack (.allOnes 8) (.allOnes 8) (.allOnes 16) 0 (.allOnes 16)
  | .peval => Desc.pack (.allOnes 8) (.allOnes 8) 0 (.allOnes 16) 0

theorem row_of_mem_opcodeTable :
    ∀ row ∈ opcodeTable, row.mask = row.op.fixedMask ∧ row.bits = Desc.pack row.op.code 0 0 0 0 := by decide

theorem and_fixedMask_eq_iff {d : Desc} {o : Opcode} :
    d &&& o.fixedMask = Desc.pack o.code 0 0 0 0 ↔ d.op = o.code ∧ o.reservedSet d = false := by
  rw [← Bool.not_eq_true, Opcode.reservedSet_iff]
  conv_lhs => rw [← d.pack_fields]
  cases o <;> simp only [Opcode.fixedMask, Desc.pack_and, Desc.pack_inj, BitVec.and_allOnes] <;> simp

/-- A descriptor matches a row exactly when it has the row's opcode and no reserved field set. -/
theorem and_mask_eq_bits_iff {d : Desc} {row : TableRow} (h : row ∈ opcodeTable) :
    d &&& row.mask = row.bits ↔ d.op = row.op.code ∧ row.op.reservedSet d = false := by
  obtain ⟨hmask, hbits⟩ := row_of_mem_opcodeTable row h
  rw [hmask, hbits, and_fixedMask_eq_iff]

/-- Every operation has a row. -/
theorem exists_row_of_opcode (o : Opcode) : ∃ row ∈ opcodeTable, row.op = o := by
  cases o <;> decide

theorem mem_opcodeTable_codes {v : Byte} : v ∈ opcodeTable.map (fun row => row.op.code) ↔ ∃ o : Opcode, v = o.code := by
  rw [List.mem_map]
  constructor
  · rintro ⟨row, -, rfl⟩
    exact ⟨row.op, rfl⟩
  · rintro ⟨o, rfl⟩
    obtain ⟨row, hrow, rfl⟩ := exists_row_of_opcode o
    exact ⟨row, hrow, rfl⟩

end Sys2Proof
end

section
/-! CERTIFICATE. The encoding of 30_encoding.md: decoder and encoder, and the opcode table. -/

namespace Sys2Proof

/-- Settles O1: the encoder sets no reserved field, and each operand field holds its operand. -/
theorem decodeOfEncode : Obligations.DecodeOfEncode := by
  unfold Obligations.DecodeOfEncode
  exact fun i h => decode_encode h

/-- Settles O2: a legal descriptor is its opcode with its operand fields, the others being zero. -/
theorem encodeOfDecode : Obligations.EncodeOfDecode := by
  unfold Obligations.EncodeOfDecode
  intro d i h
  obtain ⟨o, hop, hres, rfl⟩ := decode_eq_legal_iff.1 h
  exact ⟨wf_build o d, encode_build hop hres⟩

/-- Settles O3: a row fixes the opcode, and at zero the fields that the reserved-field check looks at. -/
theorem descriptorMatchesTableRow : Obligations.DescriptorMatchesTableRow := by
  unfold Obligations.DescriptorMatchesTableRow
  intro d
  refine ⟨fun row hrow => ?legal, ?reserved, ?opcode⟩
  case legal =>
    rw [and_mask_eq_bits_iff hrow]
    constructor
    · rintro ⟨hop, hres⟩
      exact ⟨_, decode_eq_legal_iff.2 ⟨row.op, hop, hres, rfl⟩, row.op.opcode_build d⟩
    · rintro ⟨i, hi, hrow⟩
      obtain ⟨o, hop, hres, rfl⟩ := decode_eq_legal_iff.1 hi
      rw [Opcode.opcode_build] at hrow
      exact hrow ▸ ⟨hop, hres⟩
  case reserved =>
    rw [decode_eq_reserved_iff, mem_opcodeTable_codes]
    constructor
    · rintro ⟨o, hop, hres⟩
      refine ⟨⟨o, hop⟩, fun row hrow hmatch => ?_⟩
      obtain ⟨hop', hres'⟩ := (and_mask_eq_bits_iff hrow).1 hmatch
      obtain rfl := Opcode.code_injective (hop.symm.trans hop')
      rw [hres] at hres'
      cases hres'
    · rintro ⟨⟨o, hop⟩, hrows⟩
      obtain ⟨row, hrow, rfl⟩ := exists_row_of_opcode o
      refine ⟨row.op, hop, ?_⟩
      by_contra hres
      exact hrows row hrow ((and_mask_eq_bits_iff hrow).2 ⟨hop, Bool.eq_false_iff.2 hres⟩)
  case opcode =>
    rw [decode_eq_opcode_iff, mem_opcodeTable_codes, not_exists]

/-- Settles O4: each word is decoded by evaluation. -/
theorem sampleDescriptorsDecode : Obligations.SampleDescriptorsDecode := by
  unfold Obligations.SampleDescriptorsDecode
  decide

end Sys2Proof
end

section
/-! SUPPORT. The invariant of the block, part by part: which fields each part looks at, and that START, CLEAR, every host access,
reset and the environment keep it (10_state.md R17, R18, R20, R22 to R24). -/

namespace Sys2Proof.Machine

variable {s t : State}

/-! ### Each part looks at a few fields -/

theorem State.StatusOk.congr (h : s.StatusOk) (hstate : t.state = s.state) (herr : t.err = s.err)
    (hinfo : t.errInfo = s.errInfo) : t.StatusOk :=
  ⟨by rw [hstate, herr]; exact h.err_iff, by rw [herr, hinfo]; exact h.info_zero,
    by rw [hstate, herr, hinfo]; exact h.pair⟩

theorem State.OutputOk.congr (h : s.OutputOk) (hstate : t.state = s.state) (hparams : t.params = s.params)
    (hlen : t.outLen = s.outLen) (hout : t.out = s.out) : t.OutputOk :=
  ⟨by rw [hlen, hout]; exact h.len, by rw [hparams, hout]; exact h.cap, by rw [hstate, hout]; exact h.empty⟩

theorem State.BuffersOk.congr (h : s.BuffersOk) (hparams : t.params = s.params) (hin : t.inBuf = s.inBuf)
    (hslen : t.slen = s.slen) : t.BuffersOk :=
  ⟨by rw [hin]; exact h.in_wf, by rw [hparams, hin]; exact h.in_within, by rw [hslen]; exact h.slen_wf,
    by rw [hparams, hslen]; exact h.slen_within⟩

/-- Without an error STATUS is right wherever the block is not in ERROR. -/
theorem State.StatusOk.of_no_error (hstate : t.state ≠ .error) (herr : t.err = .none) (hinfo : t.errInfo = 0) :
    t.StatusOk :=
  ⟨by simp [herr, hstate], fun _ => hinfo, fun h => absurd h hstate⟩

theorem State.OutputOk.of_empty (hlen : t.outLen = 0) (hout : t.out = []) : t.OutputOk :=
  ⟨by simp [hlen, hout], by simp [hout], fun _ => hout⟩

/-- Outside BUSY the sequencer is right when it holds no command. -/
theorem State.SequencerOk.at_rest (hb : t.state ≠ .busy) (hpos : t.pos = .idle) (hcmd : t.cmd = none) : t.SequencerOk :=
  ⟨fun _ => ⟨hpos, hcmd⟩, fun h => absurd h hb, fun h => absurd h hb⟩

/-! ### The environment is no part of it (R27) -/

/-- The state with other turns to come, other answers ready and another reply. -/
def State.withEnvironment (s : State) (turns : List Turn) (as : List Answer) (r : Option Reply) : State :=
  { s with agenda := turns, answers := as, reply := r }

variable {turns : List Turn} {as : List Answer} {r : Option Reply}

theorem State.AtPoints.environment (h : s.AtPoints) : (s.withEnvironment turns as r).AtPoints := by
  obtain ⟨hpos, hp, hcmd⟩ := h
  exact ⟨hpos, ⟨hp.nodup, hp.nonzero, hp.seen⟩, hcmd⟩

theorem State.AtCoefs.environment (h : s.AtCoefs) : (s.withEnvironment turns as r).AtCoefs := by
  obtain ⟨hpos, hwsplit | ⟨t, n, len, hcmd, hok, hp, hrest⟩⟩ := h
  · exact ⟨hpos, .inl hwsplit⟩
  · exact ⟨hpos, .inr ⟨t, n, len, hcmd, hok, ⟨hp.nodup, hp.nonzero, hp.seen⟩, hrest⟩⟩

theorem State.Inv.environment (h : s.Inv) : (s.withEnvironment turns as r).Inv where
  capacity := h.capacity
  cfg_reserved := h.cfg_reserved
  status := h.status.congr rfl rfl rfl
  output := h.output.congr rfl rfl rfl rfl
  buffers := h.buffers.congr rfl rfl rfl
  sequencer :=
    ⟨h.sequencer.rest, h.sequencer.latched, fun hb =>
      (h.sequencer.place hb).imp_right (Or.imp State.AtPoints.environment State.AtCoefs.environment)⟩

/-! ### Host accesses -/

/-- CFG holds no reserved bit after a write (R15). -/
theorem cfgWritten_and_reserved (v : Reg) : cfgWritten v &&& 0xFFFFFFFC = 0 := by
  rw [cfgWritten, BitVec.and_assoc]
  exact BitVec.and_zero

theorem State.Inv.start (h : s.Inv) : s.start.Inv where
  capacity := h.capacity
  cfg_reserved := h.cfg_reserved
  status := .of_no_error nofun rfl rfl
  output := .of_empty rfl rfl
  buffers := h.buffers.congr rfl rfl rfl
  sequencer := ⟨fun hb => absurd rfl hb, fun _ => rfl, fun _ => .inl rfl⟩

theorem State.Inv.clear (h : s.Inv) : s.clear.Inv := by
  by_cases hend : s.state = .done ∨ s.state = .error
  · have hb : s.state ≠ .busy := by rcases hend with hs | hs <;> simp [hs]
    obtain ⟨hpos, hcmd⟩ := h.sequencer.rest hb
    rw [State.clear_of_ended hend]
    exact ⟨h.capacity, h.cfg_reserved, .of_no_error nofun rfl rfl, .of_empty rfl rfl, h.buffers.congr rfl rfl rfl,
      .at_rest nofun hpos hcmd⟩
  · rwa [State.clear, if_neg hend]

/-- A place of IN or SLEN lies inside its size (R41). -/
theorem placeOf_eq_inByte {p : Params} {offset width i : Nat} (h : placeOf p offset width = some (.inByte i)) :
    i < p.bufCap := by
  obtain ⟨-, hreg | ⟨j, -, -, hq⟩⟩ | ⟨-, ⟨j, hj, -, hq⟩ | ⟨j, -, -, hq⟩⟩ := placeOf_cases h
  · unfold regAt at hreg
    split at hreg <;> cases hreg
  · cases hq
  · cases hq
    exact hj
  · cases hq

theorem placeOf_eq_slen {p : Params} {offset width i : Nat} (h : placeOf p offset width = some (.slen i)) :
    i < p.nmax := by
  obtain ⟨-, hreg | ⟨j, hj, -, hq⟩⟩ | ⟨-, ⟨j, -, -, hq⟩ | ⟨j, -, -, hq⟩⟩ := placeOf_cases h
  · unfold regAt at hreg
    split at hreg <;> cases hreg
  · cases hq
    exact hj
  · cases hq
  · cases hq

/-- What a host writes outside BUSY to a register or buffer keeps all parts that do not speak of it. -/
theorem State.Inv.stored (h : s.Inv) (hb : s.state ≠ .busy) {cfg lo hi : Reg} {inBuf : List Host.Cell}
    {slen : List (Nat × Word)} (hcfg : cfg &&& 0xFFFFFFFC = 0)
    (hbuffers : State.BuffersOk { s with inBuf := inBuf, slen := slen }) :
    State.Inv { s with cfg := cfg, descLo := lo, descHi := hi, inBuf := inBuf, slen := slen } where
  capacity := h.capacity
  cfg_reserved := hcfg
  status := h.status.congr rfl rfl rfl
  output := h.output.congr rfl rfl rfl rfl
  buffers := hbuffers.congr rfl rfl rfl
  sequencer := .at_rest hb (h.sequencer.rest hb).1 (h.sequencer.rest hb).2

theorem State.Inv.writePlace (h : s.Inv) {offset width : Nat} {q : Place} (hq : placeOf s.params offset width = some q)
    (v : Reg) : (s.writePlace q v).Inv := by
  obtain hw | ⟨hb, ⟨-, hw⟩ | ⟨-, hw⟩ | ⟨-, hw⟩ | ⟨i, rfl, hw⟩ | ⟨i, rfl, hw⟩ | ⟨-, -, hw⟩ | ⟨-, -, -, -, hw⟩⟩ :=
    s.writePlace_cases q v <;> rw [hw]
  · exact h
  · exact h.stored hb (cfgWritten_and_reserved v) h.buffers
  · exact h.stored hb h.cfg_reserved h.buffers
  · exact h.stored hb h.cfg_reserved h.buffers
  · obtain ⟨hwf, hin, hswf, hsin⟩ := h.buffers
    exact h.stored hb h.cfg_reserved ⟨hwf, hin, Memory.wf_put hswf, Memory.within_put (placeOf_eq_slen hq) hsin⟩
  · obtain ⟨hwf, hin, hswf, hsin⟩ := h.buffers
    exact h.stored hb h.cfg_reserved ⟨Memory.wf_put hwf, Memory.within_put (placeOf_eq_inByte hq) hin, hswf, hsin⟩
  · exact h.start
  · exact h.clear

theorem State.Inv.hostAccess (h : s.Inv) (a : Access) : (s.hostAccess a).Inv := by
  obtain ⟨r, ha⟩ | ⟨offset, width, v, q, -, hq, ha⟩ := s.hostAccess_cases a <;> rw [ha]
  · exact h.environment
  · exact (h.writePlace hq v).environment

/-! ### Reset (R29) -/

theorem inv_resetOf {p : Params} (h : p.CapacityOk) (e : Nat) : (State.resetOf p e).Inv where
  capacity := h
  cfg_reserved := BitVec.zero_and
  status := .of_no_error nofun rfl rfl
  output := .of_empty rfl rfl
  buffers := ⟨rfl, rfl, rfl, rfl⟩
  sequencer := .at_rest nofun rfl rfl

theorem State.Inv.applyReset (h : s.Inv) : s.applyReset.Inv := (inv_resetOf h.capacity (s.epoch + 1)).environment

end Sys2Proof.Machine
end


section
/-! SUPPORT. All that WCOMB and COMBINE can do once their validation is passed (43_wcomb.md R131; 44_split_combine.md R152 to
R154): they complete, or end in SINGULAR. -/

namespace Sys2Proof.Machine

/-- WCOMB solves its system and outputs one word, or ends in SINGULAR; only XV and MAT are written. -/
theorem wcombRun_cases (s : State) (k : Nat) :
    ∃ m, (∃ w, s.wcombRun k = State.complete { s with xv := s.pairXs k, mat := m } (w2b w s.bo)) ∨
      s.wcombRun k = State.raise { s with xv := s.pairXs k, mat := m } .singular := by
  cases hword : wordCombine s.field (s.pairXs k) (s.pairYs k) with
  | solved w m => exact ⟨m, .inl ⟨w, by rw [State.wcombRun, hword]⟩⟩
  | singular m => exact ⟨m, .inr (by rw [State.wcombRun, hword])⟩

/-- COMBINE recovers a word from every column and outputs them, or ends in SINGULAR; only SW and MAT are written. -/
theorem combineColumns_cases (cols : List (List Word)) (s : State) :
    ∃ ws m, (ws.length = cols.length ∧
        State.combineColumns cols s = State.complete { s with sw := s.sw ++ ws, mat := m } (wordsToBytes s.bo (s.sw ++ ws))) ∨
      State.combineColumns cols s = State.raise { s with sw := s.sw ++ ws, mat := m } .singular := by
  induction cols generalizing s with
  | nil => exact ⟨[], s.mat, .inl ⟨rfl, by rw [combineColumns_nil, List.append_nil]⟩⟩
  | cons ys rest ih =>
    cases hword : wordCombine s.field s.xv ys with
    | solved w m =>
      obtain ⟨ws, m', hcases⟩ := ih { s with sw := s.sw ++ [w], mat := m }
      refine ⟨w :: ws, m', ?_⟩
      rw [combineColumns_cons, hword, List.append_cons, List.length_cons, List.length_cons, Nat.succ_inj]
      exact hcases
    | singular m => exact ⟨[], m, .inr (by rw [combineColumns_cons, hword, List.append_nil])⟩

end Sys2Proof.Machine
end

section
/-! SUPPORT. Where a command that meets the invariant leaves the block (60_exceptions.md R171, R176; 40_field_and_random.md R91):
ended, with an output that fits OUT, or at a draw of a command that passed its validation. -/

namespace Sys2Proof.Machine

/-- How a BUSY state that meets the invariant may be left by the sequencer. -/
inductive Lands (s t : State) : Prop where
  | completed (bytes : List Byte) (h : Completed s t bytes) (hcap : bytes.length ≤ s.params.bufCap)
  | raised (e : Err) (h : Raised s t e)
  | waiting (h : Quiet s t) (hplace : t.AtPoints ∨ t.AtCoefs)

section
variable {s u t : State}

/-- A quiet beginning does not change where a command lands. -/
theorem Quiet.lands (h : Quiet s u) (h' : Lands u t) : Lands s t := by
  cases h' with
  | completed b h' hcap =>
    exact .completed b { h' with
      err := h'.err.trans h.err, errInfo := h'.errInfo.trans h.errInfo, keeps := h.keeps.trans h'.keeps }
      (h.keeps.params ▸ hcap)
  | raised e h' => exact .raised e { h' with keeps := h.keeps.trans h'.keeps }
  | waiting h' hplace => exact .waiting (h.trans h') hplace

theorem State.raise_lands (s : State) (e : Err) : Lands s (s.raise e) := .raised e ((Quiet.refl s).raised e)

theorem State.complete_lands (s : State) {b : List Byte} (hcap : b.length ≤ s.params.bufCap) : Lands s (s.complete b) :=
  .completed b ((Quiet.refl s).completed b) hcap

theorem State.Inv.err_none_of_busy (h : s.Inv) (hb : s.state = .busy) : s.err = .none := by
  by_contra hne
  cases hb.symm.trans (h.status.err_iff.1 hne)

/-- Wherever a command lands, the invariant holds again. -/
theorem State.Inv.lands (h : s.Inv) (hb : s.state = .busy) (hl : Lands s t) : t.Inv := by
  have herr := h.err_none_of_busy hb
  cases hl with
  | completed b hc hcap =>
    obtain ⟨hparams, hcfg, -, -, hslen, hin, -⟩ := hc.keeps
    have hle := hcap.trans (Params.CapacityOk.bufCap_le h.capacity)
    refine ⟨hparams ▸ h.capacity, hcfg ▸ h.cfg_reserved, ?status, ⟨?len, ?cap, ?empty⟩, h.buffers.congr hparams hin hslen,
      .at_rest (by simp [hc.state]) hc.pos hc.cmd⟩
    case status =>
      exact .of_no_error (by simp [hc.state]) (hc.err.trans herr) (hc.errInfo.trans (h.status.info_zero herr))
    case len => rw [hc.outLen, hc.out, BitVec.toNat_ofNat, Nat.mod_eq_of_lt (by omega)]
    case cap => rwa [hc.out, hparams]
    case empty => exact fun hne => absurd hc.state hne
  | raised e hr =>
    obtain ⟨hparams, hcfg, -, -, hslen, hin, -⟩ := hr.keeps
    have hcls : e.cls ≠ .none := by cases e <;> nofun
    refine ⟨hparams ▸ h.capacity, hcfg ▸ h.cfg_reserved, ⟨?iff, ?zero, ?pair⟩, .of_empty hr.outLen hr.out,
      h.buffers.congr hparams hin hslen, .at_rest (by simp [hr.state]) hr.pos hr.cmd⟩
    case iff => exact iff_of_true (hr.err ▸ hcls) hr.state
    case zero => exact fun hnone => absurd (hr.err.symm.trans hnone) hcls
    case pair => exact fun _ => ⟨e, hr.err, hr.errInfo⟩
  | waiting hq hplace =>
    have hb' : t.state = .busy := hq.state.trans hb
    have hlatched : t.cmd = some (decode t.desc) := by rw [hq.cmd, hq.keeps.desc, h.sequencer.latched hb]
    obtain ⟨hparams, hcfg, -, -, hslen, hin, -⟩ := hq.keeps
    exact ⟨hparams ▸ h.capacity, hcfg ▸ h.cfg_reserved, h.status.congr hq.state hq.err hq.errInfo,
      h.output.congr hq.state hparams hq.outLen hq.out, h.buffers.congr hparams hin hslen,
      ⟨fun hne => absurd hb' hne, fun _ => hlatched, fun _ => .inr hplace⟩⟩

end

/-! ### Phases -/

/-- The phase is done in a state that satisfies `R`, or ended at an error answer, or waits at a draw. -/
inductive Phase.Reaches (R : State → Prop) : Phase → Prop where
  | ready {u : State} (h : R u) : Phase.Reaches R (.ready u)
  | failed {u : State} : Phase.Reaches R (.failed u)
  | waiting {u : State} (hplace : u.AtPoints ∨ u.AtCoefs) : Phase.Reaches R (.waiting u)

theorem Phase.Reaches.bind {R R' : State → Prop} {p : Phase} {next : State → Phase} (hp : p.Reaches R)
    (hn : ∀ u, R u → (next u).Reaches R') : (p.bind next).Reaches R' := by
  cases hp with
  | ready h => exact hn _ h
  | failed => exact .failed
  | waiting hplace => exact .waiting hplace

theorem Phase.Reaches.lands {R : State → Prop} {s : State} {p : Phase} {next : State → State} (hp : p.Reaches R)
    (hq : Quiet s p.state) (hn : ∀ u, R u → Lands u (next u)) : Lands s (p.andThen next) := by
  cases hp with
  | ready h => exact hq.lands (hn _ h)
  | failed => exact hq.lands (State.raise_lands _ .rng)
  | waiting hplace => exact .waiting hq hplace

/-! ### Capacity (R6) -/

theorem two_mul_le_bufCap {p : Params} (h : p.CapacityOk) {n : Nat} (hn : n ≤ p.nmax) :
    2 * n ≤ p.bufCap := by
  rw [Nat.mul_comm]
  exact Nat.mul_le_mul hn (by omega)

theorem two_mul_words_le_bufCap {p : Params} (h : p.CapacityOk) {m : Nat} (hm : m ≤ p.mmax) :
    2 * m ≤ p.bufCap := by
  obtain ⟨hn, -⟩ := h
  calc 2 * m ≤ 1 * (2 * p.mmax + 2) := by omega
    _ ≤ p.bufCap := Nat.mul_le_mul_right _ hn

theorem word_le_bufCap {p : Params} (h : p.CapacityOk) (w : Word) (bo : Bool) :
    (w2b w bo).length ≤ p.bufCap := by
  rw [length_w2b]
  exact two_mul_le_bufCap h h.1

/-! ### GENPT -/

/-- The generator reaches `n` points, or waits at a draw with some of them missing. -/
theorem collectPoints_cases_of_pointsOk {s : State} {n : Nat} (hp : s.PointsOk) (hlen : s.xv.length ≤ n) :
    ∃ xv seen rest, PointsPair (xv, seen) ∧
      ((s.collectPoints n = .ready { s with xv := xv, seen := seen, answers := rest } ∧ xv.length = n) ∨
       s.collectPoints n = .failed { s with xv := xv, seen := seen, answers := rest } ∨
       (s.collectPoints n = .waiting { s with xv := xv, seen := seen, answers := [], pos := .points } ∧ xv.length < n)) := by
  obtain ⟨xv, seen, rest, hpair, -, hle, hcases⟩ := collectPoints_cases s n
  refine ⟨xv, seen, rest, hpair ⟨hp.nodup, hp.nonzero, hp.seen⟩, ?_⟩
  obtain ⟨hr, hge⟩ | ⟨hr, -⟩ | ⟨hr, hlt, -⟩ := hcases
  · exact .inl ⟨hr, (hle hlen).antisymm hge⟩
  · exact .inr (.inl hr)
  · exact .inr (.inr ⟨hr, hlt⟩)

theorem beginPoints_pointsOk (s : State) : s.beginPoints.PointsOk := ⟨List.nodup_nil, List.not_mem_nil, fun _ => Iff.rfl⟩

theorem genptRun_lands {s : State} {n : Nat} (hc : s.params.CapacityOk) (hcmd : s.cmd = some (.legal (.genpt n)))
    (hok : genptError s.params n = none) (hp : s.PointsOk) (hlen : s.xv.length ≤ n) : Lands s (s.genptRun n) := by
  have hreach : (s.collectPoints n).Reaches fun u => u.params = s.params ∧ u.xv.length = n := by
    obtain ⟨xv, seen, rest, ⟨hnodup, hnonzero, hseen⟩, ⟨hr, hn⟩ | hr | ⟨hr, hlt⟩⟩ :=
      collectPoints_cases_of_pointsOk hp hlen <;> rw [hr]
    · exact .ready ⟨rfl, hn⟩
    · exact .failed
    · exact .waiting (.inl ⟨rfl, ⟨hnodup, hnonzero, hseen⟩, .inl ⟨n, hcmd, hok, hlt⟩⟩)
  refine hreach.lands (collectPoints_quiet s n) fun u ⟨hparams, hn⟩ => u.complete_lands ?_
  rw [length_wordsToBytes, hn, hparams]
  exact two_mul_le_bufCap hc (genptError_eq_none.1 hok).2

/-! ### WSPLIT -/

theorem wsplitRun_lands {s : State} {t n : Nat} {w : Word} (hc : s.params.CapacityOk)
    (hcmd : s.cmd = some (.legal (.wsplit t n w))) (hok : wsplitError s.params t n = none) (hxv : s.xv.length = n) :
    Lands s (s.wsplitRun t) := by
  have hreach : (s.collectCoefs t).Reaches fun u => u.params = s.params ∧ u.xv.length = n := by
    obtain ⟨vs, rest, -, ⟨hr, -⟩ | ⟨hr, -⟩ | ⟨hr, hlt⟩⟩ := collectCoefs_cases s t <;> rw [hr]
    · exact .ready ⟨rfl, hxv⟩
    · exact .failed
    · exact .waiting (.inr ⟨rfl, .inl ⟨t, n, w, hcmd, hok, hxv, by rwa [List.length_append]⟩⟩)
  refine hreach.lands (collectCoefs_quiet s t) fun u ⟨hparams, hn⟩ => u.complete_lands ?_
  rw [length_wordsToBytes, State.yValues, List.length_map, hn, hparams]
  obtain ⟨-, -, -, hcap⟩ := wsplitError_eq_none.1 hok
  exact two_mul_le_bufCap hc hcap

/-! ### SPLIT -/

/-- A SPLIT that passed its validation, its points complete, with `rows` words split (44_split_combine.md R143, R144). -/
structure Splitting (t n len rows : Nat) (s : State) : Prop where
  cmd : s.cmd = some (.legal (.split t n len))
  ok : splitError s.params t n len = none
  points : s.PointsOk
  count : s.xv.length = n
  words : s.sw.length = len / 2
  rows : s.yv.length = rows
  width : ∀ row ∈ s.yv, row.length = n

section
variable {t n len rows : Nat} {s : State}

/-- Splitting one more word adds a row, or waits at a draw of one of its coefficients. -/
theorem Splitting.splitWord (h : Splitting t n len rows s) (hrows : rows < len / 2) :
    (s.splitWord t).Reaches (Splitting t n len (rows + 1)) := by
  have hcoefs : (s.collectCoefs t).Reaches (Splitting t n len rows) := by
    obtain ⟨hcmd, hok, hp, hcount, hwords, rfl, hwidth⟩ := h
    obtain ⟨vs, rest, -, ⟨hr, -⟩ | ⟨hr, -⟩ | ⟨hr, hlt⟩⟩ := collectCoefs_cases s t <;> rw [hr]
    · exact .ready ⟨hcmd, hok, ⟨hp.nodup, hp.nonzero, hp.seen⟩, hcount, hwords, rfl, hwidth⟩
    · exact .failed
    · exact .waiting (.inr ⟨rfl, .inr ⟨t, n, len, hcmd, hok, ⟨hp.nodup, hp.nonzero, hp.seen⟩, hcount, hwords, hrows, hwidth,
        by rwa [List.length_append]⟩⟩)
  refine hcoefs.bind fun u hu => .ready ?_
  obtain ⟨hcmd, hok, hp, hcount, hwords, rfl, hwidth⟩ := hu
  refine ⟨hcmd, hok, ⟨hp.nodup, hp.nonzero, hp.seen⟩, hcount, hwords, List.length_append, fun row hrow => ?_⟩
  obtain hold | hnew := List.mem_append.1 hrow
  · exact hwidth row hold
  · rw [List.mem_singleton.1 hnew, State.yValues, List.length_map, hcount]

theorem Splitting.beginWord (h : Splitting t n len rows s) (w : Word) : Splitting t n len rows (s.beginWord w) :=
  ⟨h.cmd, h.ok, ⟨h.points.nodup, h.points.nonzero, h.points.seen⟩, h.count, h.words, h.rows, h.width⟩

theorem Splitting.splitWords {ws : List Word} (h : Splitting t n len rows s) (hws : rows + ws.length = len / 2) :
    (State.splitWords t ws s).Reaches (Splitting t n len (len / 2)) := by
  induction ws generalizing s rows with
  | nil => exact .ready (by rwa [← hws])
  | cons w ws ih =>
    rw [List.length_cons] at hws
    exact ((h.beginWord w).splitWord (by omega)).bind fun u hu => ih hu (by omega)

theorem Splitting.splitFinish (h : Splitting t n len (len / 2) s) : Lands s s.splitFinish := by
  refine s.complete_lands ?_
  obtain ⟨-, -, -, -, -, hn, hm⟩ := splitError_eq_none.1 h.ok
  rw [length_sharesBytes, h.count, h.rows]
  exact Nat.mul_le_mul hn (by omega)

theorem splitFromPoints_lands (hcmd : s.cmd = some (.legal (.split t n len))) (hok : splitError s.params t n len = none)
    (hp : s.PointsOk) (hlen : s.xv.length ≤ n) (hsw : s.sw.length = len / 2) : Lands s (s.splitFromPoints t n) := by
  have hpoints : (s.collectPoints n).Reaches fun u => Splitting t n len 0 { u with yv := [] } := by
    obtain ⟨xv, seen, rest, ⟨hnodup, hnonzero, hseen⟩, ⟨hr, hn⟩ | hr | ⟨hr, hlt⟩⟩ :=
      collectPoints_cases_of_pointsOk hp hlen <;> rw [hr]
    · exact .ready ⟨hcmd, hok, ⟨hnodup, hnonzero, hseen⟩, hn, hsw, rfl, nofun⟩
    · exact .failed
    · exact .waiting (.inl ⟨rfl, ⟨hnodup, hnonzero, hseen⟩, .inr ⟨t, n, len, hcmd, hok, hlt, hsw⟩⟩)
  have hwords := hpoints.bind fun u hu => hu.splitWords ((Nat.zero_add _).trans hu.words)
  exact hwords.lands
    (Phase.bind_quiet (collectPoints_quiet s n) fun u => (quiet_of_scratch u).trans (splitWords_quiet t _ _))
    fun u hu => hu.splitFinish

theorem splitFromCoefs_lands (h : Splitting t n len rows s) (hrows : rows < len / 2) : Lands s (s.splitFromCoefs t) := by
  have hwords := (h.splitWord hrows).bind fun u hu =>
    hu.splitWords (ws := u.sw.drop u.yv.length) (by rw [List.length_drop, hu.words, hu.rows]; omega)
  exact hwords.lands (Phase.bind_quiet (splitWord_quiet s t) fun _ => splitWords_quiet t _ _) fun u hu => hu.splitFinish

end

/-! ### WCOMB and COMBINE -/

theorem wcombRun_lands {s : State} (hc : s.params.CapacityOk) (k : Nat) : Lands s (s.wcombRun k) := by
  obtain ⟨m, ⟨w, hr⟩ | hr⟩ := wcombRun_cases s k <;> rw [hr]
  · exact (quiet_of_scratch s).lands (State.complete_lands _ (word_le_bufCap hc w s.bo))
  · exact (quiet_of_scratch s).lands (State.raise_lands _ .singular)

theorem combineRun_lands {s : State} {k : Nat} (hc : s.params.CapacityOk) (hwords : s.shareWords ≤ s.params.mmax) :
    Lands s (s.combineRun k) := by
  refine (quiet_of_scratch s : Quiet s (s.parseShares k)).lands ?_
  obtain ⟨ws, m, ⟨hlen, hr⟩ | hr⟩ := combineColumns_cases (s.parseShares k).yv (s.parseShares k) <;>
    rw [State.combineRun, hr]
  · refine (quiet_of_scratch _).lands (State.complete_lands _ ?_)
    rw [length_wordsToBytes, State.parseShares_sw, List.nil_append, hlen, State.parseShares_yv, List.length_map,
      List.length_range]
    exact two_mul_words_le_bufCap hc hwords
  · exact (quiet_of_scratch _).lands (State.raise_lands _ .singular)

/-! ### The commands -/

/-- A command that validates first either raises what its validation found, or runs (R175). -/
theorem lands_of_validation {s run : State} (v : Option Err) :
    (v = none → Lands s run) →
      Lands s (match v with
        | some e => s.raise e
        | none => run) := by
  intro h
  cases v with
  | some e => exact s.raise_lands e
  | none => exact h rfl

/-- From its beginning every command lands. -/
theorem exec_start_lands {i : Instr} {s : State} (hc : s.params.CapacityOk) (hpos : s.pos = .start)
    (hcmd : s.cmd = some (.legal i)) : ∃ t, exec i s = .next t ∧ Lands s t := by
  cases i with
  | split t n len =>
    cases hok : splitError s.params t n len with
    | some e =>
      obtain ⟨u, hu, hr, -⟩ := execSplit_of_splitError hpos hok
      exact ⟨u, hu, .raised e hr⟩
    | none =>
      have hrun := splitFromPoints_lands (s := State.beginPoints { s with sw := s.secretWords (len / 2) }) hcmd hok
        (beginPoints_pointsOk _) (Nat.zero_le n) (length_readWords ..)
      exact ⟨_, execSplit_start hpos hok, (quiet_of_scratch s).lands hrun⟩
  | combine k =>
    refine ⟨_, rfl, lands_of_validation _ fun hok => ?_⟩
    obtain ⟨-, -, -, -, -, hwords⟩ := combineError_eq_none.1 hok
    exact combineRun_lands hc hwords
  | genpt n =>
    rw [exec, execGenpt, if_neg (by simp [hpos])]
    exact ⟨_, rfl, lands_of_validation _ fun hok => (quiet_of_scratch s).lands
      (genptRun_lands (s := s.beginPoints) hc hcmd hok (beginPoints_pointsOk s) (Nat.zero_le n))⟩
  | wsplit t n w =>
    rw [exec, execWsplit, if_neg (by simp [hpos])]
    exact ⟨_, rfl, lands_of_validation _ fun hok => (quiet_of_scratch s).lands
      (wsplitRun_lands (s := State.beginWord { s with xv := s.pointXs n } w) hc hcmd hok (length_readWords ..))⟩
  | wcomb k => exact ⟨_, rfl, lands_of_validation _ fun _ => wcombRun_lands hc k⟩
  | peval t x =>
    exact ⟨_, rfl, lands_of_validation _ fun _ =>
      (quiet_of_scratch s).lands (State.complete_lands _ (word_le_bufCap hc _ s.bo))⟩

/-- A command that waited at a draw of the generator lands. -/
theorem State.AtPoints.coreTurn_lands {s t : State} (h : s.AtPoints) (hc : s.params.CapacityOk) (hb : s.state = .busy)
    (ht : coreTurn s = .next t) : Lands s t := by
  obtain ⟨hpos, hp, ⟨n, hcmd, hok, hlen⟩ | ⟨t', n, len, hcmd, hok, hlen, hsw⟩⟩ := h <;> rw [coreTurn, if_pos hb, hcmd] at ht
  · change execGenpt n s = _ at ht
    rw [execGenpt, if_pos hpos] at ht
    cases ht
    exact genptRun_lands hc hcmd hok hp hlen.le
  · change execSplit t' n len s = _ at ht
    rw [execSplit, if_pos hpos] at ht
    cases ht
    exact splitFromPoints_lands hcmd hok hp hlen.le hsw

/-- A command that waited at a draw of a coefficient lands. -/
theorem State.AtCoefs.coreTurn_lands {s t : State} (h : s.AtCoefs) (hc : s.params.CapacityOk) (hb : s.state = .busy)
    (ht : coreTurn s = .next t) : Lands s t := by
  obtain ⟨hpos, ⟨t', n, w, hcmd, hok, hxv, -⟩ | ⟨t', n, len, hcmd, hok, hp, hn, hsw, hyv, hwidth, -⟩⟩ := h <;>
    rw [coreTurn, if_pos hb, hcmd] at ht
  · change execWsplit t' n w s = _ at ht
    rw [execWsplit, if_pos hpos] at ht
    cases ht
    exact wsplitRun_lands hc hcmd hok hxv
  · change execSplit t' n len s = _ at ht
    rw [execSplit, if_neg (by simp [hpos]), if_pos hpos] at ht
    cases ht
    exact splitFromCoefs_lands ⟨hcmd, hok, hp, hn, hsw, rfl, hwidth⟩ hyv

/-- A turn of the sequencer keeps the invariant. -/
theorem State.Inv.coreTurn {s t : State} (h : s.Inv) (ht : coreTurn s = .next t) : t.Inv := by
  by_cases hb : s.state = .busy
  · refine h.lands hb ?_
    obtain hpos | hpoints | hcoefs := h.sequencer.place hb
    · have hcmd := h.sequencer.latched hb
      cases hd : decode s.desc with
      | illegal why =>
        cases ht.symm.trans (coreTurn_illegal hb (hd ▸ hcmd))
        exact s.raise_lands _
      | legal i =>
        rw [hd] at hcmd
        obtain ⟨u, hu, hl⟩ := exec_start_lands h.capacity hpos hcmd
        rw [Machine.coreTurn, if_pos hb, hcmd] at ht
        cases ht.symm.trans hu
        exact hl
    · exact hpoints.coreTurn_lands h.capacity hb ht
    · exact hcoefs.coreTurn_lands h.capacity hb ht
  · cases ht.symm.trans (coreTurn_of_not_busy hb)
    exact h

end Sys2Proof.Machine
end

section
/-! CERTIFICATE. The invariant of the block (10_state.md sections 4, 5, 7 and 8): it holds at reset and every step keeps it. -/

namespace Sys2Proof.Machine

/-- Settles O26: one case for each kind of turn a step can take. -/
theorem stepKeepsInvariant : Obligations.StepKeepsInvariant := by
  unfold Obligations.StepKeepsInvariant
  intro s t h hstep
  obtain ⟨rest, -, hturn⟩ | ⟨a, rest, -, rfl⟩ | ⟨rest, -, rfl⟩ | ⟨a, rest, -, rfl⟩ := step_cases hstep
  · exact State.Inv.coreTurn h.environment hturn
  · exact State.Inv.hostAccess h.environment a
  · exact State.Inv.applyReset h.environment
  · exact h.environment

/-- Settles O25: nothing is output or running, and the buffers are empty. -/
theorem invariantAtReset : Obligations.InvariantAtReset := by
  unfold Obligations.InvariantAtReset
  exact ⟨fun p e hp => inv_resetOf hp e, inv_resetOf (by decide) 0⟩

end Sys2Proof.Machine
end

section
/-! SUPPORT. How each command ends, whatever state it began in (60_exceptions.md R171, R174, R176, R177; 40_field_and_random.md
R91, R94): its validation finds an error, or it runs, drawing the first of the answers, and completes, or ends in RNG or SINGULAR,
or waits. -/

namespace Sys2Proof.Machine

section
variable {s u t : State} {i : Instr}

/-- How the part of the command `i` after its validation ends. -/
structure Runs (i : Instr) (s t : State) : Prop where
  way : (∃ bytes, Completed s t bytes) ∨
    (∃ e : Err, (e = .rng ∨ e = .singular) ∧ mayEndIn i.opcode e.cls = true ∧ Raised s t e) ∨
    (instrDraws i = true ∧ Waits s t)
  used : ∃ used, s.answers = used ++ t.answers
  undrawn : instrDraws i = false → t.answers = s.answers

/-- How the command `i` ends. -/
inductive Ends (i : Instr) (s t : State) : Prop where
  | rejected (e : Err) (hne : e ≠ .singular) (hmay : mayEndIn i.opcode e.cls = true) (h : t = s.raise e)
  | ran (h : Runs i s t)

/-- A quiet beginning without a draw does not change how the command runs. -/
theorem Runs.of_quiet (hr : Runs i u t) (h : Quiet s u) (hans : u.answers = s.answers) : Runs i s t := by
  obtain ⟨hway, hused, hundrawn⟩ := hr
  rw [hans] at hused hundrawn
  refine ⟨?_, hused, hundrawn⟩
  obtain ⟨b, hc⟩ | ⟨e, hrun, hmay, hr⟩ | ⟨hdraws, hw⟩ := hway
  · exact .inl ⟨b, { hc with
      err := hc.err.trans h.err, errInfo := hc.errInfo.trans h.errInfo, keeps := h.keeps.trans hc.keeps }⟩
  · exact .inr (.inl ⟨e, hrun, hmay, { hr with keeps := h.keeps.trans hr.keeps }⟩)
  · exact .inr (.inr ⟨hdraws, { hw with
      state := hw.state.trans h.state, err := hw.err.trans h.err, errInfo := hw.errInfo.trans h.errInfo,
      outLen := hw.outLen.trans h.outLen, out := hw.out.trans h.out, cmd := hw.cmd.trans h.cmd,
      keeps := h.keeps.trans hw.keeps }⟩)

theorem complete_runs (i : Instr) (s : State) (b : List Byte) : Runs i s (s.complete b) :=
  ⟨.inl ⟨b, (Quiet.refl s).completed b⟩, ⟨[], rfl⟩, fun _ => rfl⟩

theorem raise_singular_runs (s : State) (hmay : mayEndIn i.opcode .singular = true) : Runs i s (s.raise .singular) :=
  ⟨.inr (.inl ⟨.singular, .inr rfl, hmay, (Quiet.refl s).raised .singular⟩), ⟨[], rfl⟩, fun _ => rfl⟩

end

/-! ### Phases -/

/-- If the phase waits, it waits at a draw with no answer left. -/
inductive Phase.AtDraw : Phase → Prop where
  | ready (u : State) : Phase.AtDraw (.ready u)
  | failed (u : State) : Phase.AtDraw (.failed u)
  | waiting {u : State} (hpos : u.pos = .points ∨ u.pos = .coeffs) (hans : u.answers = []) : Phase.AtDraw (.waiting u)

theorem Phase.AtDraw.bind {p : Phase} {next : State → Phase} (hp : p.AtDraw) (hn : ∀ u, (next u).AtDraw) :
    (p.bind next).AtDraw := by
  cases hp with
  | ready u => exact hn u
  | failed u => exact .failed u
  | waiting hpos hans => exact .waiting hpos hans

theorem collectPoints_atDraw (s : State) (n : Nat) : (s.collectPoints n).AtDraw := by
  obtain ⟨xv, seen, rest, -, -, -, ⟨hr, -⟩ | ⟨hr, -⟩ | ⟨hr, -⟩⟩ := collectPoints_cases s n <;> rw [hr]
  exacts [.ready _, .failed _, .waiting (.inl rfl) rfl]

theorem collectCoefs_atDraw (s : State) (t : Nat) : (s.collectCoefs t).AtDraw := by
  obtain ⟨vs, rest, -, ⟨hr, -⟩ | ⟨hr, -⟩ | ⟨hr, -⟩⟩ := collectCoefs_cases s t <;> rw [hr]
  exacts [.ready _, .failed _, .waiting (.inr rfl) rfl]

theorem splitWord_atDraw (s : State) (t : Nat) : (s.splitWord t).AtDraw :=
  (collectCoefs_atDraw s t).bind fun _ => .ready _

theorem splitWords_atDraw (t : Nat) (ws : List Word) (s : State) : (State.splitWords t ws s).AtDraw := by
  induction ws generalizing s with
  | nil => exact .ready s
  | cons w ws ih => exact (splitWord_atDraw _ t).bind ih

/-- The commands that draw are those that may end in RNG (R174). -/
theorem mayEndIn_rng {i : Instr} (h : instrDraws i = true) : mayEndIn i.opcode .rng = true := by
  revert h
  cases i <;> simp [instrDraws, mayEndIn, Instr.opcode]

/-- A command that completes once its draws are done. -/
theorem Phase.Draws.runs {i : Instr} {s : State} {p : Phase} {next : State → State} (hi : instrDraws i = true)
    (hp : p.Draws s.answers) (hq : Quiet s p.state) (hw : p.AtDraw) (hn : ∀ u, ∃ b, next u = u.complete b) :
    Runs i s (p.andThen next) := by
  have hundrawn (t : State) : instrDraws i = false → t.answers = s.answers := fun h => by simp [hi] at h
  cases hp with
  | @ready u vs h =>
    obtain ⟨b, hb⟩ := hn u
    rw [Phase.andThen, hb]
    exact ⟨.inl ⟨b, hq.completed b⟩, ⟨_, h⟩, hundrawn _⟩
  | @failed u vs h =>
    exact ⟨.inr (.inl ⟨.rng, .inl rfl, mayEndIn_rng hi, hq.raised .rng⟩), ⟨_, h.trans (List.append_cons ..)⟩, hundrawn _⟩
  | @waiting u vs h =>
    obtain _ | _ | ⟨hpos, hans⟩ := hw
    exact ⟨.inr (.inr ⟨hi, hq.state, hq.err, hq.errInfo, hq.outLen, hq.out, hq.cmd, hpos, hans, hq.keeps⟩), ⟨_, h⟩,
      hundrawn _⟩

/-! ### The commands -/

theorem genptRun_runs (n : Nat) (s : State) : Runs (.genpt n) s (s.genptRun n) :=
  (collectPoints_draws s n).runs rfl (collectPoints_quiet s n) (collectPoints_atDraw s n) fun _ => ⟨_, rfl⟩

theorem wsplitRun_runs (t n : Nat) (w : Word) (s : State) : Runs (.wsplit t n w) s (s.wsplitRun t) :=
  (collectCoefs_draws s t).runs rfl (collectCoefs_quiet s t) (collectCoefs_atDraw s t) fun _ => ⟨_, rfl⟩

theorem splitFromPoints_runs (t n len : Nat) (s : State) : Runs (.split t n len) s (s.splitFromPoints t n) :=
  ((collectPoints_draws s n).bind fun u => splitWords_draws t u.sw { u with yv := [] }).runs rfl
    (Phase.bind_quiet (collectPoints_quiet s n) fun u => (quiet_of_scratch u).trans (splitWords_quiet t _ _))
    ((collectPoints_atDraw s n).bind fun _ => splitWords_atDraw t _ _) fun _ => ⟨_, rfl⟩

theorem splitFromCoefs_runs (t n len : Nat) (s : State) : Runs (.split t n len) s (s.splitFromCoefs t) :=
  ((splitWord_draws s t).bind fun u => splitWords_draws t (u.sw.drop u.yv.length) u).runs rfl
    (Phase.bind_quiet (splitWord_quiet s t) fun _ => splitWords_quiet t _ _)
    ((splitWord_atDraw s t).bind fun _ => splitWords_atDraw t _ _) fun _ => ⟨_, rfl⟩

theorem wcombRun_runs (k : Nat) (s : State) : Runs (.wcomb k) s (s.wcombRun k) := by
  obtain ⟨m, ⟨w, hr⟩ | hr⟩ := wcombRun_cases s k <;> rw [hr]
  · exact (complete_runs _ _ _).of_quiet (quiet_of_scratch s) rfl
  · exact (raise_singular_runs _ rfl).of_quiet (quiet_of_scratch s) rfl

theorem combineRun_runs (k : Nat) (s : State) : Runs (.combine k) s (s.combineRun k) := by
  refine Runs.of_quiet ?_ (quiet_of_scratch s : Quiet s (s.parseShares k)) rfl
  obtain ⟨ws, m, ⟨-, hr⟩ | hr⟩ := combineColumns_cases (s.parseShares k).yv (s.parseShares k) <;> rw [State.combineRun, hr]
  · exact (complete_runs _ _ _).of_quiet (quiet_of_scratch _) rfl
  · exact (raise_singular_runs _ rfl).of_quiet (quiet_of_scratch _) rfl

/-- A command that validates first either raises one of the errors its validation tests for, or runs (R175). -/
theorem ends_of_validation {i : Instr} {s run : State} {l : List (Bool × Err)}
    (hl : ∀ e ∈ l.map Prod.snd, e ≠ .singular ∧ mayEndIn i.opcode e.cls = true) (h : Runs i s run) :
    Ends i s (match firstError l with
      | some e => s.raise e
      | none => run) := by
  cases hv : firstError l with
  | some e =>
    obtain ⟨before, after, rfl, -⟩ := firstError_eq_some hv
    obtain ⟨hne, hmay⟩ := hl e (by simp)
    exact .rejected e hne hmay rfl
  | none => exact .ran h

/-- Every command answers a next state, and ends in one of the ways of its kind. -/
theorem exec_ends (i : Instr) (s : State) : ∃ t, exec i s = .next t ∧ Ends i s t := by
  cases i with
  | split t n len =>
    refine ⟨_, rfl, ?_⟩
    split
    · exact .ran (splitFromPoints_runs t n len s)
    · split
      · exact .ran (splitFromCoefs_runs t n len s)
      · exact ends_of_validation (by simp [mayEndIn, Instr.opcode, Err.cls])
          ((splitFromPoints_runs t n len _).of_quiet (quiet_of_scratch s) rfl)
  | combine k =>
    exact ⟨_, rfl, ends_of_validation (by simp [mayEndIn, Instr.opcode, Err.cls]) (combineRun_runs k s)⟩
  | genpt n =>
    refine ⟨_, rfl, ?_⟩
    split
    · exact .ran (genptRun_runs n s)
    · exact ends_of_validation (by simp [mayEndIn, Instr.opcode, Err.cls])
        ((genptRun_runs n _).of_quiet (quiet_of_scratch s) rfl)
  | wsplit t n w =>
    refine ⟨_, rfl, ?_⟩
    split
    · exact .ran (wsplitRun_runs t n w s)
    · exact ends_of_validation (by simp [mayEndIn, Instr.opcode, Err.cls])
        ((wsplitRun_runs t n w _).of_quiet (quiet_of_scratch s) rfl)
  | wcomb k => exact ⟨_, rfl, ends_of_validation (by simp [mayEndIn, Instr.opcode, Err.cls]) (wcombRun_runs k s)⟩
  | peval t x =>
    exact ⟨_, rfl, ends_of_validation (by simp [mayEndIn, Instr.opcode, Err.cls])
      ((complete_runs _ _ _).of_quiet (quiet_of_scratch s) rfl)⟩

/-- A command in ERROR was rejected by its validation, with the state as it was, or raised RNG or SINGULAR as it ran. -/
theorem Ends.error_cases {i : Instr} {s t : State} (h : Ends i s t) (hb : s.state = .busy) (he : t.state = .error) :
    (∃ e : Err, e ≠ .singular ∧ mayEndIn i.opcode e.cls = true ∧ t = s.raise e) ∨
    ∃ e : Err, (e = .rng ∨ e = .singular) ∧ mayEndIn i.opcode e.cls = true ∧ Raised s t e := by
  cases h with
  | rejected e hne hmay h => exact .inl ⟨e, hne, hmay, h⟩
  | ran h =>
    obtain ⟨b, hc⟩ | hr | ⟨-, hw⟩ := h.way
    · cases hc.state.symm.trans he
    · exact .inr hr
    · cases (hw.state.trans hb).symm.trans he

end Sys2Proof.Machine
end


section
/-! SUPPORT. WCOMB on pairs with two equal x-coordinates (43_wcomb.md R132), and what one pair too few combines to
(44_split_combine.md R158). -/

namespace Sys2Proof.Machine

/-! ### WCOMB -/

@[simp] theorem length_pairXs (s : State) (k : Nat) : (s.pairXs k).length = k := length_readWords ..

@[simp] theorem length_pairYs (s : State) (k : Nat) : (s.pairYs k).length = k := length_readWords ..

theorem getElem_pairXs (s : State) {k i : Nat} (hi : i < (s.pairXs k).length) : (s.pairXs k)[i] = s.readWord (4 * i) := by
  rw [← Nat.zero_add (4 * i)]
  exact getElem_readWords s hi

theorem pairXs_eq_map (s : State) (k : Nat) : s.pairXs k = (List.range k).map fun i => s.readWord (4 * i) := by
  simp [State.pairXs, State.readWords]

theorem pairYs_eq_map (s : State) (k : Nat) : s.pairYs k = (List.range k).map fun i => s.readWord (4 * i + 2) := by
  simp [State.pairYs, State.readWords, Nat.add_comm]

theorem nodup_pairXs_iff {s : State} {k : Nat} :
    (s.pairXs k).Nodup ↔ ∀ i < k, ∀ j < k, s.readWord (4 * i) = s.readWord (4 * j) → i = j := by
  simp only [pairXs_eq_map, List.nodup_map_iff_inj_on List.nodup_range, List.mem_range]

theorem not_nodup_pairXs_iff {s : State} {k : Nat} :
    ¬ (s.pairXs k).Nodup ↔ ∃ i j, i < j ∧ j < k ∧ s.readWord (4 * i) = s.readWord (4 * j) := by
  rw [nodup_pairXs_iff]
  constructor
  · intro h
    push Not at h
    obtain ⟨i, hi, j, hj, heq, hne⟩ := h
    obtain hlt | hgt := Nat.lt_or_gt_of_ne hne
    · exact ⟨i, j, hlt, hj, heq⟩
    · exact ⟨j, i, hgt, hi, heq.symm⟩
  · rintro ⟨i, j, hij, hj, heq⟩ h
    exact hij.ne (h i (hij.trans hj) j hj heq)

/-- The y-values of pairs that lie on a polynomial. -/
theorem pairYs_of_values {s : State} {k : Nat} {c : List Word}
    (h : ∀ i < k, nested s.field c (s.readWord (4 * i)) = s.readWord (4 * i + 2)) :
    s.pairYs k = (s.pairXs k).map (nested s.field c) := by
  rw [pairXs_eq_map, pairYs_eq_map, List.map_map]
  exact List.map_congr_left fun i hi => (h i (List.mem_range.1 hi)).symm

/-- The y-values of shares whose word-column lies on a polynomial. -/
theorem shareYs_of_values {s : State} {k S j : Nat} {c : List Word}
    (h : ∀ i < k, nested s.field c (s.readWord (i * S)) = s.readWord (i * S + 2 + 2 * j)) :
    s.shareYs k S j = (s.shareXs k S).map (nested s.field c) := by
  rw [shareXs_eq_map, shareYs_eq_map, List.map_map]
  exact List.map_congr_left fun i hi => (h i (List.mem_range.1 hi)).symm

/-- Two pairs with one x-coordinate end WCOMB in SINGULAR. -/
theorem execWcomb_of_not_nodup {s : State} {k : Nat} (hF : s.field.Lawful) (hok : wcombError s.params k = none)
    (hxs : ¬ (s.pairXs k).Nodup) : ∃ t, execWcomb k s = .next t ∧ Raised s t .singular := by
  obtain ⟨m, hm⟩ := exists_singular_of_not_nodup hF (ys := s.pairYs k) (by simp) hxs
  rw [execWcomb, hok, State.wcombRun, hm]
  exact ⟨_, rfl, (quiet_of_scratch s).raised .singular⟩

/-! ### One pair too few (R158) -/

section
variable {F : FieldOps} (hF : F.Lawful)
include hF

theorem nested_map_mul (a : Word) (cs : List Word) (x : Word) : nested F (cs.map (F.mul a)) x = F.mul a (nested F cs x) := by
  let := hF.commRing
  induction cs with
  | nil => exact (hF.mul_zero a).symm
  | cons b cs ih =>
    rw [List.map_cons, nested_cons, nested_cons, ih, hF.mul_add]
    exact congrArg (F.add _) (mul_left_comm (G := F.Carrier) ..)

theorem nested_zero_cons (cs : List Word) (x : Word) : nested F (0 :: cs) x = F.mul x (nested F cs x) := by
  rw [nested_cons, hF.zero_add]

theorem getD_map_mul (a : Word) (cs : List Word) (i : Nat) : (cs.map (F.mul a)).getD i 0 = F.mul a (cs.getD i 0) := by
  simp only [List.getD_eq_getElem?_getD, List.getElem?_map]
  cases cs[i]? with
  | none => exact (hF.mul_zero a).symm
  | some b => rfl

omit hF in
/-- A leading coefficient of zero can be left out. -/
theorem exists_eq_append_zero {d : List Word} {n : Nat} (hlen : d.length = n + 1) (hlast : d.getD n 0 = 0) :
    ∃ e, e.length = n ∧ d = e ++ [0] := by
  obtain rfl | ⟨e, a, rfl⟩ := d.eq_nil_or_concat
  · cases hlen
  · obtain rfl : e.length = n := by simpa using hlen
    rw [List.concat_eq_append, List.getD_append_right _ _ _ _ le_rfl, Nat.sub_self] at hlast
    exact ⟨e, rfl, by rw [List.concat_eq_append, ← hlast, List.getD_cons_zero]⟩

/-- The product of the `x + x_i`: a polynomial with leading coefficient one and constant term the product of the points, zero at
each of them. -/
theorem exists_nested_eq_zero (xs : List Word) :
    ∃ p : List Word, p.length = xs.length + 1 ∧ p.getD 0 0 = xs.foldr F.mul F.one ∧ p.getD xs.length 0 = F.one ∧
      ∀ x ∈ xs, nested F p x = 0 := by
  induction xs with
  | nil => exact ⟨[F.one], rfl, rfl, rfl, nofun⟩
  | cons a xs ih =>
    obtain ⟨p, hlen, hfirst, hlast, hzero⟩ := ih
    have hsum : (0 :: p).length = (p.map (F.mul a) ++ [0]).length := by simp
    refine ⟨List.zipWith F.add (0 :: p) (p.map (F.mul a) ++ [0]), by simp [hlen], ?_, ?_, fun x hx => ?_⟩
    · rw [getD_zipWith_add hF hsum, List.getD_append _ _ _ _ (by simp [hlen]), getD_map_mul hF, hfirst, List.getD_cons_zero,
        hF.zero_add, List.foldr_cons]
    · rw [getD_zipWith_add hF hsum, List.length_cons, List.getD_cons_succ, hlast,
        List.getD_append_right _ _ _ _ (by simp [hlen])]
      simpa [hlen] using hF.add_zero F.one
    · have hvalue : nested F (p.map (F.mul a) ++ [0]) x = F.mul a (nested F p x) := by
        rw [← nested_map_mul hF]
        exact nested_append_replicate_zero hF _ 1 x
      rw [nested_zipWith_add hF hsum, hvalue, nested_zero_cons hF, hF.add_eq_zero_iff]
      obtain rfl | hx := List.mem_cons.1 hx
      · rfl
      · rw [hzero x hx, hF.mul_zero, hF.mul_zero]

/-- One pair too few: the product of the `x + x_i` times the leading coefficient, added to the polynomial, keeps its values at the
points and takes its leading coefficient away. -/
theorem combines_shortValue {xs cs : List Word} (hxs : xs.Nodup) (hk : 0 < xs.length) (hcs : cs.length = xs.length + 1) :
    Combines F xs (xs.map (nested F cs)) (shortValue F cs xs) := by
  obtain ⟨p, hlen, hfirst, hlast, hzero⟩ := exists_nested_eq_zero hF xs
  have hsum : cs.length = (p.map (F.mul (cs.getD xs.length 0))).length := by simp [hcs, hlen]
  have hcoef := getD_zipWith_add hF hsum
  simp only [getD_map_mul hF] at hcoef
  have hleading := hcoef xs.length
  rw [hlast, hF.mul_one, hF.add_self] at hleading
  obtain ⟨e, he, hd⟩ := exists_eq_append_zero (by simp [hcs, hlen]) hleading
  have hvalue : ∀ x ∈ xs, nested F cs x = nested F e x := by
    intro x hx
    have happend : nested F (e ++ [0]) x = nested F e x := nested_append_replicate_zero hF e 1 x
    rw [← happend, ← hd, nested_zipWith_add hF hsum, nested_map_mul hF, hzero x hx, hF.mul_zero, hF.add_zero]
  have hhead : e.headD 0 = shortValue F cs xs := by
    have hconst := hcoef 0
    rw [hd, hfirst, List.getD_append _ _ _ _ (by omega)] at hconst
    rw [shortValue, ← hconst, List.headD_eq_getD]
  rw [List.map_congr_left hvalue, ← hhead]
  exact combines_of_values hF hxs hk he.le

end

end Sys2Proof.Machine
end

section
/-! CERTIFICATE. The Word-Combine Engine through WCOMB and COMBINE (43_wcomb.md R125, R131, R132, R136; 44_split_combine.md R150 to
R154, R158). -/

namespace Sys2Proof.Machine

/-- Settles O46: the engine's word is the constant term of a polynomial through the pairs. -/
theorem wcombInterpolates : Obligations.WcombInterpolates := by
  unfold Obligations.WcombInterpolates
  intro k s hF (hk : 0 < k) hcap hdistinct
  obtain ⟨c, hc, hvalues, hsolved⟩ :=
    combines_of_nodup hF (ys := s.pairYs k) (by simp) (nodup_pairXs hdistinct) (by simpa using hk)
  obtain ⟨t, hrun, hans, hcompleted⟩ := execWcomb_of_solved (wcombError_eq_none.2 ⟨by omega, hcap⟩) hsolved
  rw [pairXs_eq_map, pairYs_eq_map, List.map_map, List.map_inj_left] at hvalues
  exact ⟨t, c, hrun, hans, by simpa using hc, fun i hi => hvalues i (List.mem_range.2 hi), hcompleted⟩

/-- Settles O47: a polynomial with at most as many coefficients as there are pairs is determined by them. -/
theorem wcombIsExact : Obligations.WcombIsExact := by
  unfold Obligations.WcombIsExact
  intro k s c0 cs hF (hk : 0 < k) hcap hcs hdistinct hvalues
  have hsolved := combines_of_values hF (c := c0 :: cs) (nodup_pairXs hdistinct) (by simpa using hk) (by simpa using hcs)
  rw [← pairYs_of_values hvalues] at hsolved
  obtain ⟨t, hrun, -, hcompleted⟩ := execWcomb_of_solved (wcombError_eq_none.2 ⟨by omega, hcap⟩) hsolved
  exact ⟨t, hrun, hcompleted⟩

/-- Settles O48: equal x-coordinates make the system singular, distinct ones are solved and WCOMB completes. -/
theorem wcombSingularExactlyOnDuplicates : Obligations.WcombSingularExactlyOnDuplicates := by
  unfold Obligations.WcombSingularExactlyOnDuplicates
  intro k s hF (hk : 0 < k) hcap
  have hok : wcombError s.params k = none := wcombError_eq_none.2 ⟨by omega, hcap⟩
  rw [← not_nodup_pairXs_iff]
  constructor
  · exact execWcomb_of_not_nodup hF hok
  · rintro ⟨t, hrun, hraised⟩ hxs
    obtain ⟨c, -, -, hsolved⟩ := combines_of_nodup hF (ys := s.pairYs k) (by simp) hxs (by simpa using hk)
    obtain ⟨u, hu, -, hcompleted⟩ := execWcomb_of_solved hok hsolved
    cases hrun.symm.trans hu
    cases hraised.state.symm.trans hcompleted.state

/-- Settles O51: one pair too few, in WCOMB and in every word-column of COMBINE. -/
theorem shortCombineValue : Obligations.ShortCombineValue := by
  unfold Obligations.ShortCombineValue
  refine ⟨?wcomb, ?combine⟩
  case wcomb =>
    intro k s c hF (hk : 0 < k) hcap hc hdistinct hvalues
    have hsolved := combines_shortValue hF (cs := c) (nodup_pairXs hdistinct) (by simpa using hk) (by simpa using hc)
    rw [← pairYs_of_values hvalues] at hsolved
    rw [← pairXs_eq_map]
    exact execWcomb_of_solved (wcombError_eq_none.2 ⟨by omega, hcap⟩) hsolved
  case combine =>
    intro k s cs hF (hk : 0 < k) hcap hslen heven hlen hmcap hcs hdistinct hvalues
    have hok : s.combineError k = none :=
      combineError_eq_none.2 ⟨by omega, hcap, fun i _ hi => hslen i hi, heven, hlen, hmcap⟩
    have hxs : (s.shareXs k s.shareLen).Nodup := nodup_shareXs_iff.2 hdistinct
    have hcolumn : ∀ j < cs.length, Combines s.field (s.shareXs k s.shareLen) (s.shareYs k s.shareLen j)
        (shortValue s.field (cs.getD j []) (s.shareXs k s.shareLen)) := by
      intro j hj
      obtain ⟨hcoefs, hpairs⟩ := hvalues j hj
      rw [shareYs_of_values (S := s.shareLen) hpairs]
      exact combines_shortValue hF hxs (by simpa using hk) (by simpa using hcoefs)
    have hsolved : List.Forall₂ (Combines s.field (s.shareXs k s.shareLen))
        ((List.range s.shareWords).map fun j => s.shareYs k s.shareLen j)
        (cs.map fun c => shortValue s.field c (s.shareXs k s.shareLen)) := by
      have hwords : s.shareWords = cs.length := hcs.symm
      refine List.forall₂_iff_get.2 ⟨by simp [hwords], fun j hj _ => ?_⟩
      have hj : j < cs.length := by simpa [hwords] using hj
      simpa [hj] using hcolumn j hj
    obtain ⟨t, hrun, hans, hcompleted⟩ := execCombine_of_solved hok hsolved
    refine ⟨t, hrun, hans, ?_⟩
    rw [wordsToBytes, List.flatMap_map, shareXs_eq_map] at hcompleted
    exact hcompleted

/-- Settles O56: each column's word is the constant term of a polynomial through its pairs. -/
theorem combineInterpolatesEveryColumn : Obligations.CombineInterpolatesEveryColumn := by
  unfold Obligations.CombineInterpolatesEveryColumn
  intro k s hF (hk : 0 < k) hcap hslen heven hlen hmcap hdistinct
  have hok : s.combineError k = none :=
    combineError_eq_none.2 ⟨by omega, hcap, fun i _ hi => hslen i hi, heven, hlen, hmcap⟩
  have hxs : (s.shareXs k s.shareLen).Nodup := nodup_shareXs_iff.2 hdistinct
  choose c hc hvalues hsolved using fun j =>
    combines_of_nodup hF (ys := s.shareYs k s.shareLen j) (by simp) hxs (by simpa using hk)
  have hcolumns : List.Forall₂ (Combines s.field (s.shareXs k s.shareLen))
      ((List.range s.shareWords).map fun j => s.shareYs k s.shareLen j)
      ((List.range s.shareWords).map fun j => (c j).headD 0) := by
    rw [List.forall₂_map_left_iff, List.forall₂_map_right_iff, List.forall₂_same]
    exact fun j _ => hsolved j
  obtain ⟨t, hrun, hans, hcompleted⟩ := execCombine_of_solved hok hcolumns
  refine ⟨t, _, hrun, hans, by simp [State.shareWords, State.shareLen], hcompleted, fun j hj => ⟨c j, ?_, ?_, ?_⟩⟩
  · simpa using hc j
  · have hj : j < s.shareWords := by simpa using hj
    simp [hj]
  · have hcolumn := hvalues j
    rw [shareXs_eq_map, shareYs_eq_map, List.map_map, List.map_inj_left] at hcolumn
    exact fun i hi => hcolumn i (List.mem_range.2 hi)

end Sys2Proof.Machine
end


section
/-! SUPPORT. The scratch a command does not write (10_state.md R25), as any reading of the state that its phases, its error entry
and its completion leave alone. -/

namespace Sys2Proof.Machine

/-- A reading of the state that is the same after error entry and completion, as every reading of scratch is. -/
structure EndKeeps {α : Type} (f : State → α) : Prop where
  raise : ∀ s e, f (State.raise s e) = f s
  complete : ∀ s b, f (State.complete s b) = f s

variable {α : Type} {f : State → α}

theorem Phase.bind_keeps {s : State} {p : Phase} {next : State → Phase} (hp : f p.state = f s)
    (hn : ∀ u, f (next u).state = f u) : f (p.bind next).state = f s := by
  cases p with
  | ready u => exact (hn u).trans hp
  | failed u => exact hp
  | waiting u => exact hp

/-- A command that completes once its phase is done leaves alone what the phase does. -/
theorem EndKeeps.andThen (hf : EndKeeps f) {s : State} {p : Phase} {next : State → State} (hp : f p.state = f s)
    (hn : ∀ u, ∃ b, next u = u.complete b) : f (p.andThen next) = f s := by
  cases p with
  | ready u =>
    obtain ⟨b, hb⟩ := hn u
    rw [Phase.andThen, hb, hf.complete]
    exact hp
  | failed u => exact (hf.raise u .rng).trans hp
  | waiting u => exact hp

theorem EndKeeps.of_validation (hf : EndKeeps f) {s run : State} (v : Option Err) (h : f run = f s) :
    f (match v with
      | some e => s.raise e
      | none => run) = f s := by
  cases v with
  | some e => exact hf.raise s e
  | none => exact h

theorem collectPoints_keeps (hf : ∀ s : State, ∀ xv seen as pos,
    f { s with xv := xv, seen := seen, answers := as, pos := pos } = f s) (s : State) (n : Nat) :
    f (s.collectPoints n).state = f s := by
  obtain ⟨xv, seen, rest, -, -, -, ⟨hr, -⟩ | ⟨hr, -⟩ | ⟨hr, -⟩⟩ := collectPoints_cases s n <;> rw [hr] <;> exact hf s ..

theorem collectCoefs_keeps (hf : ∀ s : State, ∀ coef as pos, f { s with coef := coef, answers := as, pos := pos } = f s)
    (s : State) (t : Nat) : f (s.collectCoefs t).state = f s := by
  obtain ⟨vs, rest, -, ⟨hr, -⟩ | ⟨hr, -⟩ | ⟨hr, -⟩⟩ := collectCoefs_cases s t <;> rw [hr] <;> exact hf s ..

theorem EndKeeps.genptRun (hf : EndKeeps f)
    (hdraw : ∀ s : State, ∀ xv seen as pos, f { s with xv := xv, seen := seen, answers := as, pos := pos } = f s) (s : State)
    (n : Nat) : f (s.genptRun n) = f s :=
  hf.andThen (collectPoints_keeps hdraw s n) fun _ => ⟨_, rfl⟩

theorem EndKeeps.wsplitRun (hf : EndKeeps f)
    (hdraw : ∀ s : State, ∀ coef as pos, f { s with coef := coef, answers := as, pos := pos } = f s) (s : State) (t : Nat) :
    f (s.wsplitRun t) = f s :=
  hf.andThen (collectCoefs_keeps hdraw s t) fun _ => ⟨_, rfl⟩

/-! ### Each command -/

theorem execGenpt_scratch {s t : State} {n : Nat} (h : execGenpt n s = .next t) :
    t.coef = s.coef ∧ t.sw = s.sw ∧ t.yv = s.yv ∧ t.mat = s.mat := by
  have hf : EndKeeps fun s : State => (s.coef, s.sw, s.yv, s.mat) := ⟨fun _ _ => rfl, fun _ _ => rfl⟩
  have hrun (u : State) := hf.genptRun (fun _ _ _ _ _ => rfl) u n
  suffices heq : (t.coef, t.sw, t.yv, t.mat) = (s.coef, s.sw, s.yv, s.mat) by simpa using heq
  cases h
  split
  · exact hrun s
  · exact hf.of_validation _ (hrun s.beginPoints)

theorem execWsplit_scratch {s t : State} {t' n : Nat} {w : Word} (h : execWsplit t' n w s = .next t) :
    t.seen = s.seen ∧ t.sw = s.sw ∧ t.yv = s.yv ∧ t.mat = s.mat := by
  have hf : EndKeeps fun s : State => (s.seen, s.sw, s.yv, s.mat) := ⟨fun _ _ => rfl, fun _ _ => rfl⟩
  have hrun (u : State) := hf.wsplitRun (fun _ _ _ _ => rfl) u t'
  suffices heq : (t.seen, t.sw, t.yv, t.mat) = (s.seen, s.sw, s.yv, s.mat) by simpa using heq
  cases h
  split
  · exact hrun s
  · exact hf.of_validation _ (hrun (State.beginWord { s with xv := s.pointXs n } w))

theorem splitWord_mat (s : State) (t : Nat) : (s.splitWord t).state.mat = s.mat :=
  Phase.bind_keeps (f := State.mat) (collectCoefs_keeps (fun _ _ _ _ => rfl) s t) fun _ => rfl

theorem splitWords_mat (t : Nat) (ws : List Word) (s : State) : (State.splitWords t ws s).state.mat = s.mat := by
  induction ws generalizing s with
  | nil => rfl
  | cons w ws ih => exact Phase.bind_keeps (f := State.mat) (splitWord_mat (s.beginWord w) t) ih

theorem execSplit_mat {s t : State} {t' n len : Nat} (h : execSplit t' n len s = .next t) : t.mat = s.mat := by
  have hf : EndKeeps State.mat := ⟨fun _ _ => rfl, fun _ _ => rfl⟩
  have hpoints (u : State) : (u.splitFromPoints t' n).mat = u.mat :=
    hf.andThen (Phase.bind_keeps (collectPoints_keeps (fun _ _ _ _ _ => rfl) u n) fun v => splitWords_mat t' v.sw _)
      fun _ => ⟨_, rfl⟩
  have hcoefs : (s.splitFromCoefs t').mat = s.mat :=
    hf.andThen (Phase.bind_keeps (splitWord_mat s t') fun v => splitWords_mat t' _ v) fun _ => ⟨_, rfl⟩
  cases h
  split
  · exact hpoints s
  · split
    · exact hcoefs
    · exact hf.of_validation _ (hpoints (State.beginPoints { s with sw := s.secretWords (len / 2) }))

theorem execWcomb_scratch {s t : State} {k : Nat} (h : execWcomb k s = .next t) :
    t.seen = s.seen ∧ t.coef = s.coef ∧ t.sw = s.sw ∧ t.yv = s.yv := by
  have hf : EndKeeps fun s : State => (s.seen, s.coef, s.sw, s.yv) := ⟨fun _ _ => rfl, fun _ _ => rfl⟩
  suffices heq : (t.seen, t.coef, t.sw, t.yv) = (s.seen, s.coef, s.sw, s.yv) by simpa using heq
  cases h
  refine hf.of_validation _ ?_
  obtain ⟨m, ⟨w, hr⟩ | hr⟩ := wcombRun_cases s k <;> rw [hr] <;> rfl

theorem execCombine_scratch {s t : State} {k : Nat} (h : execCombine k s = .next t) : t.seen = s.seen ∧ t.coef = s.coef := by
  have hf : EndKeeps fun s : State => (s.seen, s.coef) := ⟨fun _ _ => rfl, fun _ _ => rfl⟩
  suffices heq : (t.seen, t.coef) = (s.seen, s.coef) by simpa using heq
  cases h
  refine hf.of_validation _ ?_
  obtain ⟨ws, m, ⟨-, hr⟩ | hr⟩ := combineColumns_cases (s.parseShares k).yv (s.parseShares k) <;>
    rw [State.combineRun, hr] <;> rfl

theorem execPeval_scratch {s t : State} {t' : Nat} {x : Word} (h : execPeval t' x s = .next t) :
    t.xv = s.xv ∧ t.seen = s.seen ∧ t.sw = s.sw ∧ t.yv = s.yv ∧ t.mat = s.mat := by
  have hf : EndKeeps fun s : State => (s.xv, s.seen, s.sw, s.yv, s.mat) := ⟨fun _ _ => rfl, fun _ _ => rfl⟩
  suffices heq : (t.xv, t.seen, t.sw, t.yv, t.mat) = (s.xv, s.seen, s.sw, s.yv, s.mat) by simpa using heq
  cases h
  exact hf.of_validation _ rfl

end Sys2Proof.Machine
end

section
/-! SUPPORT. For each class of the table in 60_exceptions.md R174, a command that ends in it. -/

namespace Sys2Proof.Machine

/-- Some command of the operation `o`, run from a BUSY state, ends in ERROR with class `c`. -/
def CanEndIn (o : Opcode) (c : ErrClass) : Prop :=
  ∃ (i : Instr) (s t : State), i.opcode = o ∧ s.state = .busy ∧ exec i s = .next t ∧ t.state = .error ∧ t.err = c

/-- The reference block, BUSY at the beginning of a command, an error answer ready; in IN two words of zero, four bytes apart, in
SLEN the lengths of two shares. -/
def errorDemo (len0 len1 : Word) : State :=
  { State.reset with
    state := .busy, pos := .start, answers := [.error], inBuf := [(0, 0), (1, 0), (4, 0), (5, 0)], slen := [(0, len0), (1, len1)] }

/-- A count of zero fails every command's validation (R102, R112, R114, R131, R141, R151). -/
theorem canEndIn_param (o : Opcode) : CanEndIn o .param := by
  cases o with
  | split => exact ⟨.split 0 0 0, errorDemo 4 4, _, rfl, rfl, rfl, rfl, rfl⟩
  | combine => exact ⟨.combine 0, errorDemo 4 4, _, rfl, rfl, rfl, rfl, rfl⟩
  | genpt => exact ⟨.genpt 0, errorDemo 4 4, _, rfl, rfl, rfl, rfl, rfl⟩
  | wsplit => exact ⟨.wsplit 0 0 0, errorDemo 4 4, _, rfl, rfl, rfl, rfl, rfl⟩
  | wcomb => exact ⟨.wcomb 0, errorDemo 4 4, _, rfl, rfl, rfl, rfl, rfl⟩
  | peval => exact ⟨.peval 0 0, errorDemo 4 4, _, rfl, rfl, rfl, rfl, rfl⟩

/-- The first draw is answered with an error (R92). -/
theorem canEndIn_rng {o : Opcode} (h : o = .split ∨ o = .genpt ∨ o = .wsplit) : CanEndIn o .rng := by
  obtain rfl | rfl | rfl := h
  · exact ⟨.split 1 1 2, errorDemo 4 4, _, rfl, rfl, rfl, rfl, rfl⟩
  · exact ⟨.genpt 1, errorDemo 4 4, _, rfl, rfl, rfl, rfl, rfl⟩
  · exact ⟨.wsplit 2 1 0, errorDemo 4 4, _, rfl, rfl, rfl, rfl, rfl⟩

theorem exec_combine (k : Nat) (s : State) : exec (.combine k) s = execCombine k s := rfl

theorem exec_wcomb (k : Nat) (s : State) : exec (.wcomb k) s = execWcomb k s := rfl

/-- Shares of different lengths (R151). -/
theorem canEndIn_format : CanEndIn .combine .format := by
  obtain ⟨t, ht, hr, -⟩ := execCombine_of_combineError (s := errorDemo 4 6) (k := 2) (e := .lenMismatch) rfl
  exact ⟨.combine 2, errorDemo 4 6, t, rfl, rfl, (exec_combine ..).trans ht, hr.state, hr.err⟩

/-- Two equal x-coordinates (R132). -/
theorem canEndIn_singular {o : Opcode} (h : o = .combine ∨ o = .wcomb) : CanEndIn o .singular := by
  have hequal : (errorDemo 4 4).readWord 0 = (errorDemo 4 4).readWord 4 := rfl
  obtain rfl | rfl := h
  · have hxs : ¬ ((errorDemo 4 4).shareXs 2 (errorDemo 4 4).shareLen).Nodup := fun h =>
      absurd (nodup_shareXs_iff.1 h 0 (by decide) 1 (by decide) hequal) (by decide)
    obtain ⟨t, ht, hr⟩ := execCombine_of_not_nodup (s := errorDemo 4 4) reference_lawful rfl hxs
    exact ⟨.combine 2, errorDemo 4 4, t, rfl, rfl, (exec_combine ..).trans ht, hr.state, hr.err⟩
  · have hxs : ¬ ((errorDemo 4 4).pairXs 2).Nodup := not_nodup_pairXs_iff.2 ⟨0, 1, by decide, by decide, hequal⟩
    obtain ⟨t, ht, hr⟩ := execWcomb_of_not_nodup (s := errorDemo 4 4) reference_lawful rfl hxs
    exact ⟨.wcomb 2, errorDemo 4 4, t, rfl, rfl, (exec_wcomb ..).trans ht, hr.state, hr.err⟩

theorem canEndIn_of_mayEndIn {o : Opcode} {c : ErrClass} (h : mayEndIn o c = true) : CanEndIn o c := by
  cases o <;> simp only [mayEndIn, Bool.or_eq_true, decide_eq_true_eq] at h
  case split =>
    obtain rfl | rfl := h
    exacts [canEndIn_param _, canEndIn_rng (by simp)]
  case combine =>
    obtain (rfl | rfl) | rfl := h
    exacts [canEndIn_param _, canEndIn_format, canEndIn_singular (by simp)]
  case genpt =>
    obtain rfl | rfl := h
    exacts [canEndIn_param _, canEndIn_rng (by simp)]
  case wsplit =>
    obtain rfl | rfl := h
    exacts [canEndIn_param _, canEndIn_rng (by simp)]
  case wcomb =>
    obtain rfl | rfl := h
    exacts [canEndIn_param _, canEndIn_singular (by simp)]
  case peval =>
    obtain rfl := h
    exact canEndIn_param _

end Sys2Proof.Machine
end

section
/-! CERTIFICATE. How a command ends and what it leaves unchanged (60_exceptions.md sections 1, 2 and 4; 10_state.md section 8), and
the step that runs it. -/

namespace Sys2Proof.Machine

/-! ### The step -/

/-- While BUSY with a command the sequencer's turn is the command's meaning (R171). -/
theorem coreTurn_legal {s : State} {i : Instr} (hb : s.state = .busy) (hc : s.cmd = some (.legal i)) :
    coreTurn s = exec i s := by
  rw [coreTurn, if_pos hb, hc]

theorem step_of_agenda_nil {s : State} (h : s.agenda = []) : step s = coreTurn s := by
  rw [step, h]

/-- Settles O7: one case for each kind of turn. -/
theorem stepTakesTheNextTurn : Obligations.StepTakesTheNextTurn := by
  unfold Obligations.StepTakesTheNextTurn
  intro s rest
  refine ⟨step_of_agenda_nil, fun h => ?_, fun a h => ?_, fun h => ?_, fun a h => ?_⟩ <;> rw [step, h] <;> rfl

/-- The two descriptor registers hold the descriptor placed (R12, R13). -/
theorem State.launch_desc (s : State) (d : Desc) : (s.launch d).desc = d := by
  change d.extractLsb' 32 32 ++ d.extractLsb' 0 32 = d
  rw [BitVec.extractLsb'_append_extractLsb'_eq_extractLsb' (by rfl)]
  exact BitVec.extractLsb'_eq_self

theorem State.launch_cmd (s : State) (d : Desc) : (s.launch d).cmd = some (decode d) :=
  congrArg (fun d => some (decode d)) (s.launch_desc d)

theorem decodeTableWord_eq_some {nbits w : Nat} {i : Instr} (h : decodeTableWord nbits w = some i) :
    decode (BitVec.ofNat 64 (w % 2 ^ nbits)) = .legal i := by
  unfold decodeTableWord at h
  split at h
  · next hd => rw [hd, Option.some.inj h]
  · cases h

/-- Settles O8: START latches the decoded descriptor, and the sequencer's turn runs what is latched. -/
theorem stepRunsDecodedInstruction : Obligations.StepRunsDecodedInstruction := by
  unfold Obligations.StepRunsDecodedInstruction
  refine ⟨fun s i hd => ?_, fun s i hb hc ha => ?_, fun s i nbits w hw => ?_⟩
  · have hc : s.start.cmd = some (.legal i) := by rw [State.start_cmd, hd]
    exact ⟨hc, coreTurn_legal rfl hc⟩
  · rw [step_of_agenda_nil ha, coreTurn_legal hb hc]
  · have hc : (s.withFetchWord nbits w).cmd = some (.legal i) := by
      rw [State.withFetchWord, State.launch_cmd, decodeTableWord_eq_some hw]
    rw [step_of_agenda_nil rfl, coreTurn_legal rfl hc]

/-! ### How a command ends -/

/-- Settles O28: every command ends in one of the ways of its kind, rejected commands in their error. -/
theorem commandEndsInOneOfThreeWays : Obligations.CommandEndsInOneOfThreeWays := by
  unfold Obligations.CommandEndsInOneOfThreeWays
  intro i s
  obtain ⟨t, ht, hends⟩ := exec_ends i s
  obtain ⟨u, hu, hleaves⟩ := exec_leaves i s
  cases ht.symm.trans hu
  refine ⟨t, ht, ?_, hleaves.keeps, hleaves.keeps.readIn, hleaves.keeps.readSlen, ?_⟩
  · cases hends with
    | rejected e _ _ h => exact .inr (.inl ⟨e, h ▸ (Quiet.refl s).raised e⟩)
    | ran h => exact h.way.imp_right (Or.imp_left fun ⟨e, _, _, hr⟩ => ⟨e, hr⟩)
  · cases hends with
    | rejected e _ _ h =>
      subst h
      exact ⟨⟨[], rfl⟩, fun _ => rfl⟩
    | ran h => exact ⟨h.used, h.undrawn⟩

/-- Settles O31: what a command may raise it raises, as its validation's or as it runs; each class has a command that ends in it. -/
theorem errorClassesByCommand : Obligations.ErrorClassesByCommand := by
  unfold Obligations.ErrorClassesByCommand
  refine fun o c => ⟨?_, canEndIn_of_mayEndIn⟩
  rintro ⟨i, s, t, rfl, hb, ht, he, rfl⟩
  obtain ⟨u, hu, hends⟩ := exec_ends i s
  cases ht.symm.trans hu
  obtain ⟨e, -, hmay, rfl⟩ | ⟨e, -, hmay, hr⟩ := hends.error_cases hb he
  · exact hmay
  · rwa [hr.err]

/-! ### Scratch (log 12) -/

/-- Settles O29: one lemma for each command. -/
theorem scratchFrame : Obligations.ScratchFrame := by
  unfold Obligations.ScratchFrame
  exact ⟨fun _ _ _ => execCombine_scratch, fun _ _ _ => execGenpt_scratch, fun _ _ _ _ _ => execWsplit_scratch,
    fun _ _ _ => execWcomb_scratch, fun _ _ _ _ => execPeval_scratch, fun _ _ _ _ _ => execSplit_mat⟩

/-- A command that ends with an error of validation was rejected, with the state as it was: as it runs it raises only RNG and
SINGULAR. -/
theorem Ends.rejected_of_err {i : Instr} {s t : State} (h : Ends i s t) (hb : s.state = .busy) (he : t.state = .error)
    (hrng : t.err ≠ .rng) (hsingular : t.err ≠ .singular) : ∃ e, t = s.raise e := by
  obtain ⟨e, -, -, hr⟩ | ⟨e, hrun, -, hr⟩ := h.error_cases hb he
  · exact ⟨e, hr⟩
  · rw [hr.err] at hrng hsingular
    obtain rfl | rfl := hrun
    · exact absurd rfl hrng
    · exact absurd rfl hsingular

/-- Only a singular system has the class SINGULAR (R173). -/
theorem Err.cls_ne_singular {e : Err} (h : e ≠ .singular) : e.cls ≠ .singular := by
  cases e with
  | singular => exact absurd rfl h
  | _ => exact nofun

/-- Under a lawful Field a COMBINE that ends in SINGULAR is so at word-column 0, all columns having the same x-coordinates. -/
theorem combineRun_singular_sw {s : State} {k : Nat} (hF : s.field.Lawful) (he : (s.combineRun k).state = .error)
    (hk : k ≠ 0) : (s.combineRun k).sw = [] := by
  by_cases hxs : (s.shareXs k s.shareLen).Nodup
  · choose c _ _ hsolved using fun j =>
      combines_of_nodup hF (ys := s.shareYs k s.shareLen j) (by simp) hxs (by rw [length_shareXs]; omega)
    have hcolumns : List.Forall₂ (Combines s.field (s.shareXs k s.shareLen)) (s.parseShares k).yv
        ((List.range s.shareWords).map fun j => (c j).headD 0) := by
      rw [State.parseShares_yv, List.forall₂_map_left_iff, List.forall₂_map_right_iff, List.forall₂_same]
      exact fun j _ => hsolved j
    obtain ⟨u, hrun, -⟩ := combineColumns_of_solved (s := s.parseShares k) hcolumns
    rw [State.combineRun, hrun] at he
    cases he
  · cases hwords : List.range s.shareWords with
    | nil =>
      rw [State.combineRun, State.parseShares_yv, hwords, List.map_nil, combineColumns_nil] at he
      cases he
    | cons j js =>
      obtain ⟨m, hm⟩ := exists_singular_of_not_nodup hF (ys := s.shareYs k s.shareLen j) (by simp) hxs
      have hfirst : wordCombine (s.parseShares k).field (s.parseShares k).xv (s.shareYs k s.shareLen j) = .singular m := hm
      rw [State.combineRun, State.parseShares_yv, hwords, List.map_cons, combineColumns_cons, hfirst]
      rfl

/-- Settles O60: such an error is raised before the command runs; the columns of a COMBINE are singular all or none. -/
theorem earlyErrorsLeaveScratch : Obligations.EarlyErrorsLeaveScratch := by
  unfold Obligations.EarlyErrorsLeaveScratch
  refine ⟨fun s t hb hturn he herr => ?early, fun k s t hF hb ht herr he => ?singular⟩
  case early =>
    suffices hraise : ∃ e, t = s.raise e by
      obtain ⟨e, rfl⟩ := hraise
      exact ⟨rfl, rfl, rfl, rfl, rfl, rfl⟩
    match hc : s.cmd with
    | some (.illegal why) => exact ⟨_, (Host.Outcome.next.inj (hturn.symm.trans (coreTurn_illegal hb hc)))⟩
    | some (.legal i) =>
      obtain ⟨u, hu, hends⟩ := exec_ends i s
      cases hturn.symm.trans ((coreTurn_legal hb hc).trans hu)
      obtain h | h | h := herr <;> exact hends.rejected_of_err hb he (by simp [h]) (by simp [h])
    | none =>
      rw [coreTurn, if_pos hb, hc] at hturn
      cases hturn
      cases hb.symm.trans he
  case singular =>
    change execCombine k s = .next t at ht
    cases hok : s.combineError k with
    | some e =>
      obtain ⟨u, hu, hr, -⟩ := execCombine_of_combineError hok
      cases ht.symm.trans hu
      exact absurd (hr.err.symm.trans herr) (Err.cls_ne_singular (ne_of_firstError hok (by simp)))
    | none =>
      rw [execCombine, hok] at ht
      cases ht
      obtain ⟨hk, -⟩ := combineError_eq_none.1 hok
      exact combineRun_singular_sw hF he hk

end Sys2Proof.Machine
end

section
/-! SUPPORT. Answers that come in pieces (40_field_and_random.md R94; 10_state.md R20): a phase that waited, resumed with later
answers, ends as it would have ended with all of them, but for the position, which its end overwrites. -/

namespace Sys2Proof.Machine

/-- The state with `as` the answers ready. -/
def State.withAnswers (s : State) (as : List Answer) : State := { s with answers := as }

/-- The state with the sequencer at position `pos`. -/
def State.atPos (s : State) (pos : SeqPos) : State := { s with pos := pos }

/-! ### Phases that end alike -/

/-- Two phases that end in the same state, but for the position where they do not wait. -/
inductive Phase.SameEnd : Phase → Phase → Prop where
  | ready (u : State) (pos : SeqPos) : Phase.SameEnd (.ready (u.atPos pos)) (.ready u)
  | failed (u : State) (pos : SeqPos) : Phase.SameEnd (.failed (u.atPos pos)) (.failed u)
  | waiting (u : State) : Phase.SameEnd (.waiting u) (.waiting u)

theorem Phase.SameEnd.refl (p : Phase) : p.SameEnd p := by
  cases p with
  | ready u => exact .ready u u.pos
  | failed u => exact .failed u u.pos
  | waiting u => exact .waiting u

theorem Phase.SameEnd.bind {p q : Phase} {next : State → Phase} (h : p.SameEnd q)
    (hn : ∀ u pos, (next (u.atPos pos)).SameEnd (next u)) : (p.bind next).SameEnd (q.bind next) := by
  cases h with
  | ready u pos => exact hn u pos
  | failed u pos => exact .failed u pos
  | waiting u => exact .waiting u

/-- A command's end does not look at the position. -/
theorem Phase.SameEnd.andThen {p q : Phase} {next : State → State} (h : p.SameEnd q)
    (hn : ∀ u pos, next (State.atPos u pos) = next u) : p.andThen next = q.andThen next := by
  cases h with
  | ready u pos => exact hn u pos
  | failed u pos => rfl
  | waiting u => rfl

theorem collectCoefs_atPos (t : Nat) (u : State) (pos : SeqPos) :
    ((u.atPos pos).collectCoefs t).SameEnd (u.collectCoefs t) := by
  simp only [State.collectCoefs, State.atPos]
  cases drawUntil (fun c : List Word => decide (t ≤ c.length)) (fun c v => c ++ [v]) u.answers u.coef with
  | ready c rest => exact .ready { u with coef := c, answers := rest } pos
  | failed c rest => exact .failed { u with coef := c, answers := rest } pos
  | waiting c => exact .waiting _

theorem splitWord_atPos (t : Nat) (u : State) (pos : SeqPos) : ((u.atPos pos).splitWord t).SameEnd (u.splitWord t) :=
  (collectCoefs_atPos t u pos).bind fun v pos => .ready { v with yv := v.yv ++ [v.yValues] } pos

theorem splitWords_atPos (t : Nat) (ws : List Word) (u : State) (pos : SeqPos) :
    (State.splitWords t ws (u.atPos pos)).SameEnd (State.splitWords t ws u) := by
  induction ws generalizing u pos with
  | nil => exact .ready u pos
  | cons w ws ih => exact (splitWord_atPos t (u.beginWord w) pos).bind ih

/-! ### Resuming the draws -/

section
variable {s u : State} (later : List Answer)

theorem collectPoints_later_of_ready {n : Nat} (h : s.collectPoints n = .ready u) :
    (s.withAnswers (s.answers ++ later)).collectPoints n = .ready (u.withAnswers (u.answers ++ later)) := by
  unfold State.collectPoints at h
  split at h <;> cases h
  next hd =>
    simp only [State.collectPoints, State.withAnswers]
    rw [drawUntil_append_ready hd]

theorem collectPoints_later_of_waiting {n : Nat} (h : s.collectPoints n = .waiting u) :
    ((u.withAnswers later).collectPoints n).SameEnd ((s.withAnswers (s.answers ++ later)).collectPoints n) := by
  unfold State.collectPoints at h
  split at h <;> cases h
  next g hd =>
    simp only [State.collectPoints, State.withAnswers]
    rw [drawUntil_append_waiting hd]
    cases drawUntil (fun g : List Word × List Word => decide (n ≤ g.1.length)) takeCandidate later g with
    | ready g' rest => exact .ready { s with xv := g'.1, seen := g'.2, answers := rest } .points
    | failed g' rest => exact .failed { s with xv := g'.1, seen := g'.2, answers := rest } .points
    | waiting g' => exact .waiting _

theorem collectCoefs_later_of_ready {t : Nat} (h : s.collectCoefs t = .ready u) :
    (s.withAnswers (s.answers ++ later)).collectCoefs t = .ready (u.withAnswers (u.answers ++ later)) := by
  unfold State.collectCoefs at h
  split at h <;> cases h
  next hd =>
    simp only [State.collectCoefs, State.withAnswers]
    rw [drawUntil_append_ready hd]

theorem collectCoefs_later_of_waiting {t : Nat} (h : s.collectCoefs t = .waiting u) :
    ((u.withAnswers later).collectCoefs t).SameEnd ((s.withAnswers (s.answers ++ later)).collectCoefs t) := by
  unfold State.collectCoefs at h
  split at h <;> cases h
  next c hd =>
    simp only [State.collectCoefs, State.withAnswers]
    rw [drawUntil_append_waiting hd]
    cases drawUntil (fun c : List Word => decide (t ≤ c.length)) (fun c v => c ++ [v]) later c with
    | ready c' rest => exact .ready { s with coef := c', answers := rest } .coeffs
    | failed c' rest => exact .failed { s with coef := c', answers := rest } .coeffs
    | waiting c' => exact .waiting _

theorem Phase.bind_eq_waiting {p : Phase} {next : State → Phase} (h : p.bind next = .waiting u) :
    p = .waiting u ∨ ∃ v, p = .ready v ∧ next v = .waiting u := by
  cases p with
  | ready v => exact .inr ⟨v, rfl, h⟩
  | failed v => cases h
  | waiting v => exact .inl h

theorem splitWord_later_of_ready {t : Nat} (h : s.splitWord t = .ready u) :
    (s.withAnswers (s.answers ++ later)).splitWord t = .ready (u.withAnswers (u.answers ++ later)) := by
  obtain ⟨v, hv, hu⟩ := Phase.bind_eq_ready h
  cases hu
  rw [State.splitWord, collectCoefs_later_of_ready later hv]
  rfl

theorem splitWord_later_of_waiting {t : Nat} (h : s.splitWord t = .waiting u) :
    ((u.withAnswers later).splitWord t).SameEnd ((s.withAnswers (s.answers ++ later)).splitWord t) := by
  obtain hw | ⟨v, -, hv⟩ := Phase.bind_eq_waiting h
  · exact (collectCoefs_later_of_waiting later hw).bind fun v pos => .ready { v with yv := v.yv ++ [v.yValues] } pos
  · cases hv

end

/-! ### Resuming a SPLIT at a word -/

/-- The words YV has no row for, which a SPLIT goes on with (44_split_combine.md R144). -/
def State.splitRest (t : Nat) (s : State) : Phase := State.splitWords t (s.sw.drop s.yv.length) s

theorem splitRest_atPos (t : Nat) (u : State) (pos : SeqPos) :
    (State.splitRest t (u.atPos pos)).SameEnd (State.splitRest t u) := splitWords_atPos t (u.sw.drop u.yv.length) u pos

/-- Once a word is split, the words left are those YV has no row for. -/
theorem splitWords_eq_splitRest {s u : State} {t : Nat} {w : Word} {ws : List Word} (hws : s.sw.drop s.yv.length = w :: ws)
    (h : (s.beginWord w).splitWord t = .ready u) : State.splitWords t ws u = State.splitRest t u ∧ u.sw.drop u.yv.length = ws := by
  have hdrop : u.sw.drop u.yv.length = ws := by
    obtain ⟨v, hv, hu⟩ := Phase.bind_eq_ready h
    obtain ⟨vs, rest, -, ⟨hr, -⟩ | ⟨hr, -⟩ | ⟨hr, -⟩⟩ := collectCoefs_cases (s.beginWord w) t <;> cases hv.symm.trans hr
    cases hu
    simp only [State.beginWord_sw, State.beginWord_yv, List.length_append, List.length_singleton]
    rw [← List.drop_drop, hws, List.drop_one, List.tail_cons]
  exact ⟨by rw [State.splitRest, hdrop], hdrop⟩

theorem Phase.bind_congr {p : Phase} {next next' : State → Phase} (h : ∀ u, p = .ready u → next u = next' u) :
    p.bind next = p.bind next' := by
  cases p with
  | ready u => exact h u rfl
  | failed u => rfl
  | waiting u => rfl

/-- A SPLIT that waits at a coefficient of some word goes on with that word, and then with the words left. -/
theorem splitWords_later_of_waiting {s u : State} {t : Nat} {ws : List Word} (later : List Answer)
    (hws : s.sw.drop s.yv.length = ws) (h : State.splitWords t ws s = .waiting u) :
    (((u.withAnswers later).splitWord t).bind (State.splitRest t)).SameEnd
      (State.splitWords t ws (s.withAnswers (s.answers ++ later))) := by
  induction ws generalizing s with
  | nil => cases h
  | cons w ws ih =>
    rw [splitWords_cons] at h ⊢
    change Phase.SameEnd _ ((((s.beginWord w).withAnswers ((s.beginWord w).answers ++ later)).splitWord t).bind _)
    obtain hw | ⟨v, hv, hrest⟩ := Phase.bind_eq_waiting h
    · have hsame : (((s.withAnswers (s.answers ++ later)).beginWord w).splitWord t).bind (State.splitWords t ws) =
          (((s.withAnswers (s.answers ++ later)).beginWord w).splitWord t).bind (State.splitRest t) :=
        Phase.bind_congr fun v hv => (splitWords_eq_splitRest (s := s.withAnswers (s.answers ++ later)) hws hv).1
      exact hsame ▸ (splitWord_later_of_waiting later hw).bind (splitRest_atPos t)
    · rw [splitWord_later_of_ready later hv]
      exact ih (splitWords_eq_splitRest hws hv).2 hrest

/-! ### The commands -/

/-- A command left at a draw is one whose phase waits: ended commands have no position. -/
theorem Phase.eq_waiting_of_andThen {p : Phase} {next : State → State} {t : State} (h : p.andThen next = t)
    (hpos : t.pos ≠ .idle) (hn : ∀ u, (next u).pos = .idle) : p = .waiting t := by
  subst h
  cases p with
  | ready u => exact absurd (hn u) hpos
  | failed u => exact absurd rfl hpos
  | waiting u => rfl

section
variable {s t : State} (later : List Answer)

theorem collectPoints_waiting_pos {n : Nat} (h : s.collectPoints n = .waiting t) : t.pos = .points := by
  obtain ⟨xv, seen, rest, -, -, -, ⟨hr, -⟩ | ⟨hr, -⟩ | ⟨hr, -⟩⟩ := collectPoints_cases s n <;> cases h.symm.trans hr
  rfl

theorem collectCoefs_waiting_pos {k : Nat} (h : s.collectCoefs k = .waiting t) : t.pos = .coeffs := by
  obtain ⟨vs, rest, -, ⟨hr, -⟩ | ⟨hr, -⟩ | ⟨hr, -⟩⟩ := collectCoefs_cases s k <;> cases h.symm.trans hr
  rfl

theorem genptRun_later {n : Nat} (h : s.genptRun n = t) (hpos : t.pos ≠ .idle) :
    t.pos = .points ∧ (t.withAnswers later).genptRun n = (s.withAnswers (s.answers ++ later)).genptRun n := by
  have hw := Phase.eq_waiting_of_andThen h hpos fun _ => rfl
  exact ⟨collectPoints_waiting_pos hw, (collectPoints_later_of_waiting later hw).andThen fun _ _ => rfl⟩

theorem wsplitRun_later {k : Nat} (h : s.wsplitRun k = t) (hpos : t.pos ≠ .idle) :
    t.pos = .coeffs ∧ (t.withAnswers later).wsplitRun k = (s.withAnswers (s.answers ++ later)).wsplitRun k := by
  have hw := Phase.eq_waiting_of_andThen h hpos fun _ => rfl
  exact ⟨collectCoefs_waiting_pos hw, (collectCoefs_later_of_waiting later hw).andThen fun _ _ => rfl⟩

theorem splitWord_waiting_pos {k : Nat} (h : s.splitWord k = .waiting t) : t.pos = .coeffs := by
  obtain hw | ⟨v, -, hv⟩ := Phase.bind_eq_waiting h
  · exact collectCoefs_waiting_pos hw
  · cases hv

theorem splitWords_waiting_pos {k : Nat} {ws : List Word} (h : State.splitWords k ws s = .waiting t) : t.pos = .coeffs := by
  induction ws generalizing s with
  | nil => cases h
  | cons w ws ih =>
    rw [splitWords_cons] at h
    obtain hw | ⟨v, -, hv⟩ := Phase.bind_eq_waiting h
    · exact splitWord_waiting_pos hw
    · exact ih hv

theorem splitFromPoints_later {k n : Nat} (h : s.splitFromPoints k n = t) (hpos : t.pos ≠ .idle) :
    (t.pos = .points ∧
      (t.withAnswers later).splitFromPoints k n = (s.withAnswers (s.answers ++ later)).splitFromPoints k n) ∨
    (t.pos = .coeffs ∧
      (t.withAnswers later).splitFromCoefs k = (s.withAnswers (s.answers ++ later)).splitFromPoints k n) := by
  obtain hw | ⟨v, hv, hwords⟩ := Phase.bind_eq_waiting (Phase.eq_waiting_of_andThen h hpos fun _ => rfl)
  · refine .inl ⟨collectPoints_waiting_pos hw, ?_⟩
    refine Phase.SameEnd.andThen ?_ fun _ _ => rfl
    exact (collectPoints_later_of_waiting later hw).bind fun u pos => splitWords_atPos k u.sw { u with yv := [] } pos
  · refine .inr ⟨splitWords_waiting_pos hwords, ?_⟩
    rw [State.splitFromPoints, collectPoints_later_of_ready later hv]
    exact (splitWords_later_of_waiting (s := { v with yv := [] }) later rfl hwords).andThen fun _ _ => rfl

theorem splitFromCoefs_later {k : Nat} (h : s.splitFromCoefs k = t) (hpos : t.pos ≠ .idle) :
    t.pos = .coeffs ∧ (t.withAnswers later).splitFromCoefs k = (s.withAnswers (s.answers ++ later)).splitFromCoefs k := by
  obtain hw | ⟨v, hv, hwords⟩ := Phase.bind_eq_waiting (Phase.eq_waiting_of_andThen h hpos fun _ => rfl)
  · refine ⟨splitWord_waiting_pos hw, ?_⟩
    refine Phase.SameEnd.andThen ?_ fun _ _ => rfl
    exact (splitWord_later_of_waiting later hw).bind (splitRest_atPos k)
  · refine ⟨splitWords_waiting_pos hwords, ?_⟩
    have hall := splitWord_later_of_ready later hv
    refine ((splitWords_later_of_waiting later rfl hwords).andThen fun _ _ => rfl).trans ?_
    rw [State.splitFromCoefs, hall]
    rfl

end

/-! ### Which part of a command runs (log 16) -/

section
variable {s : State} {t n len : Nat} {w : Word}

theorem execGenpt_resumed (h : s.pos = .points) : execGenpt n s = .next (s.genptRun n) := by
  rw [execGenpt, if_pos h]

theorem execGenpt_begun (h : s.pos ≠ .points) (hok : genptError s.params n = none) :
    execGenpt n s = .next (s.beginPoints.genptRun n) := by
  rw [execGenpt, if_neg h, hok]

theorem execWsplit_resumed (h : s.pos = .coeffs) : execWsplit t n w s = .next (s.wsplitRun t) := by
  rw [execWsplit, if_pos h]

theorem execWsplit_begun (h : s.pos ≠ .coeffs) (hok : wsplitError s.params t n = none) :
    execWsplit t n w s = .next (State.wsplitRun (State.beginWord { s with xv := s.pointXs n } w) t) := by
  rw [execWsplit, if_neg h, hok]

theorem execSplit_resumed_points (h : s.pos = .points) : execSplit t n len s = .next (s.splitFromPoints t n) := by
  rw [execSplit, if_pos h]

theorem execSplit_resumed_coefs (h : s.pos = .coeffs) : execSplit t n len s = .next (s.splitFromCoefs t) := by
  rw [execSplit, if_neg (by simp [h]), if_pos h]

theorem execSplit_begun (hp : s.pos ≠ .points) (hc : s.pos ≠ .coeffs) (hok : splitError s.params t n len = none) :
    execSplit t n len s =
      .next (State.splitFromPoints (State.beginPoints { s with sw := s.secretWords (len / 2) }) t n) := by
  rw [execSplit, if_neg hp, if_neg hc, hok]

end

/-- GENPT goes on with later answers as with all of them. -/
theorem execGenpt_later {n : Nat} {s t : State} (later : List Answer) (h : execGenpt n s = .next t) (hpos : t.pos ≠ .idle) :
    execGenpt n (t.withAnswers later) = execGenpt n (s.withAnswers (s.answers ++ later)) := by
  by_cases hs : s.pos = .points
  · rw [execGenpt_resumed hs] at h
    obtain ⟨ht, hrun⟩ := genptRun_later later (Host.Outcome.next.inj h) hpos
    rw [execGenpt_resumed (s := t.withAnswers later) ht, hrun]
    exact (execGenpt_resumed (s := s.withAnswers (s.answers ++ later)) hs).symm
  · cases hok : genptError s.params n with
    | some e =>
      rw [execGenpt, if_neg hs, hok] at h
      cases h
      exact absurd rfl hpos
    | none =>
      rw [execGenpt_begun hs hok] at h
      obtain ⟨ht, hrun⟩ := genptRun_later later (Host.Outcome.next.inj h) hpos
      rw [execGenpt_resumed (s := t.withAnswers later) ht, hrun]
      exact (execGenpt_begun (s := s.withAnswers (s.answers ++ later)) hs hok).symm

/-- WSPLIT goes on with later answers as with all of them. -/
theorem execWsplit_later {k n : Nat} {w : Word} {s t : State} (later : List Answer) (h : execWsplit k n w s = .next t)
    (hpos : t.pos ≠ .idle) :
    execWsplit k n w (t.withAnswers later) = execWsplit k n w (s.withAnswers (s.answers ++ later)) := by
  by_cases hs : s.pos = .coeffs
  · rw [execWsplit_resumed hs] at h
    obtain ⟨ht, hrun⟩ := wsplitRun_later later (Host.Outcome.next.inj h) hpos
    rw [execWsplit_resumed (s := t.withAnswers later) ht, hrun]
    exact (execWsplit_resumed (s := s.withAnswers (s.answers ++ later)) hs).symm
  · cases hok : wsplitError s.params k n with
    | some e =>
      rw [execWsplit, if_neg hs, hok] at h
      cases h
      exact absurd rfl hpos
    | none =>
      rw [execWsplit_begun hs hok] at h
      obtain ⟨ht, hrun⟩ := wsplitRun_later later (Host.Outcome.next.inj h) hpos
      rw [execWsplit_resumed (s := t.withAnswers later) ht, hrun]
      exact (execWsplit_begun (s := s.withAnswers (s.answers ++ later)) hs hok).symm

/-- A SPLIT that came from its points on goes on at a point or at a coefficient. -/
theorem execSplit_of_points_later {k n len : Nat} {s t : State} (later : List Answer) (h : s.splitFromPoints k n = t)
    (hpos : t.pos ≠ .idle) :
    execSplit k n len (t.withAnswers later) = .next ((s.withAnswers (s.answers ++ later)).splitFromPoints k n) := by
  obtain ⟨ht, hrun⟩ | ⟨ht, hrun⟩ := splitFromPoints_later later h hpos
  · rw [execSplit_resumed_points (s := t.withAnswers later) ht, hrun]
  · rw [execSplit_resumed_coefs (s := t.withAnswers later) ht, hrun]

/-- SPLIT goes on with later answers as with all of them. -/
theorem execSplit_later {k n len : Nat} {s t : State} (later : List Answer) (h : execSplit k n len s = .next t)
    (hpos : t.pos ≠ .idle) :
    execSplit k n len (t.withAnswers later) = execSplit k n len (s.withAnswers (s.answers ++ later)) := by
  by_cases hp : s.pos = .points
  · rw [execSplit_resumed_points hp] at h
    rw [execSplit_of_points_later later (Host.Outcome.next.inj h) hpos]
    exact (execSplit_resumed_points (s := s.withAnswers (s.answers ++ later)) hp).symm
  · by_cases hc : s.pos = .coeffs
    · rw [execSplit_resumed_coefs hc] at h
      obtain ⟨ht, hrun⟩ := splitFromCoefs_later later (Host.Outcome.next.inj h) hpos
      rw [execSplit_resumed_coefs (s := t.withAnswers later) ht, hrun]
      exact (execSplit_resumed_coefs (s := s.withAnswers (s.answers ++ later)) hc).symm
    · cases hok : splitError s.params k n len with
      | some e =>
        rw [execSplit, if_neg hp, if_neg hc, hok] at h
        cases h
        exact absurd rfl hpos
      | none =>
        rw [execSplit_begun hp hc hok] at h
        rw [execSplit_of_points_later later (Host.Outcome.next.inj h) hpos]
        exact (execSplit_begun (s := s.withAnswers (s.answers ++ later)) hp hc hok).symm

end Sys2Proof.Machine
end

section
/-! CERTIFICATE. Answers that come in pieces (40_field_and_random.md R94). -/

namespace Sys2Proof.Machine

/-- A command without a draw does not wait. -/
theorem instrDraws_of_waits {i : Instr} {s t : State} (h : exec i s = .next t) (hw : Waits s t) : instrDraws i = true := by
  obtain ⟨u, hu, hends⟩ := exec_ends i s
  cases h.symm.trans hu
  have hpos : t.pos ≠ .idle := by rcases hw.pos with hp | hp <;> simp [hp]
  cases hends with
  | rejected e _ _ h => exact absurd (h ▸ rfl) hpos
  | ran h =>
    obtain ⟨b, hc⟩ | ⟨e, -, -, hr⟩ | ⟨hdraws, -⟩ := h.way
    · exact absurd hc.pos hpos
    · exact absurd hr.pos hpos
    · exact hdraws

/-- Settles O33: the three commands that draw, each from its beginning and from each of its draws. -/
theorem answersMayComeInPieces : Obligations.AnswersMayComeInPieces := by
  unfold Obligations.AnswersMayComeInPieces
  intro i s t later h hw
  have hpos : t.pos ≠ .idle := by rcases hw.pos with hp | hp <;> simp [hp]
  have hdraws := instrDraws_of_waits h hw
  cases i with
  | split k n len => exact execSplit_later later h hpos
  | genpt n => exact execGenpt_later later h hpos
  | wsplit k n w => exact execWsplit_later later h hpos
  | combine k => cases hdraws
  | wcomb k => cases hdraws
  | peval k x => cases hdraws

end Sys2Proof.Machine
end

section
/-! SUPPORT. GENPT, PEVAL, WSPLIT and SPLIT that complete: the points, values and rows they output (41_genpt.md R101, R102;
42_wsplit_peval.md R111 to R114; 44_split_combine.md R143 to R145). -/

namespace Sys2Proof.Machine

/-- Words computed for the elements of a list, serialised one after another (20_memory.md R45). -/
theorem wordsToBytes_map {α : Type} (bo : Bool) (l : List α) (f : α → Word) :
    wordsToBytes bo (l.map f) = l.flatMap fun a => w2b (f a) bo := by
  rw [wordsToBytes, List.flatMap_map]

/-- A completion after a quiet beginning. -/
theorem Quiet.completed_after {s u t : State} {b : List Byte} (h : Quiet s u) (hc : Completed u t b) : Completed s t b :=
  { hc with err := hc.err.trans h.err, errInfo := hc.errInfo.trans h.errInfo, keeps := h.keeps.trans hc.keeps }

/-! ### GENPT -/

/-- GENPT whose points are answered outputs them in draw order, and draws no further (R101, R102). -/
theorem execGenpt_of_kept {s : State} {n : Nat} {vs : List Word} {rest : List Answer} (hpos : s.pos = .start)
    (hok : genptError s.params n = none) (hans : s.answers = vs.map .value ++ rest) (hn : (kept vs).length = n)
    (hlast : (kept vs.dropLast).length < n) :
    ∃ t, execGenpt n s = .next t ∧ Completed s t (wordsToBytes s.bo (kept vs)) ∧ t.answers = rest := by
  rw [execGenpt_start hpos hok, State.genptRun, collectPoints_ready hans hn hlast]
  exact ⟨_, rfl, (quiet_of_draws s).completed _, rfl⟩

/-- The GENPT from `s` completed in `t` with the points `xs`. -/
structure Generated (s t : State) (xs : List Word) : Prop where
  nodup : xs.Nodup
  nonzero : (0 : Word) ∉ xs
  completed : Completed s t (wordsToBytes s.bo xs)

/-- A generator that finishes has `n` points, distinct and non-zero. -/
theorem genptRun_generated {s : State} {n : Nat} (hb : s.state = .busy) (hp : PointsPair (s.xv, s.seen)) (hlen : s.xv.length ≤ n)
    (hd : (s.genptRun n).state = .done) : ∃ xs, Generated s (s.genptRun n) xs ∧ xs.length = n := by
  obtain ⟨u, hphase, hquiet, (hrun : s.genptRun n = u.complete _)⟩ :=
    Phase.ready_of_andThen_done (collectPoints_quiet s n) hb hd
  obtain ⟨xv, seen, rest, rfl, hpoints, hn⟩ := collectPoints_eq_ready hphase hp hlen
  exact ⟨xv, ⟨hpoints.nodup, hpoints.nonzero, hrun ▸ hquiet.completed _⟩, hn⟩

/-- Whenever a GENPT completes, also after waiting, it output `n` distinct, non-zero points. -/
theorem coreTurn_genpt_generated {s t : State} {n : Nat} (hinv : s.Inv) (hb : s.state = .busy)
    (hcmd : s.cmd = some (.legal (.genpt n))) (hrun : coreTurn s = .next t) (hd : t.state = .done) :
    ∃ xs, Generated s t xs ∧ xs.length = n := by
  rw [coreTurn_legal hb hcmd] at hrun
  change execGenpt n s = .next t at hrun
  obtain hpos | ⟨hpos, hp, hcases⟩ | ⟨-, hcases⟩ := hinv.sequencer.place hb
  · rw [execGenpt, if_neg (by simp [hpos])] at hrun
    cases hok : genptError s.params n with
    | some e =>
      rw [hok] at hrun
      cases hrun
      cases hd
    | none =>
      rw [hok] at hrun
      cases hrun
      obtain ⟨xs, ⟨hnodup, hnonzero, hc⟩, hn⟩ := genptRun_generated (s := s.beginPoints) hb .empty (Nat.zero_le n) hd
      exact ⟨xs, ⟨hnodup, hnonzero, (quiet_of_scratch s).completed_after hc⟩, hn⟩
  · obtain ⟨n', hc, -, hlen⟩ | ⟨t', n', len, hc, -⟩ := hcases <;> cases hcmd.symm.trans hc
    rw [execGenpt_resumed hpos] at hrun
    cases hrun
    exact genptRun_generated hb ⟨hp.nodup, hp.nonzero, hp.seen⟩ hlen.le hd
  · obtain ⟨t', n', w, hc, -⟩ | ⟨t', n', len, hc, -⟩ := hcases <;> cases hcmd.symm.trans hc

/-! ### PEVAL and WSPLIT -/

theorem execPeval_of_ok {s : State} {t : Nat} {x : Word} (hF : s.field.Lawful) (hok : pevalError s.params t = none) :
    ∃ u, execPeval t x s = .next u ∧ u.answers = s.answers ∧ Completed s u (w2b (nested s.field (s.coefWords t) x) s.bo) := by
  rw [execPeval, hok, ← polyEval_eq_nested hF]
  exact ⟨_, rfl, rfl, (quiet_of_scratch s).completed _⟩

/-- WSPLIT whose coefficients are answered outputs the values of its polynomial at the points, and draws no further (R113, R114). -/
theorem execWsplit_of_values {s : State} {t n : Nat} {w : Word} {cs : List Word} {rest : List Answer} (hF : s.field.Lawful)
    (hpos : s.pos = .start) (hok : wsplitError s.params t n = none) (hans : s.answers = cs.map .value ++ rest)
    (hcs : 1 + cs.length = t) :
    ∃ u, execWsplit t n w s = .next u ∧ u.answers = rest ∧
      Completed s u (wordsToBytes s.bo ((s.pointXs n).map (nested s.field (w :: cs)))) := by
  have hcoefs := collectCoefs_ready (s := State.beginWord { s with xv := s.pointXs n } w) hans hcs
  rw [execWsplit_start hpos hok, State.wsplitRun, hcoefs, ← polyEval_eq_nested hF]
  exact ⟨_, rfl, rfl, (Quiet.trans (quiet_of_scratch s) (quiet_of_draws _)).completed _⟩

/-- A WSPLIT that completes from its beginning output the values at the points of some polynomial whose constant term is the
word. -/
theorem execWsplit_start_done {s t : State} {t' n : Nat} {w : Word} (hF : s.field.Lawful) (hpos : s.pos = .start)
    (hb : s.state = .busy) (hrun : execWsplit t' n w s = .next t) (hd : t.state = .done) :
    ∃ cs, t.out = wordsToBytes s.bo ((s.pointXs n).map (nested s.field (w :: cs))) := by
  rw [execWsplit, if_neg (by simp [hpos])] at hrun
  cases hok : wsplitError s.params t' n with
  | some e =>
    rw [hok] at hrun
    cases hrun
    cases hd
  | none =>
    rw [hok] at hrun
    cases hrun
    obtain ⟨u, hphase, -, hu⟩ := Phase.ready_of_andThen_done (s := State.beginWord { s with xv := s.pointXs n } w)
      (collectCoefs_quiet _ t') hb hd
    obtain ⟨cs, rest, -, ⟨hr, -⟩ | ⟨hr, -⟩ | ⟨hr, -⟩⟩ :=
      collectCoefs_cases (State.beginWord { s with xv := s.pointXs n } w) t' <;> cases hphase.symm.trans hr
    refine ⟨cs, (congrArg State.out hu).trans ?_⟩
    rw [← polyEval_eq_nested hF]
    rfl

/-! ### The words of a SPLIT -/

/-- The coefficients of word `j`: the word, and its own `t - 1` of the values drawn (R144). -/
def coefsOfWord (t : Nat) (cs : List Word) (j : Nat) (w : Word) : List Word := w :: (cs.drop (j * (t - 1))).take (t - 1)

/-- Words whose coefficients are all answered are split one after another: a row each. -/
theorem splitWords_ready {t : Nat} (ht : 1 ≤ t) {s : State} {ws cs : List Word} {rest : List Answer}
    (hans : s.answers = cs.map .value ++ rest) (hcs : cs.length = ws.length * (t - 1)) :
    ∃ coef, State.splitWords t ws s = .ready { s with
      coef := coef, answers := rest,
      yv := s.yv ++ (List.range ws.length).map fun j => s.xv.map (polyEval s.field (coefsOfWord t cs j (ws.getD j 0))) } := by
  induction ws generalizing s cs with
  | nil =>
    obtain rfl : cs = [] := List.length_eq_zero_iff.1 (hcs.trans (Nat.zero_mul _))
    obtain rfl : s.answers = rest := hans
    exact ⟨s.coef, by simp⟩
  | cons w ws ih =>
    obtain ⟨now, later, rfl, hnow⟩ : ∃ now later, cs = now ++ later ∧ now.length = t - 1 :=
      ⟨cs.take (t - 1), cs.drop (t - 1), (List.take_append_drop _ _).symm,
        List.length_take_of_le (by rw [hcs, List.length_cons, Nat.succ_mul]; omega)⟩
    rw [List.map_append, List.append_assoc] at hans
    have hlater : later.length = ws.length * (t - 1) := by
      rw [List.length_append, List.length_cons, Nat.succ_mul] at hcs
      omega
    have hword := splitWord_ready (s := s.beginWord w) (t := t) hans (by simp [hnow]; omega)
    obtain ⟨coef, hrest⟩ := ih (s := { s.beginWord w with
      coef := w :: now, answers := later.map .value ++ rest, yv := s.yv ++ [s.xv.map (polyEval s.field (w :: now))] }) rfl hlater
    refine ⟨coef, ?_⟩
    have hfirst : coefsOfWord t (now ++ later) 0 w = w :: now := by simp [coefsOfWord, ← hnow]
    have hothers (j : Nat) (w' : Word) : coefsOfWord t (now ++ later) (j + 1) w' = coefsOfWord t later j w' := by
      rw [coefsOfWord, coefsOfWord, Nat.succ_mul, Nat.add_comm, ← hnow, List.drop_length_add_append]
    rw [splitWords_cons, hword, List.length_cons, List.range_succ_eq_map, List.map_cons, List.map_map, List.append_cons s.yv,
      List.getD_cons_zero, hfirst]
    simp only [Function.comp_def, List.getD_cons_succ, Nat.succ_eq_add_one, hothers]
    exact hrest

/-- SPLIT whose points and coefficients are answered outputs a record a point: the point, and for each word the value there of
its polynomial; exactly those answers are consumed (R143 to R145, R94). -/
theorem execSplit_of_values {s : State} {t n len : Nat} {vs cs : List Word} {rest : List Answer} (hF : s.field.Lawful)
    (hpos : s.pos = .start) (hok : splitError s.params t n len = none)
    (hans : s.answers = vs.map .value ++ (cs.map .value ++ rest)) (hn : (kept vs).length = n)
    (hlast : (kept vs.dropLast).length < n) (hcs : cs.length = len / 2 * (t - 1)) :
    ∃ u, execSplit t n len s = .next u ∧ u.answers = rest ∧
      Completed s u ((kept vs).flatMap fun x => w2b x s.bo ++ (List.range (len / 2)).flatMap fun j =>
        w2b (nested s.field (coefsOfWord t cs j (s.readWord (2 * j))) x) s.bo) := by
  have ht : 1 ≤ t := Nat.one_le_iff_ne_zero.2 (splitError_eq_none.1 hok).1
  have hlen : (s.secretWords (len / 2)).length = len / 2 := length_readWords ..
  obtain ⟨coef, hwords⟩ := splitWords_ready ht (s := s.pointsComplete (len / 2) (kept vs) (cs.map .value ++ rest))
    (ws := s.secretWords (len / 2)) rfl (by rwa [hlen])
  rw [hlen] at hwords
  obtain ⟨hrun, hquiet⟩ := execSplit_of_words_ready hpos hok hans hn hlast hwords
  refine ⟨_, hrun, rfl, ?_⟩
  have hrows : (List.range (len / 2)).map (fun j => (kept vs).map
        (polyEval s.field (coefsOfWord t cs j ((s.secretWords (len / 2)).getD j 0)))) =
      (List.range (len / 2)).map fun j => (kept vs).map fun x => nested s.field (coefsOfWord t cs j (s.readWord (2 * j))) x := by
    refine List.map_congr_left fun j hj => ?_
    have hj : j < len / 2 := List.mem_range.1 hj
    rw [polyEval_eq_nested hF, List.getD_eq_getElem _ _ (by rwa [hlen])]
    simp [State.secretWords]
  have hbytes := sharesBytes_of_rows s.bo (kept vs) (List.range (len / 2))
    fun j x => nested s.field (coefsOfWord t cs j (s.readWord (2 * j))) x
  simp only [shareBytes, wordsToBytes_cons, wordsToBytes_map] at hbytes
  rw [← hbytes, ← hrows]
  exact hquiet.completed _

end Sys2Proof.Machine
end

section
/-! CERTIFICATE. GENPT, PEVAL, WSPLIT and SPLIT (41_genpt.md; 42_wsplit_peval.md; 44_split_combine.md section 1), and the validation of the
engine-level commands. -/

namespace Sys2Proof.Machine

/-! ### GENPT -/

/-- Settles O40: the generator is done at the value that completes the points. -/
theorem genptCollectsDistinctPoints : Obligations.GenptCollectsDistinctPoints := by
  unfold Obligations.GenptCollectsDistinctPoints
  intro n s vs rest hpos hn hcap hans hkept hlast
  exact execGenpt_of_kept hpos (genptError_eq_none.2 ⟨by omega, hcap⟩) hans hkept hlast

/-- Settles O41: the words output are the points, which the generator keeps distinct and non-zero. -/
theorem genptPointsDistinctNonZero : Obligations.GenptPointsDistinctNonZero := by
  unfold Obligations.GenptPointsDistinctNonZero
  intro n s t hinv hb hcmd hrun hd
  obtain ⟨xs, ⟨hnodup, hnonzero, hc⟩, rfl⟩ := coreTurn_genpt_generated hinv hb hcmd hrun hd
  have hpoint (i : Nat) (hi : i < xs.length) : wordAt t.out (2 * i) s.bo = xs[i] := by
    rw [hc.out, wordAt_wordsToBytes s.bo hi]
  refine ⟨by rw [hc.out, length_wordsToBytes], fun i hi => ?nonzero, fun i hi j hj hij => ?distinct⟩
  case nonzero =>
    rw [hpoint i hi]
    exact ne_of_mem_of_not_mem (List.getElem_mem hi) hnonzero
  case distinct => rwa [hpoint i hi, hpoint j hj, hnodup.getElem_inj_iff] at hij

/-! ### PEVAL and WSPLIT -/

theorem coefWords_eq_map (s : State) (t : Nat) : s.coefWords t = (List.range t).map fun i => s.readWord (2 * i) := by
  simp [State.coefWords, State.readWords]

theorem pointXs_eq_map (s : State) (n : Nat) : s.pointXs n = (List.range n).map fun i => s.readWord (2 * i) := by
  simp [State.pointXs, State.readWords]

/-- Settles O42: the running-power loop computes the nested form. -/
theorem pevalIsThePolynomialValue : Obligations.PevalIsThePolynomialValue := by
  unfold Obligations.PevalIsThePolynomialValue
  intro t x s hF ht hcap
  rw [← coefWords_eq_map]
  exact execPeval_of_ok hF (pevalError_eq_none.2 ⟨by omega, hcap⟩)

/-- Settles O43: COEF holds the word and then the values drawn, and the engine evaluates it at each point. -/
theorem wsplitIsThePolynomialAtEveryPoint : Obligations.WsplitIsThePolynomialAtEveryPoint := by
  unfold Obligations.WsplitIsThePolynomialAtEveryPoint
  intro t n w s cs rest hF hpos ht htcap hn hncap hans hcs
  obtain ⟨u, hrun, hrest, hc⟩ := execWsplit_of_values (n := n) (w := w) hF hpos
    (wsplitError_eq_none.2 ⟨by omega, by omega, htcap, hncap⟩) hans (t := t) (by omega)
  rw [pointXs_eq_map, List.map_map, wordsToBytes_map] at hc
  exact ⟨u, hrun, hrest, hc⟩

/-- Settles O45: at zero the nested form is the constant term. -/
theorem valueAtZeroIsTheConstantTerm : Obligations.ValueAtZeroIsTheConstantTerm := by
  unfold Obligations.ValueAtZeroIsTheConstantTerm
  refine ⟨fun t s hF ht hcap => ?peval, fun t n w s u i hF hpos hb hrun hd hi hzero => ?wsplit⟩
  case peval =>
    obtain ⟨u, hrun, -, hc⟩ := execPeval_of_ok (x := 0) hF (pevalError_eq_none.2 ⟨by omega, hcap⟩)
    have hhead : (s.coefWords t).headD 0 = s.readWord 0 := by
      rw [coefWords_eq_map, List.headD_eq_getD]
      simp [show 0 < t from ht]
    rw [nested_zero hF, hhead] at hc
    exact ⟨u, hrun, hc⟩
  case wsplit =>
    obtain ⟨cs, hout⟩ := execWsplit_start_done hF hpos hb hrun hd
    have hvalue : nested s.field (w :: cs) (s.readWord (2 * i)) = w := by rw [hzero, nested_zero hF, List.headD_cons]
    rw [hout, wordAt_wordsToBytes s.bo (by simpa [State.pointXs] using hi)]
    simpa [pointXs_eq_map] using hvalue

/-! ### SPLIT -/

/-- Settles O53: points first, then each word's coefficients; each row holds its polynomial's values at the points. -/
theorem splitMakesShares : Obligations.SplitMakesShares := by
  unfold Obligations.SplitMakesShares
  intro t n len s vs cs rest hF hpos ht htn hlen heven hcap hmcap hans hkept hlast hcs
  have hok : splitError s.params t n len = none :=
    splitError_eq_none.2 ⟨by omega, by omega, htn, by omega, heven, hcap, hmcap⟩
  rw [List.append_assoc] at hans
  exact execSplit_of_values hF hpos hok hans hkept hlast hcs

/-! ### Validation (R102, R112, R114, R131, R175) -/

section
variable {s : State} {e : Err}

theorem execGenpt_of_genptError {n : Nat} (hpos : s.pos ≠ .points) (herr : genptError s.params n = some e) :
    ∃ t, execGenpt n s = .next t ∧ Raised s t e ∧ t.answers = s.answers := by
  rw [execGenpt, if_neg hpos, herr]
  exact ⟨s.raise e, rfl, (Quiet.refl s).raised e, rfl⟩

theorem execWsplit_of_wsplitError {t n : Nat} {w : Word} (hpos : s.pos ≠ .coeffs)
    (herr : wsplitError s.params t n = some e) :
    ∃ u, execWsplit t n w s = .next u ∧ Raised s u e ∧ u.answers = s.answers := by
  rw [execWsplit, if_neg hpos, herr]
  exact ⟨s.raise e, rfl, (Quiet.refl s).raised e, rfl⟩

theorem execWcomb_of_wcombError {k : Nat} (herr : wcombError s.params k = some e) :
    ∃ t, execWcomb k s = .next t ∧ Raised s t e ∧ t.answers = s.answers := by
  rw [execWcomb, herr]
  exact ⟨s.raise e, rfl, (Quiet.refl s).raised e, rfl⟩

theorem execPeval_of_pevalError {t : Nat} {x : Word} (herr : pevalError s.params t = some e) :
    ∃ u, execPeval t x s = .next u ∧ Raised s u e ∧ u.answers = s.answers := by
  rw [execPeval, herr]
  exact ⟨s.raise e, rfl, (Quiet.refl s).raised e, rfl⟩

end

/-- Settles O39: the tests are made in the order written, and the first that fails is raised. -/
theorem engineCommandValidation : Obligations.EngineCommandValidation := by
  unfold Obligations.EngineCommandValidation
  refine ⟨fun n s hpos => ?genpt, fun t n w s hpos => ?wsplit, fun k s => ?wcomb, fun t x s => ?peval⟩
  case genpt =>
    refine ⟨fun hn => execGenpt_of_genptError hpos ?_, fun hcap hn => execGenpt_of_genptError hpos ?_⟩
    · simp [genptError, firstError, hn]
    · simp [genptError, firstError, hn.ne', hcap]
  case wsplit =>
    refine ⟨fun ht => execWsplit_of_wsplitError hpos ?_, fun ht hn => execWsplit_of_wsplitError hpos ?_,
      fun ht hn hcap => execWsplit_of_wsplitError hpos ?_⟩
    · simp [wsplitError, firstError, ht]
    · simp [wsplitError, firstError, ht.ne', hn]
    · simp [wsplitError, firstError, ht.ne', hn.ne', hcap]
  case wcomb =>
    refine ⟨fun hk => execWcomb_of_wcombError ?_, fun hk hcap => execWcomb_of_wcombError ?_⟩
    · simp [wcombError, firstError, hk]
    · simp [wcombError, firstError, hk.ne', hcap]
  case peval =>
    refine ⟨fun ht => execPeval_of_pevalError ?_, fun ht hcap => execPeval_of_pevalError ?_⟩
    · simp [pevalError, firstError, ht]
    · simp [pevalError, firstError, ht.ne', hcap]

end Sys2Proof.Machine
end

section
/-! CERTIFICATE. CFG, STATUS, reset and the byte order (10_state.md R15, R17, R29; 20_memory.md R44, R45; 60_exceptions.md R173). -/

namespace Sys2Proof.Machine

/-! ### CFG (R15) -/

theorem getLsbD_zero_cfgWritten (v : Reg) : (cfgWritten v).getLsbD 0 = v.getLsbD 0 := by
  simp [cfgWritten]

/-- The reserved bits of CFG read 0. -/
theorem getLsbD_cfgWritten_reserved (v : Reg) {j : Nat} (hj : 2 ≤ j) : (cfgWritten v).getLsbD j = false := by
  have hmask : (0x00000003 : Reg).getLsbD j = false :=
    Nat.testBit_lt_two_pow (Nat.lt_of_lt_of_le (by decide : (0x00000003 : Reg).toNat < 2 ^ 2) (Nat.pow_le_pow_right two_pos hj))
  rw [cfgWritten, BitVec.getLsbD_and, hmask, Bool.and_false]

/-- Settles O11: CFG holds the two bits, and is read back as written. -/
theorem cfgKeepsByteOrderAndInterruptEnable : Obligations.CfgKeepsByteOrderAndInterruptEnable := by
  unfold Obligations.CfgKeepsByteOrderAndInterruptEnable
  have hp (p : Params) : placeOf p 0x04 32 = some .cfg := placeOf_of_regAt rfl
  refine ⟨fun s v hb => ?written, fun s v hb => ?locked, fun s => ⟨rfl, by simp [State.bo], by simp [State.ie]⟩⟩
  case written =>
    intro t
    have ht : t = { s with cfg := cfgWritten v, reply := some .accepted } :=
      (State.hostAccess_write (hp s.params)).trans (by simp only [State.writePlace, if_neg hb])
    rw [ht]
    exact ⟨rfl, getLsbD_zero_cfgWritten v, getLsbD_one_cfgWritten v, fun j hj => getLsbD_cfgWritten_reserved v hj,
      State.hostAccess_read_reply (hp _) rfl⟩
  case locked => exact State.hostAccess_write_ignored (hp _) (State.writePlace_busy hb _ v)

/-! ### STATUS (R17, R172, R173) -/

/-- STATUS field by field. -/
theorem statusWord_fields (s : State) :
    s.statusWord.extractLsb' 0 2 = s.state.code ∧ s.statusWord.extractLsb' 2 2 = 0 ∧
    s.statusWord.extractLsb' 4 4 = s.err.code ∧ s.statusWord.extractLsb' 8 8 = s.errInfo ∧
    s.statusWord.extractLsb' 16 16 = 0 := by
  simp only [State.statusWord, BitVec.extractLsb'_append_eq_ite]
  simp

/-- Settles O22: the word is its fields; each error's word is computed from its class and sub-cause. -/
theorem statusWordFields : Obligations.StatusWordFields := by
  unfold Obligations.StatusWordFields
  have hp (p : Params) : placeOf p 0x14 32 = some .status := placeOf_of_regAt rfl
  refine ⟨fun s v => ?fields, rfl, rfl, fun s t e h => ?error, fun s t bytes herr hinfo h => ?completed⟩
  case fields =>
    obtain ⟨hstate, hlow, herr, hinfo, hhigh⟩ := statusWord_fields s
    exact ⟨hstate, hlow, herr, hinfo, hhigh, State.hostAccess_read (hp _),
      State.hostAccess_write_ignored (hp _) (s.writePlace_readOnly (by simp) v)⟩
  case error =>
    rw [h.statusWord]
    cases e <;> decide
  case completed =>
    rw [State.statusWord, h.state, h.err, h.errInfo, herr, hinfo]
    decide

/-! ### Reset (R29, R200, R202) -/

/-- Settles O24: every register is at its reset value, and what nothing has written since is free. -/
theorem resetLeavesTheResetState : Obligations.ResetLeavesTheResetState := by
  unfold Obligations.ResetLeavesTheResetState
  intro s t
  have hstatus : t.statusWord = 0 := by
    change (0 : BitVec 16) ++ (0 : Byte) ++ ErrClass.none.code ++ (0 : BitVec 2) ++ RunState.idle.code = (0 : Reg)
    decide
  exact ⟨rfl, rfl, rfl, rfl, rfl, rfl, hstatus, rfl, rfl, State.readOut_of_outLen_zero rfl,
    State.irq_eq_false_of_state nofun nofun, rfl, fun _ => rfl, fun _ => rfl, rfl, rfl, rfl, coreTurn_of_not_busy nofun⟩

/-! ### Byte order (R44, R45) -/

/-- A word written as two bytes by W2B. -/
theorem exists_w2b_eq (w : Word) (bo : Bool) : ∃ b0 b1, w2b w bo = [b0, b1] := by
  cases bo <;> exact ⟨_, _, rfl⟩

/-- Settles O36: reading back what was written, and writing back what was read. -/
theorem wordBytesRoundTrip : Obligations.WordBytesRoundTrip := by
  unfold Obligations.WordBytesRoundTrip
  refine ⟨fun w bo => ?_, w2b_b2w, fun b0 b1 => ⟨?_, rfl⟩, fun w => ⟨rfl, rfl⟩⟩
  · obtain ⟨b0, b1, hbytes⟩ := exists_w2b_eq w bo
    have hword := b2w_w2b w bo
    rw [hbytes] at hword
    exact ⟨b0, b1, hbytes, hword⟩
  · change (b0 ++ b1 : Word).toNat = _
    rw [BitVec.toNat_append, ← Nat.shiftLeft_add_eq_or_of_lt b1.isLt, Nat.shiftLeft_eq]

end Sys2Proof.Machine
end

section
/-! CERTIFICATE. The slots of SLEN and the bytes of IN and OUT as the host reads and writes them (10_state.md R22 to R24; 20_memory.md R42,
R43). -/

namespace Sys2Proof.Machine

/-- The low 16 bits, zero-extended. -/
theorem setWidth_setWidth_low (v : Reg) : (v.setWidth 16).setWidth 32 = v &&& 0x0000FFFF := by
  apply BitVec.eq_of_toNat_eq
  have hmask : v.toNat &&& (0x0000FFFF : Reg).toNat = v.toNat % 2 ^ 16 := Nat.and_two_pow_sub_one_eq_mod v.toNat 16
  rw [BitVec.toNat_and, hmask, BitVec.toNat_setWidth, BitVec.toNat_setWidth]
  omega

/-- Settles O16: the slot is read back, any other slot is another index. -/
theorem slenSlotReadWrite : Obligations.SlenSlotReadWrite := by
  unfold Obligations.SlenSlotReadWrite
  intro s i v hb hi t
  have hp := placeOf_slen hi
  have ht : t = { s.writeSlen i (v.setWidth 16) with reply := some .accepted } :=
    (State.hostAccess_write hp).trans (by simp only [State.writePlace, if_neg hb])
  have hread : t.readSlen i = v.setWidth 16 := ht ▸ State.readSlen_writeSlen_same ..
  have hother (j : Nat) (hj : j ≠ i) : t.readSlen j = s.readSlen j := ht ▸ State.readSlen_writeSlen_other s _ hj
  have hplace : t.readPlace (.slen i) = .word (v &&& 0x0000FFFF) := by
    rw [State.readPlace, if_neg (ht ▸ hb), hread, setWidth_setWidth_low]
  exact ⟨hread, hother, State.hostAccess_read_reply (ht ▸ hp) hplace, ht ▸ rfl⟩

/-- Settles O17: the byte is read back, any other byte is another index. -/
theorem inByteReadAfterWrite : Obligations.InByteReadAfterWrite := by
  unfold Obligations.InByteReadAfterWrite
  intro s i v hb hi t
  have hp {j : Nat} (hj : j < s.params.bufCap) := placeOf_inByte hj
  have ht : t = { s.writeIn i (v.setWidth 8) with reply := some .accepted } :=
    (State.hostAccess_write (hp hi)).trans (by simp only [State.writePlace, if_neg hb])
  have hread : t.readIn i = v.setWidth 8 := ht ▸ State.readIn_writeIn_same ..
  have hother (j : Nat) (hj : j ≠ i) : t.readIn j = s.readIn j := ht ▸ State.readIn_writeIn_other s _ hj
  have hplace (j : Nat) : t.readPlace (.inByte j) = .byte (t.readIn j) := by
    rw [State.readPlace, if_neg (ht ▸ hb)]
  exact ⟨hread, hother, fun j hj => State.hostAccess_read_reply (ht ▸ hp hj) (hplace j), ht ▸ rfl⟩

/-- Settles O18: one case for BUSY, one beyond OUT_LEN, one below it. -/
theorem outReadsWithinOutLen : Obligations.OutReadsWithinOutLen := by
  unfold Obligations.OutReadsWithinOutLen
  intro s i v hc hi
  have hp := placeOf_outByte hc hi
  refine ⟨fun hb => ?busy, fun hb hlen => ?beyond, fun hb hlen => ?below,
    State.hostAccess_write_ignored hp (s.writePlace_readOnly (by simp) v),
    State.hostAccess_read (q := .outLen) (placeOf_of_regAt rfl)⟩ <;> refine State.hostAccess_read_reply hp ?_
  case busy => rw [State.readPlace, if_pos hb]
  case beyond => rw [State.readPlace, if_neg hb, State.readOut, if_neg hlen.not_gt]
  case below => rw [State.readPlace, if_neg hb, State.readOut, if_pos hlen]

end Sys2Proof.Machine
end

section
/-! SUPPORT. Turns of a host one after another (30_encoding.md R69): bytes written to IN, and the three writes that START a
descriptor. -/

namespace Sys2Proof.Machine

/-- The state with `turns` to come. -/
def State.withAgenda (s : State) (turns : List Turn) : State := { s with agenda := turns }

/-- One host access is one step (R42). -/
theorem run_access (k : Nat) (s : State) (a : Access) (rest : List Turn) :
    Host.Core.run core (k + 1) (s.withAgenda (.access a :: rest)) = Host.Core.run core k ((s.withAgenda rest).hostAccess a) := rfl

theorem run_add {m : Nat} (n : Nat) {s u : State} (h : Host.Core.run core m s = .next u) :
    Host.Core.run core (m + n) s = Host.Core.run core n u := by
  induction m generalizing s with
  | zero =>
    cases h
    rw [Nat.zero_add]
  | succ m ih =>
    rw [Nat.succ_add]
    simp only [Host.Core.run] at h ⊢
    cases hstep : core.step s with
    | next v =>
      rw [hstep] at h
      exact ih h
    | fault r => nomatch r
    | refused r =>
      rw [hstep] at h
      cases h

/-! ### Writing IN -/

/-- The bytes `bytes` written to IN from index `start` on, by one access each. -/
def State.loadIn (s : State) (start : Nat) : List Byte → State
  | [] => s
  | v :: rest => State.loadIn { s.writeIn start v with reply := some .accepted } (start + 1) rest

theorem loadIn_frame (s : State) (start : Nat) (bytes : List Byte) :
    s.loadIn start bytes =
      { s with inBuf := (s.loadIn start bytes).inBuf, reply := (s.loadIn start bytes).reply } := by
  induction bytes generalizing s start with
  | nil => rfl
  | cons v rest ih => exact ih _ (start + 1)

theorem readIn_loadIn_outside (s : State) {start i : Nat} {bytes : List Byte} (h : i < start ∨ start + bytes.length ≤ i) :
    (s.loadIn start bytes).readIn i = s.readIn i := by
  induction bytes generalizing s start with
  | nil => rfl
  | cons v rest ih =>
    rw [List.length_cons] at h
    exact (ih _ (by omega)).trans (State.readIn_writeIn_other s v (by omega))

theorem readIn_loadIn (s : State) (start : Nat) {i : Nat} {bytes : List Byte} (h : i < bytes.length) :
    (s.loadIn start bytes).readIn (start + i) = bytes.getD i 0 := by
  induction bytes generalizing s start i with
  | nil => cases h
  | cons v rest ih =>
    cases i with
    | zero => exact (readIn_loadIn_outside _ (.inl (Nat.lt_succ_self _))).trans (State.readIn_writeIn_same s start v)
    | succ i =>
      rw [← Nat.succ_add_eq_add_succ]
      exact ih _ (start + 1) (by simpa using h)

/-- A write to IN outside BUSY. -/
theorem hostAccess_write_inByte {s : State} {i : Nat} (hb : s.state ≠ .busy) (hi : i < s.params.bufCap) (v : Byte)
    (rest : List Turn) : (s.withAgenda rest).hostAccess (.write (0x10000000 + i) 8 (v.setWidth 32)) =
      State.withAgenda { s.writeIn i v with reply := some .accepted } rest := by
  have hv : (v.setWidth 32).setWidth 8 = v := by simp
  have hidle : ¬ (s.withAgenda rest).state = .busy := hb
  have hplace : placeOf (s.withAgenda rest).params (0x10000000 + i) 8 = some (.inByte i) := placeOf_inByte hi
  rw [State.hostAccess_write hplace]
  simp only [State.writePlace, if_neg hidle, hv]
  rfl

/-- The turns that load IN load it. -/
theorem run_loadInTurns {s : State} {start : Nat} {bytes : List Byte} (hb : s.state ≠ .busy)
    (hcap : start + bytes.length ≤ s.params.bufCap) (rest : List Turn) :
    Host.Core.run core bytes.length (s.withAgenda (loadInTurns start bytes ++ rest)) =
      .next ((s.loadIn start bytes).withAgenda rest) := by
  induction bytes generalizing s start with
  | nil => rfl
  | cons v bytes ih =>
    rw [List.length_cons] at hcap
    have hi : start < s.params.bufCap := by omega
    have hrest : start + 1 + bytes.length ≤ s.params.bufCap := by omega
    rw [List.length_cons, loadInTurns, List.cons_append, run_access, hostAccess_write_inByte hb hi]
    exact ih (s := { s.writeIn start v with reply := some .accepted }) hb hrest

/-! ### Starting a descriptor -/

theorem hostAccess_write_descLo {s : State} (hb : s.state ≠ .busy) (v : Reg) (rest : List Turn) :
    (s.withAgenda rest).hostAccess (.write 0x08 32 v) =
      State.withAgenda { s with descLo := v, reply := some .accepted } rest := by
  have hidle : ¬ (s.withAgenda rest).state = .busy := hb
  rw [State.hostAccess_write (q := .descLo) (placeOf_of_regAt rfl)]
  simp only [State.writePlace, if_neg hidle]
  rfl

theorem hostAccess_write_descHi {s : State} (hb : s.state ≠ .busy) (v : Reg) (rest : List Turn) :
    (s.withAgenda rest).hostAccess (.write 0x0C 32 v) =
      State.withAgenda { s with descHi := v, reply := some .accepted } rest := by
  have hidle : ¬ (s.withAgenda rest).state = .busy := hb
  rw [State.hostAccess_write (q := .descHi) (placeOf_of_regAt rfl)]
  simp only [State.writePlace, if_neg hidle]
  rfl

/-- A write of 1 to CTRL outside BUSY is START (R16). -/
theorem hostAccess_write_start {s : State} (hb : s.state ≠ .busy) (rest : List Turn) :
    (s.withAgenda rest).hostAccess (.write 0x10 32 1) =
      State.withAgenda { s.start with reply := some .accepted } rest :=
  State.hostAccess_write_ctrl (s := s.withAgenda rest) hb 1

/-- The three writes that START `d` launch it. -/
theorem run_startTurns {s : State} (hb : s.state ≠ .busy) (d : Desc) (rest : List Turn) :
    Host.Core.run core 3 (s.withAgenda (startTurns d ++ rest)) =
      .next (State.withAgenda { s.launch d with reply := some .accepted } rest) := by
  simp only [startTurns, wrReg, List.cons_append, List.nil_append]
  rw [run_access, hostAccess_write_descLo hb, run_access, hostAccess_write_descHi, run_access, hostAccess_write_start]
  · rfl
  · exact hb
  · exact hb

/-! ### The split sequence -/

theorem length_loadInTurns (start : Nat) (bytes : List Byte) : (loadInTurns start bytes).length = bytes.length := by
  induction bytes generalizing start with
  | nil => rfl
  | cons v bytes ih => rw [loadInTurns, List.length_cons, List.length_cons, ih]

/-- The split sequence loads the secret, then launches the SPLIT. -/
theorem run_splitTurns {s : State} (hb : s.state ≠ .busy) (t n : Nat) {secret : List Byte}
    (hcap : secret.length ≤ s.params.bufCap) (rest : List Turn) :
    Host.Core.run core (splitTurns t n secret).length (s.withAgenda (splitTurns t n secret ++ rest)) =
      .next (State.withAgenda
        { (s.loadIn 0 secret).launch (encode (.split t n secret.length)) with reply := some .accepted } rest) := by
  have hlen : (splitTurns t n secret).length = secret.length + 3 := by
    rw [splitTurns, List.length_append, length_loadInTurns]
    rfl
  have hload := run_loadInTurns (start := 0) (bytes := secret) hb (by omega) (startTurns (encode (.split t n secret.length)) ++ rest)
  have hidle : (s.loadIn 0 secret).state ≠ .busy := by rwa [loadIn_frame]
  rw [hlen, splitTurns, List.append_assoc, run_add 3 hload, run_startTurns hidle]

/-- Settles O23: the secret is loaded byte by byte, and the decoder reads the encoded SPLIT back. -/
theorem splitSequenceStartsSplit : Obligations.SplitSequenceStartsSplit := by
  unfold Obligations.SplitSequenceStartsSplit
  intro s t n secret rest hb hcap hlen ht hn
  have hwf : (Instr.split t n secret.length).wf = true := by simp [Instr.wf, fitsOperand, ht, hn, hlen]
  have hcmd : ((s.loadIn 0 secret).launch (encode (.split t n secret.length))).cmd =
      some (.legal (.split t n secret.length)) := by
    rw [State.launch_cmd, decode_encode hwf]
  have hframe := loadIn_frame s 0 secret
  refine ⟨_, run_splitTurns hb t n hcap rest, rfl, rfl, hcmd, rfl, fun i hi => ?secret, fun i hi => ?others, fun i => ?slen,
    ?cfg, ?params, ?answers⟩
  case secret =>
    have hread := readIn_loadIn s 0 hi
    rw [Nat.zero_add] at hread
    exact hread
  case others => exact readIn_loadIn_outside s (.inr (by omega))
  case slen => exact (congrArg (State.readSlen · i) hframe :)
  case cfg => exact (congrArg State.cfg hframe :)
  case params => exact (congrArg State.params hframe :)
  case answers => exact (congrArg State.answers hframe :)

end Sys2Proof.Machine
end

section
/-! SUPPORT. The default Field under every modulus without zero divisors (40_field_and_random.md R86): a finite integral domain is
a field, and its 65535 non-zero elements make `a^65534` the inverse. -/

namespace Sys2Proof

/-- Sixteen squarings are the identity of a field of 65536 elements. -/
theorem FieldOps.Lawful.iterate_square {F : FieldOps} (hF : F.Lawful) (a : Word) : (fun v => F.mul v v)^[16] a = a := by
  let := hF.commRing
  have := hF.isDomain
  let : DecidableEq F.Carrier := inferInstanceAs (DecidableEq Word)
  let : Fintype F.Carrier := Fintype.ofEquiv _ BitVec.equivFin.symm.toEquiv
  let := Fintype.fieldOfDomain F.Carrier
  have hcard : Fintype.card F.Carrier = 2 ^ 16 :=
    (Fintype.card_congr (BitVec.equivFin (m := 16)).toEquiv).trans (Fintype.card_fin _)
  have hsquare (b : F.Carrier) : (fun v : F.Carrier => v * v)^[16] b = b := by
    simp only [← sq]
    rw [pow_iterate, ← hcard]
    exact FiniteField.pow_card b
  exact hsquare a

namespace Machine

/-- The default Field with another inverse. -/
def gfFieldWith (poly : BitVec 17) (inv : Word → Word) : FieldOps := { gfField poly with inv := inv }

section

variable {poly : BitVec 17} (h : poly.getLsbD 16 = true) (hnz : ∀ a b, gfMul poly a b = 0 → a = 0 ∨ b = 0)
include h hnz

/-- All laws but that of the inverse hold. -/
theorem gfFieldWith_lawful {inv : Word → Word} (hinv : ∀ a, a ≠ 0 → gfMul poly a (inv a) = 1) :
    (gfFieldWith poly inv).Lawful := by
  constructor <;> simp only [gfFieldWith, gfField_add, gfField_mul, gfField_one]
  · exact BitVec.xor_comm
  · exact BitVec.xor_assoc
  · exact fun a => BitVec.xor_zero
  · exact fun a => BitVec.xor_self
  · exact gfMul_comm h
  · exact gfMul_assoc h
  · exact gfMul_one h
  · exact gfMul_zero h
  · exact gfMul_xor h
  · exact hnz
  · exact hinv

/-- Multiplication by a non-zero element is one-to-one. -/
theorem gfMul_left_injective {a : Word} (ha : a ≠ 0) : Function.Injective (gfMul poly a) := by
  intro b c hbc
  have hzero : gfMul poly a (b ^^^ c) = 0 := by rw [gfMul_xor h, hbc, BitVec.xor_self]; rfl
  exact BitVec.xor_eq_zero_iff.1 ((hnz _ _ hzero).resolve_left ha)

/-- The words are finitely many, so multiplication by a non-zero element reaches 1. -/
theorem exists_gfMul_eq_one {a : Word} (ha : a ≠ 0) : ∃ b, gfMul poly a b = 1 :=
  Finite.injective_iff_surjective.1 (gfMul_left_injective h hnz ha) 1

theorem exists_inverse : ∃ inv : Word → Word, ∀ a, a ≠ 0 → gfMul poly a (inv a) = 1 := by
  choose inv hinv using fun a (ha : a ≠ 0) => exists_gfMul_eq_one h hnz ha
  classical
  exact ⟨fun a => if ha : a ≠ 0 then inv a ha else 0, fun a ha => by simpa only [dif_pos ha] using hinv a ha⟩

/-- Sixteen squarings are the identity. -/
theorem gfSquare_iterate_eq (a : Word) : (fun v => gfMul poly v v)^[16] a = a := by
  obtain ⟨inv, hinv⟩ := exists_inverse h hnz
  exact (gfFieldWith_lawful h hnz hinv).iterate_square a

/-- `a^65534` is the inverse of `a`: times `a` twice it is `a^65536 = a`. -/
theorem gfMul_gfInv {a : Word} (ha : a ≠ 0) : gfMul poly a (gfInv poly a) = 1 := by
  have htwice : gfMul poly (gfMul poly (gfPow65534 poly a) a) a = a :=
    (gfPow_telescope h a 15).trans (gfSquare_iterate_eq h hnz a)
  rw [gfInv, if_neg ha]
  apply gfMul_left_injective h hnz ha
  rw [gfMul_one h, gfMul_comm h a (gfPow65534 poly a), gfMul_comm h a, htwice]

end

/-- Settles O38: a modulus without zero divisors makes a finite field, of 65536 elements. -/
theorem defaultFieldIsLawful : Obligations.DefaultFieldIsLawful := by
  unfold Obligations.DefaultFieldIsLawful
  intro poly h hnz
  exact gfFieldWith_lawful h hnz (fun _ ha => gfMul_gfInv h hnz ha)

end Machine
end Sys2Proof
end

section
/-! SUPPORT. Words as polynomials over GF(2) (40_field_and_random.md R86): modulo `POLY` a shift of the multiplier is the product
by `z`, so the multiplier is the product of polynomials. -/

namespace Sys2Proof.Machine

open Polynomial

/-! ### Bits as coefficients -/

/-- The polynomial whose coefficient of `z^i` is `bit i`, for `i < n`. -/
noncomputable def bitPoly (n : Nat) (bit : Nat → Bool) : (ZMod 2)[X] :=
  ∑ i ∈ Finset.range n, if bit i then (X : (ZMod 2)[X]) ^ i else 0

/-- The polynomial of a word. -/
noncomputable def wordPoly (w : Word) : (ZMod 2)[X] := bitPoly 16 w.getLsbD

theorem bitPoly_succ (n : Nat) (bit : Nat → Bool) : bitPoly (n + 1) bit = bitPoly n bit + if bit n then X ^ n else 0 :=
  Finset.sum_range_succ ..

theorem bitPoly_congr {n : Nat} {f g : Nat → Bool} (h : ∀ i < n, f i = g i) : bitPoly n f = bitPoly n g :=
  Finset.sum_congr rfl fun i hi => by rw [h i (Finset.mem_range.1 hi)]

/-- Exclusive or adds polynomials: `1 + 1 = 0` in GF(2). -/
theorem bitPoly_xor (n : Nat) (f g : Nat → Bool) : (bitPoly n fun i => f i ^^ g i) = bitPoly n f + bitPoly n g := by
  unfold bitPoly
  rw [← Finset.sum_add_distrib]
  refine Finset.sum_congr rfl fun i _ => ?_
  beta_reduce
  cases f i <;> cases g i <;> simp [CharTwo.add_self_eq_zero]

theorem wordPoly_xor (v w : Word) : wordPoly (v ^^^ w) = wordPoly v + wordPoly w := by
  unfold wordPoly
  rw [← bitPoly_xor]
  exact bitPoly_congr fun i _ => BitVec.getLsbD_xor

theorem wordPoly_eq_sum (w : Word) : wordPoly w = ∑ i ∈ Finset.range 16, if w.getLsbD i then X ^ i else 0 := rfl

theorem wordPoly_zero : wordPoly 0 = 0 := by
  simp [wordPoly, bitPoly]

theorem wordPoly_ite (c : Bool) (w : Word) : wordPoly (if c then w else 0) = if c then wordPoly w else 0 := by
  rw [apply_ite wordPoly, wordPoly_zero]

theorem wordPoly_xorSum (n : Nat) (f : Nat → Word) : wordPoly (xorSum n f) = ∑ i ∈ Finset.range n, wordPoly (f i) := by
  induction n with
  | zero => exact wordPoly_zero
  | succ n ih => rw [xorSum, wordPoly_xor, ih, Finset.sum_range_succ]

/-! ### Multiplication by `z` -/

/-- A shift to the left loses the coefficient of `z^16`. -/
theorem X_mul_wordPoly (v : Word) : X * wordPoly v = wordPoly (v <<< 1) + if v.getLsbD 15 then X ^ 16 else 0 := by
  have hshift : wordPoly (v <<< 1) = X * bitPoly 15 v.getLsbD := by
    rw [wordPoly, bitPoly, Finset.sum_range_succ', bitPoly, Finset.mul_sum]
    refine (add_eq_left.2 (by simp)).trans (Finset.sum_congr rfl fun i hi => ?_)
    have hi : i + 1 < 16 := Nat.succ_lt_succ (Finset.mem_range.1 hi)
    have hbit : (v <<< 1).getLsbD (i + 1) = v.getLsbD i := by
      rw [BitVec.getLsbD_shiftLeft, decide_eq_true hi]
      simp
    rw [hbit, mul_ite, mul_zero, pow_succ']
  rw [hshift, wordPoly, bitPoly_succ, mul_add, mul_ite, mul_zero, ← pow_succ']

section

variable {poly : BitVec 17} (h : poly.getLsbD 16 = true)
include h

/-- `POLY` is `z^16` and the terms below. -/
theorem bitPoly_modulus : bitPoly 17 poly.getLsbD = wordPoly (poly.setWidth 16) + X ^ 16 := by
  rw [bitPoly_succ, if_pos h, wordPoly]
  refine congrArg (· + X ^ 16) (bitPoly_congr fun i hi => ?_)
  rw [BitVec.getLsbD_setWidth, decide_eq_true hi, Bool.true_and]

/-- One shift of the multiplier is the product by `z` modulo `POLY`. -/
theorem mk_wordPoly_xtime (v : Word) :
    AdjoinRoot.mk (bitPoly 17 poly.getLsbD) (wordPoly (xtime poly v)) =
      AdjoinRoot.mk (bitPoly 17 poly.getLsbD) (X * wordPoly v) := by
  rw [X_mul_wordPoly, xtime, wordPoly_xor, map_add, map_add]
  refine congrArg (AdjoinRoot.mk _ (wordPoly (v <<< 1)) + ·) ?_
  rw [wordPoly_ite]
  split
  · refine AdjoinRoot.mk_eq_mk.2 (dvd_of_eq ?_)
    rw [bitPoly_modulus h, CharTwo.sub_eq_add]
  · rfl

theorem mk_wordPoly_iterate_xtime (i : Nat) (v : Word) :
    AdjoinRoot.mk (bitPoly 17 poly.getLsbD) (wordPoly ((xtime poly)^[i] v)) =
      AdjoinRoot.mk (bitPoly 17 poly.getLsbD) (X ^ i * wordPoly v) := by
  induction i with
  | zero => rw [pow_zero, one_mul]; rfl
  | succ i ih => rw [Function.iterate_succ_apply', mk_wordPoly_xtime h, map_mul, ih, ← map_mul, pow_succ', mul_assoc]

/-- The multiplier is the product modulo `POLY`. -/
theorem mk_wordPoly_gfMul (a b : Word) :
    AdjoinRoot.mk (bitPoly 17 poly.getLsbD) (wordPoly (gfMul poly a b)) =
      AdjoinRoot.mk (bitPoly 17 poly.getLsbD) (wordPoly a * wordPoly b) := by
  rw [gfMul_eq_sum h, wordPoly_xorSum, wordPoly_eq_sum b, Finset.mul_sum, map_sum, map_sum]
  refine Finset.sum_congr rfl fun i _ => ?_
  rw [wordPoly_ite]
  split
  · rw [mk_wordPoly_iterate_xtime h, mul_comm]
  · rw [mul_zero]

end

/-- Settles O37: the product and the multiplier's result are equal modulo `POLY`. -/
theorem defaultProductIsPolynomialProduct : Obligations.DefaultProductIsPolynomialProduct := by
  unfold Obligations.DefaultProductIsPolynomialProduct
  intro poly a b h
  obtain ⟨q, hq⟩ := AdjoinRoot.mk_eq_mk.1 (mk_wordPoly_gfMul h a b).symm
  exact ⟨q, (sub_eq_iff_eq_add.1 hq).trans (by rw [mul_comm q]; rfl)⟩

end Sys2Proof.Machine
end
